-- ==== Sys2Proof/Word.lean ====
section
/-! DEFINITION. The word types of HBPD: every register and command word is 32 bits wide
(10_state.md R22, 30_encoding.md R90), symbols and stream bytes are 8 bits (00_scope.md R2),
the original length is 64 bits (00_scope.md R8). -/

namespace Sys2Proof

/-- A register of the window, a command word, a value on the host bus. -/
abbrev Word := BitVec 32

/-- A symbol, an input byte, a byte of BUF, a code length. -/
abbrev Byte := BitVec 8

/-- The original length and REMAIN. -/
abbrev Dword := BitVec 64

end Sys2Proof
end

