-- ==== Sys2Proof/Config.lean ====
section
/-! DEFINITION. What an implementation fixes (00_scope.md R5 to R8), and the values the spec leaves
unspecified, as constants nothing can evaluate (93_implementation_defined.md S2, S6). -/

namespace Sys2Proof

/-- The configuration record of 00_scope.md R8. It is a constant field of State: see log entry 1. -/
structure Params where
  /-- CAP, the bytes of the packer's bit buffer (R5). -/
  cap : Nat
  /-- NODE_CAP, the number of trie node slots (R6). -/
  nodeCap : Nat
  /-- BASE, the bus address of the register window (R7). -/
  base : Nat
  deriving DecidableEq, Repr

/-- The ranges of 00_scope.md R5, R6 and R7. -/
abbrev Params.wf (p : Params) : Prop :=
  1 ≤ p.cap ∧ p.cap ≤ 2 ^ 28 ∧ 2 ≤ p.nodeCap ∧ p.nodeCap ≤ 512 ∧ p.base % 256 = 0

/-- The record State.reset uses. DESIGN CHOICE (log entry 1): the spec fixes no CAP and no BASE; NODE_CAP is
its default 511 (R6). Unsafe for a claim that rests on CAP = 2 or BASE = 0; no statement does. -/
def Params.default : Params := { cap := 2, nodeCap := 511, base := 0 }

/-- The unspecified value number `k` that a read of a unit register returns while BUSY = 1
(42_global.md R173, 93_implementation_defined.md S2). Free: nothing constrains it (log entry 4). -/
opaque Config.freeWord : Nat → Word

/-- Whether the write abandoned by `rst` as draw number `k` reached its sink (70_reset_and_hazards.md R211,
93_implementation_defined.md S6). Free: nothing constrains it (log entry 4). -/
opaque Config.freeReached : Nat → Bool

end Sys2Proof
end

