-- ==== Sys2Proof/Syntax.lean ====
section
/-! DEFINITION. The commands of HBPD, one constructor for each row of the opcode map
(30_encoding.md R96); HBPD is driven by commands and has no other instructions (10_state.md R20, R21). -/

namespace Sys2Proof

/-- A command with the operands its word carries (30_encoding.md R92, R93).
The code bits and the original length are no operands of the word: they come from the latch (R95). -/
inductive Instr where
  /-- 42_global.md R170 -/
  | nop
  /-- 42_global.md R171 -/
  | softReset
  /-- 40_packer.md R113 -/
  | pReset
  /-- 40_packer.md R114 -/
  | pPackCode (len : Byte)
  /-- 40_packer.md R115 -/
  | pPackSym (sym : Byte)
  /-- 40_packer.md R116 -/
  | pFlush
  /-- 40_packer.md R117 -/
  | ctWrite (sym : Byte) (len : Byte)
  /-- 40_packer.md R118 -/
  | ctClear
  /-- 41_decoder.md R143 -/
  | dReset
  /-- 41_decoder.md R146 -/
  | dInsert (sym : Byte) (len : Byte)
  /-- 41_decoder.md R147 -/
  | dStart
  /-- 41_decoder.md R149 -/
  | dFeedBit (b : Bool)
  /-- 41_decoder.md R150 -/
  | dFeedByte (byte : Byte)
  deriving DecidableEq, Repr

end Sys2Proof
end

