-- ==== Sys2Proof/WellFormed.lean ====
section
/-! DEFINITION. Which terms of `Instr` are commands: a code length is 1..255 (30_encoding.md R93, R100).
Every other operand may have every value of its type. -/

namespace Sys2Proof

/-- The code length of a command that takes one (30_encoding.md R97: P_PACK_CODE, CT_WRITE and D_INSERT). -/
def Instr.codeLength? : Instr → Option Byte
  | .nop => none
  | .softReset => none
  | .pReset => none
  | .pPackCode len => some len
  | .pPackSym _ => none
  | .pFlush => none
  | .ctWrite _ len => some len
  | .ctClear => none
  | .dReset => none
  | .dInsert _ len => some len
  | .dStart => none
  | .dFeedBit _ => none
  | .dFeedByte _ => none

/-- A command is well formed when its code length, if it takes one, is not 0 (30_encoding.md R93). -/
def Instr.wellFormed (i : Instr) : Bool :=
  i.codeLength? != some 0

end Sys2Proof
end

