-- ==== Sys2Proof/Decode.lean ====
section
/-! DEFINITION. The decoder of command words, total on all 32-bit words and rejecting by name, and the
encoder, both from the opcode map and the masks of 30_encoding.md R96 and R97. The order of the checks is
that of R102 after its BUSY check. -/

namespace Sys2Proof

/-- The rows of the opcode map (30_encoding.md R96). -/
inductive Opcode where
  | nop | softReset
  | pReset | pPackCode | pPackSym | pFlush | ctWrite | ctClear
  | dReset | dInsert | dStart | dFeedBit | dFeedByte
  deriving DecidableEq, Repr

/-- Why a word is no command; each becomes a CF cause (60_exceptions.md R181). -/
inductive Reject where
  /-- 30_encoding.md R98 -/
  | badOpcode
  /-- 30_encoding.md R99 -/
  | rsvdNonzero
  /-- 30_encoding.md R100 -/
  | badLen
  deriving DecidableEq, Repr

/-- OP, the opcode number of a row (30_encoding.md R96). -/
def opcodeByte : Opcode → Byte
  | .nop => 0x00#8
  | .softReset => 0x01#8
  | .pReset => 0x10#8
  | .pPackCode => 0x11#8
  | .pPackSym => 0x12#8
  | .pFlush => 0x13#8
  | .ctWrite => 0x14#8
  | .ctClear => 0x15#8
  | .dReset => 0x20#8
  | .dInsert => 0x21#8
  | .dStart => 0x22#8
  | .dFeedBit => 0x23#8
  | .dFeedByte => 0x24#8

/-- Every row of the opcode map. -/
def opcodes : List Opcode :=
  [.nop, .softReset, .pReset, .pPackCode, .pPackSym, .pFlush, .ctWrite, .ctClear,
   .dReset, .dInsert, .dStart, .dFeedBit, .dFeedByte]

/-- The row of an OP value, if it has one (30_encoding.md R91, R98). -/
def opcodeOf (op : Byte) : Option Opcode :=
  opcodes.find? (fun row => opcodeByte row == op)

/-- The mask column of 30_encoding.md R97. -/
def opcodeMask : Opcode → Word
  | .nop => 0xFFFFFFFF#32
  | .softReset => 0xFFFFFFFF#32
  | .pReset => 0xFFFFFFFF#32
  | .pPackCode => 0xFF00FFFF#32
  | .pPackSym => 0xFFFF00FF#32
  | .pFlush => 0xFFFFFFFF#32
  | .ctWrite => 0xFF0000FF#32
  | .ctClear => 0xFFFFFFFF#32
  | .dReset => 0xFFFFFFFF#32
  | .dInsert => 0xFF0000FF#32
  | .dStart => 0xFFFFFFFF#32
  | .dFeedBit => 0xFFFFFEFF#32
  | .dFeedByte => 0xFFFF00FF#32

/-- The match column of 30_encoding.md R97. -/
def opcodeMatch : Opcode → Word
  | .nop => 0x00000000#32
  | .softReset => 0x00000001#32
  | .pReset => 0x00000010#32
  | .pPackCode => 0x00000011#32
  | .pPackSym => 0x00000012#32
  | .pFlush => 0x00000013#32
  | .ctWrite => 0x00000014#32
  | .ctClear => 0x00000015#32
  | .dReset => 0x00000020#32
  | .dInsert => 0x00000021#32
  | .dStart => 0x00000022#32
  | .dFeedBit => 0x00000023#32
  | .dFeedByte => 0x00000024#32

/-- The rows that take a code length (30_encoding.md R97). -/
def takesLength : Opcode → Bool
  | .pPackCode => true
  | .ctWrite => true
  | .dInsert => true
  | .nop => false
  | .softReset => false
  | .pReset => false
  | .pPackSym => false
  | .pFlush => false
  | .ctClear => false
  | .dReset => false
  | .dStart => false
  | .dFeedBit => false
  | .dFeedByte => false

/-- OP = CMD[7:0] (30_encoding.md R91). -/
def opField (w : Word) : Byte := w.extractLsb' 0 8

/-- ARG = CMD[15:8] (30_encoding.md R92). -/
def argField (w : Word) : Byte := w.extractLsb' 8 8

/-- LEN = CMD[23:16] (30_encoding.md R93). -/
def lenField (w : Word) : Byte := w.extractLsb' 16 8

/-- RSVD = CMD[31:24] (30_encoding.md R94). -/
def rsvdField (w : Word) : Byte := w.extractLsb' 24 8

/-- The command of a row, with the operands of the word (30_encoding.md R95). -/
def commandOf (row : Opcode) (w : Word) : Instr :=
  match row with
  | .nop => .nop
  | .softReset => .softReset
  | .pReset => .pReset
  | .pPackCode => .pPackCode (lenField w)
  | .pPackSym => .pPackSym (argField w)
  | .pFlush => .pFlush
  | .ctWrite => .ctWrite (argField w) (lenField w)
  | .ctClear => .ctClear
  | .dReset => .dReset
  | .dInsert => .dInsert (argField w) (lenField w)
  | .dStart => .dStart
  | .dFeedBit => .dFeedBit (w.getLsbD 8)
  | .dFeedByte => .dFeedByte (argField w)

/-- The command a word stands for, or why it is none: the checks of 30_encoding.md R102 after the BUSY
check, in that order (R98, R99, R100). -/
def decode (w : Word) : Except Reject Instr :=
  if rsvdField w ≠ 0 then .error .rsvdNonzero
  else
    match opcodeOf (opField w) with
    | none => .error .badOpcode
    | some row =>
      if w &&& opcodeMask row ≠ opcodeMatch row then .error .rsvdNonzero
      else if takesLength row = true ∧ lenField w = 0 then .error .badLen
      else .ok (commandOf row w)

/-- The row of a command. -/
def opcodeOfInstr : Instr → Opcode
  | .nop => .nop
  | .softReset => .softReset
  | .pReset => .pReset
  | .pPackCode _ => .pPackCode
  | .pPackSym _ => .pPackSym
  | .pFlush => .pFlush
  | .ctWrite _ _ => .ctWrite
  | .ctClear => .ctClear
  | .dReset => .dReset
  | .dInsert _ _ => .dInsert
  | .dStart => .dStart
  | .dFeedBit _ => .dFeedBit
  | .dFeedByte _ => .dFeedByte

/-- A command word with RSVD = 0 and the given fields (30_encoding.md R90). -/
def commandWord (len arg op : Byte) : Word :=
  0#8 ++ len ++ arg ++ op

/-- The input bit of D_FEED_BIT as ARG, with ARG[7:1] = 0 (30_encoding.md R92). -/
def bitArg (b : Bool) : Byte := if b then 1#8 else 0#8

/-- The word of a command: the word column of 30_encoding.md R96. -/
def encode : Instr → Word
  | .nop => commandWord 0 0 (opcodeByte .nop)
  | .softReset => commandWord 0 0 (opcodeByte .softReset)
  | .pReset => commandWord 0 0 (opcodeByte .pReset)
  | .pPackCode len => commandWord len 0 (opcodeByte .pPackCode)
  | .pPackSym sym => commandWord 0 sym (opcodeByte .pPackSym)
  | .pFlush => commandWord 0 0 (opcodeByte .pFlush)
  | .ctWrite sym len => commandWord len sym (opcodeByte .ctWrite)
  | .ctClear => commandWord 0 0 (opcodeByte .ctClear)
  | .dReset => commandWord 0 0 (opcodeByte .dReset)
  | .dInsert sym len => commandWord len sym (opcodeByte .dInsert)
  | .dStart => commandWord 0 0 (opcodeByte .dStart)
  | .dFeedBit b => commandWord 0 (bitArg b) (opcodeByte .dFeedBit)
  | .dFeedByte byte => commandWord 0 byte (opcodeByte .dFeedByte)

/-- The 32-bit command word of a table word: bit 0 is bit 0 of the word, and bits from `nbits` up are 0.
A command is one bus word, so no byte order enters (20_memory.md R63, 30_encoding.md R90). -/
def tableWord (nbits w : Nat) : Word :=
  BitVec.ofNat 32 (w % 2 ^ nbits)

/-- The command the decoder reads from a word of spec/opcode_table.json. -/
def decodeTableWord (nbits w : Nat) : Option Instr :=
  (decode (tableWord nbits w)).toOption

end Sys2Proof
end

