-- ==== Sys2Proof/Machine/State.lean ====
section
/-! DEFINITION. The state of HBPD as plain data: everything 10_state.md gives the block, the command in
flight with its output writes, and the outside agents of 00_scope.md R4 as the lists of what they do next. -/

namespace Sys2Proof.Machine

/-- Why the machine stops. HBPD itself never stops: its faults are causes in STATUS (60_exceptions.md R180). -/
inductive Fault where
  /-- Raised by the block's turn when the latched word is no command. Acceptance latches only commands
  (30_encoding.md R102), so no run reaches it. Safe: the machine stops where no run comes (log entry 7). -/
  | latchedWordIsNoCommand
  deriving DecidableEq, Repr

/-- Why an instruction has no meaning. -/
inductive Refusal where
  /-- Raised by an arm of `exec` whose instruction is not modelled yet; there is none. Safe. -/
  | notModelled (mnemonic : String)
  deriving DecidableEq, Repr

/-- CF, the command fault cause (10_state.md R42, 60_exceptions.md R181). -/
inductive CfCause where
  | none | badOpcode | rsvdNonzero | badLen | busyViolation | badAccess
  deriving DecidableEq, Repr

/-- PF, the packer fault cause (10_state.md R37, 60_exceptions.md R182). -/
inductive PfCause where
  | none | noCode | sinkError
  deriving DecidableEq, Repr

/-- DF, the decoder fault cause (10_state.md R41, 60_exceptions.md R183). -/
inductive DfCause where
  | none | walkOff | trieConflict | trieFull | tooManyCodes | outError
  deriving DecidableEq, Repr

/-- Eight 32-bit words: the registers CODE0..CODE7, the code operand W, the bits of a code-table entry
(10_state.md R27, R38). Bit i of the code is given by `codebit` (30_encoding.md R95). -/
structure CodeWords where
  w0 : Word
  w1 : Word
  w2 : Word
  w3 : Word
  w4 : Word
  w5 : Word
  w6 : Word
  w7 : Word
  deriving DecidableEq, Repr

/-- Eight words of 0, the reset value of CODE0..CODE7 (10_state.md R27). -/
def CodeWords.zero : CodeWords :=
  { w0 := 0, w1 := 0, w2 := 0, w3 := 0, w4 := 0, w5 := 0, w6 := 0, w7 := 0 }

/-- An entry of the code table; `len` 0 says that the symbol has no code (10_state.md R38). -/
structure CtEntry where
  len : Byte
  bits : CodeWords
  deriving DecidableEq, Repr

/-- The entry {len 0, bits 0} (10_state.md R38). -/
def CtEntry.empty : CtEntry := { len := 0, bits := CodeWords.zero }

/-- A trie node; a child of 0 is absent (10_state.md R39, 41_decoder.md R141). Node indices are naturals
below NODE_CAP ≤ 512 (41_decoder.md R151). -/
structure Node where
  child0 : Nat
  child1 : Nat
  leaf : Bool
  sym : Byte
  deriving DecidableEq, Repr

/-- The node {child0 0, child1 0, leaf 0, sym 0} (41_decoder.md R143). -/
def Node.blank : Node := { child0 := 0, child1 := 0, leaf := false, sym := 0 }

/-- The packer unit (10_state.md §3). BUF and CT are lists of (index, value) in the canonical form of
`Memory.wf`; an unlisted byte of BUF is 0 and an unlisted entry of CT is {len 0, bits 0}, their reset
contents (R35, R38). -/
structure Packer where
  buf : List Host.Cell
  off : Nat
  pf : PfCause
  ct : List (Nat × CtEntry)
  deriving DecidableEq, Repr

/-- The decoder unit (10_state.md §4). NODE is a list of (slot, node) in canonical form; an unlisted slot is
{0, 0, 0, 0}, which 93_implementation_defined.md S1 allows for the unallocated ones (log entry 5). -/
structure Decoder where
  node : List (Nat × Node)
  nNodes : Nat
  nCodes : Nat
  cur : Nat
  remain : Dword
  df : DfCause
  deriving DecidableEq, Repr

/-- What a sink answers to an output write (20_memory.md R66, R67). -/
inductive Answer where
  | ok | err
  deriving DecidableEq, Repr

/-- The answer an output history records (10_state.md R44): the sink's, or none because `rst` abandoned
the write, with the free value that says whether it reached the sink (70_reset_and_hazards.md R211). -/
inductive LogAnswer where
  | given (a : Answer)
  | abandoned (reached : Bool)
  deriving DecidableEq, Repr

/-- An entry of SINKLOG (10_state.md R44). -/
structure SinkEntry where
  bytes : List Byte
  answer : LogAnswer
  deriving DecidableEq, Repr

/-- An entry of OUTLOG (10_state.md R44). -/
structure OutEntry where
  byte : Byte
  answer : LogAnswer
  deriving DecidableEq, Repr

/-- An output write the block issues (20_memory.md R66, R67). -/
inductive OutputWrite where
  | sink (bytes : List Byte)
  | out (byte : Byte)
  deriving DecidableEq, Repr

/-- The command in flight (10_state.md R43): the operands latched at acceptance (30_encoding.md R102),
the output writes of the command that were answered so far, oldest first, and the one that waits for its
answer. -/
structure Latch where
  word : Word
  code : CodeWords
  len : Dword
  answered : List (OutputWrite × Answer)
  outstanding : Option OutputWrite
  deriving DecidableEq, Repr

/-- A bus access of the host: an address, a width in bytes, and the value of a write (00_scope.md R9,
20_memory.md R61). -/
inductive Access where
  | read (addr : Nat) (width : Nat)
  | write (addr : Nat) (width : Nat) (value : Word)
  deriving DecidableEq, Repr

/-- What the host does next: an access, or the WAIT of 30_encoding.md R103. -/
inductive HostOp where
  | access (a : Access)
  | wait
  deriving DecidableEq, Repr

/-- What reached the block from outside: an access the host made, with the value it returned if it was a read of the
window, or `rst` (70_reset_and_hazards.md R211). -/
inductive InputEvent where
  | access (a : Access) (returned : Option Word)
  | rst
  deriving DecidableEq, Repr

/-- Whose move is next (00_scope.md R4); `rst` is the reset input (70_reset_and_hazards.md R211).
`sync` is the schedule in which nothing comes between a command's acceptance and its execution, and a sink
answers as soon as it can (log entry 3). -/
inductive Turn where
  | sync | host | block | packerSink | outSink | rst
  deriving DecidableEq, Repr

/-- The machine. BUSY = 1 exactly when `flight` holds a command (10_state.md R43). -/
structure State where
  /-- CAP, NODE_CAP and BASE; no step changes them (log entry 1). -/
  params : Params
  /-- CODE0..CODE7 (10_state.md R27). -/
  code : CodeWords
  /-- LEN_LO (10_state.md R28). -/
  lenLo : Word
  /-- LEN_HI (10_state.md R28). -/
  lenHi : Word
  /-- CF (10_state.md R42). -/
  cf : CfCause
  /-- BUSY and the latch (10_state.md R43). -/
  flight : Option Latch
  /-- The packer unit (10_state.md R35 to R38). -/
  packer : Packer
  /-- The decoder unit (10_state.md R39 to R41). -/
  decoder : Decoder
  /-- SINKLOG (10_state.md R44). -/
  sinkLog : List SinkEntry
  /-- OUTLOG (10_state.md R44). -/
  outLog : List OutEntry
  /-- The values the host's reads returned, oldest first (42_global.md R173). The model's own field. -/
  readLog : List Word
  /-- The accesses the host made and the `rst`s, oldest first: where a run ends depends on the last of them
  (70_reset_and_hazards.md R223). The model's own field (log entry 2). -/
  inputLog : List InputEvent
  /-- What the host does next, in its program order (00_scope.md R4). The model's own field (log entry 2). -/
  script : List HostOp
  /-- What the packer sink answers next (20_memory.md R66). The model's own field (log entry 2). -/
  sinkAnswers : List Answer
  /-- What the output sink answers next (20_memory.md R67). The model's own field (log entry 2). -/
  outAnswers : List Answer
  /-- Whose moves are next; after the last, `sync` for ever. The model's own field (log entry 3). -/
  turns : List Turn
  /-- How many free values were drawn. The model's own field (log entry 4). -/
  draws : Nat
  deriving DecidableEq, Repr

/-- The packer unit after reset (70_reset_and_hazards.md R210). -/
def Packer.reset : Packer := { buf := [], off := 0, pf := .none, ct := [] }

/-- The decoder unit after reset (70_reset_and_hazards.md R210). -/
def Decoder.reset : Decoder :=
  { node := [], nNodes := 1, nCodes := 0, cur := 0, remain := 0, df := .none }

/-- The machine with the given parameters after power-up: every element at its reset value (10_state.md R22
to R44, 70_reset_and_hazards.md R210), empty histories (R44), and outside agents that do nothing
(log entry 2). -/
def State.powerUp (p : Params) : State :=
  { params := p
    code := CodeWords.zero
    lenLo := 0
    lenHi := 0
    cf := .none
    flight := none
    packer := Packer.reset
    decoder := Decoder.reset
    sinkLog := []
    outLog := []
    readLog := []
    inputLog := []
    script := []
    sinkAnswers := []
    outAnswers := []
    turns := []
    draws := 0 }

/-- The machine right after reset, with the parameters of log entry 1. -/
def State.reset : State := State.powerUp Params.default

end Sys2Proof.Machine
end

