-- ==== Sys2Proof/Machine/Ops.lean ====
section
/-! DEFINITION. The named operations over State that the commands share: the internal RAMs, raising a fault
(60_exceptions.md R184), the progress of a command through its output writes (20_memory.md R66, R67),
completing it (10_state.md R43), and reset (70_reset_and_hazards.md R210, R211). -/

namespace Sys2Proof.Machine

/-! ## The internal RAMs (20_memory.md R60) -/

/-- The canonical form of a RAM: indices strictly rising, no entry equal to what an unlisted index reads as. -/
abbrev Memory.wf {α : Type} (d : α) (m : List (Nat × α)) : Prop :=
  m.Pairwise (fun x y => x.1 < y.1) ∧ ∀ c ∈ m, c.2 ≠ d

/-- Reading a RAM; `d` is what an unlisted index reads as. -/
def Memory.read {α : Type} (d : α) : List (Nat × α) → Nat → α
  | [], _ => d
  | c :: m, a => if c.1 = a then c.2 else Memory.read d m a

/-- Writing a RAM; writing `d` removes the entry, so that the form stays canonical. -/
def Memory.write {α : Type} [DecidableEq α] (d : α) : List (Nat × α) → Nat → α → List (Nat × α)
  | [], a, v => if v = d then [] else [(a, v)]
  | c :: m, a, v =>
    if c.1 < a then c :: Memory.write d m a v
    else if c.1 = a then (if v = d then m else (a, v) :: m)
    else (if v = d then c :: m else (a, v) :: c :: m)

/-- BUF[k] (10_state.md R35). -/
def bufByte (buf : List Host.Cell) (k : Nat) : Byte := Memory.read 0 buf k

/-- BUF[k] <- v. -/
def setBufByte (buf : List Host.Cell) (k : Nat) (v : Byte) : List Host.Cell := Memory.write 0 buf k v

/-- CT[s] (10_state.md R38). -/
def ctEntry (ct : List (Nat × CtEntry)) (s : Byte) : CtEntry := Memory.read CtEntry.empty ct s.toNat

/-- CT[s] <- e. -/
def setCtEntry (ct : List (Nat × CtEntry)) (s : Byte) (e : CtEntry) : List (Nat × CtEntry) :=
  Memory.write CtEntry.empty ct s.toNat e

/-- NODE[n] (10_state.md R39). -/
def nodeAt (node : List (Nat × Node)) (n : Nat) : Node := Memory.read Node.blank node n

/-- NODE[n] <- v. -/
def setNodeAt (node : List (Nat × Node)) (n : Nat) (v : Node) : List (Nat × Node) :=
  Memory.write Node.blank node n v

/-! ## The bits of BUF (20_memory.md R62) -/

/-- The bit of a byte at stream position `j` of the byte: position 7 − j (20_memory.md R62). -/
def byteStreamBit (b : Byte) (j : Nat) : Bool := b.getLsbD (7 - j)

/-- A byte with the bit at its stream position `j` assigned. -/
def setByteStreamBit (b : Byte) (j : Nat) (v : Bool) : Byte :=
  if v then b ||| (1#8 <<< (7 - j)) else b &&& ~~~(1#8 <<< (7 - j))

/-- The bit of BUF at stream position `p`: BUF[p div 8][7 − p mod 8] (10_state.md R35). -/
def bufBit (buf : List Host.Cell) (p : Nat) : Bool := byteStreamBit (bufByte buf (p / 8)) (p % 8)

/-- Assigning the bit of BUF at stream position `p` (40_packer.md R111). -/
def setBufBit (buf : List Host.Cell) (p : Nat) (v : Bool) : List Host.Cell :=
  setBufByte buf (p / 8) (setByteStreamBit (bufByte buf (p / 8)) (p % 8) v)

/-- BUF[0], ..., BUF[n−1]. -/
def bufBytes (buf : List Host.Cell) (n : Nat) : List Byte := (List.range n).map (bufByte buf)

/-! ## Raising a fault: the first cause is kept (60_exceptions.md R184) -/

/-- raise CF(c): only CF may change (60_exceptions.md R181). It ends no command in flight, since it drops an
access or a word that started none (R184). -/
def raiseCf (c : CfCause) (s : State) : State :=
  { s with cf := if s.cf = .none then c else s.cf }

/-- raise PF(c), in the packer unit. -/
def raisePf (c : PfCause) (p : Packer) : Packer :=
  { p with pf := if p.pf = .none then c else p.pf }

/-- raise DF(c), in the decoder unit. -/
def raiseDf (c : DfCause) (d : Decoder) : Decoder :=
  { d with df := if d.df = .none then c else d.df }

/-! ## A command in flight -/

/-- BUSY (10_state.md R43). -/
def State.busy (s : State) : Bool := s.flight.isSome

/-- The latch of a command accepted in `s` (30_encoding.md R102): its word, CODE0..7 and {LEN_HI, LEN_LO}. -/
def newLatch (w : Word) (s : State) : Latch :=
  { word := w, code := s.code, len := s.lenHi ++ s.lenLo, answered := [], outstanding := none }

/-- Acceptance's last action: latch the operands, BUSY <- 1 (30_encoding.md R102). -/
def latchCommand (w : Word) (s : State) : State :=
  { s with flight := some (newLatch w s) }

/-- A command's completion: BUSY <- 0 (10_state.md R43). -/
def complete (s : State) : State := { s with flight := none }

/-- The latch a running command works from; with none in flight, the one that accepting `i` makes. -/
def latchOf (i : Instr) (s : State) : Latch :=
  match s.flight with
  | some l => l
  | none => newLatch (encode i) s

/-- The answers the sinks have given to the command's output writes so far, oldest first. -/
def givenAnswers (s : State) : List Answer :=
  match s.flight with
  | some l => l.answered.map (fun x => x.2)
  | none => []

/-- The command has issued the output write `w` and waits for its answer (20_memory.md R66, R67); its
effects are written at completion only (10_state.md R43), so nothing else changes. -/
def awaitAnswer (i : Instr) (w : OutputWrite) (s : State) : State :=
  { s with flight := some { latchOf i s with outstanding := some w } }

/-- How far a command gets: it runs on, it raised a fault that ends it (60_exceptions.md R184), or it waits
for the answer to an output write. -/
inductive Progress (ρ κ : Type) where
  | running (r : ρ)
  | raised (r : ρ) (c : κ)
  | waiting (w : OutputWrite)
  deriving DecidableEq, Repr

/-- One part of a command after another; a raise or a wait ends the sequence (60_exceptions.md R184). -/
def Progress.andThen {ρ κ : Type} (p : Progress ρ κ) (f : ρ → Progress ρ κ) : Progress ρ κ :=
  match p with
  | .running r => f r
  | .raised r c => .raised r c
  | .waiting w => .waiting w

/-! ## Reset -/

/-- ResetAll (70_reset_and_hazards.md R210): every element of the block at its reset value. The histories are
not retracted (10_state.md R44), and the outside agents are no part of the block. -/
def resetAll (s : State) : State :=
  { State.powerUp s.params with
    sinkLog := s.sinkLog
    outLog := s.outLog
    readLog := s.readLog
    inputLog := s.inputLog
    script := s.script
    sinkAnswers := s.sinkAnswers
    outAnswers := s.outAnswers
    turns := s.turns
    draws := s.draws }

/-- The SinkWrites among output writes and their answers, as entries of SINKLOG. -/
def sinkEntries (ws : List (OutputWrite × Answer)) : List SinkEntry :=
  ws.filterMap (fun x =>
    match x.1 with
    | .sink bytes => some { bytes := bytes, answer := .given x.2 }
    | .out _ => none)

/-- The OutWrites among output writes and their answers, as entries of OUTLOG. -/
def outEntries (ws : List (OutputWrite × Answer)) : List OutEntry :=
  ws.filterMap (fun x =>
    match x.1 with
    | .out byte => some { byte := byte, answer := .given x.2 }
    | .sink _ => none)

/-- The histories when `rst` abandons the command in flight (70_reset_and_hazards.md R211): its answered writes
were issued and stay (10_state.md R44), and whether the one still waiting reached its sink is a free value. -/
def abandonWrites (s : State) : State :=
  match s.flight with
  | none => s
  | some l =>
    match l.outstanding with
    | none =>
      { s with
        sinkLog := s.sinkLog ++ sinkEntries l.answered
        outLog := s.outLog ++ outEntries l.answered }
    | some (.sink bytes) =>
      { s with
        sinkLog := s.sinkLog ++ sinkEntries l.answered ++
          [{ bytes := bytes, answer := .abandoned (Config.freeReached s.draws) }]
        outLog := s.outLog ++ outEntries l.answered
        draws := s.draws + 1 }
    | some (.out byte) =>
      { s with
        sinkLog := s.sinkLog ++ sinkEntries l.answered
        outLog := s.outLog ++ outEntries l.answered ++
          [{ byte := byte, answer := .abandoned (Config.freeReached s.draws) }]
        draws := s.draws + 1 }

/-- The `rst` input: ResetAll at once, and the command in flight abandoned (70_reset_and_hazards.md R211). -/
def assertRst (s : State) : State := resetAll (abandonWrites s)

end Sys2Proof.Machine
end

