-- ==== Sys2Proof/Machine/Operands.lean ====
section
/-! DEFINITION. The operands of a command that come from the latch (30_encoding.md R95,
70_reset_and_hazards.md R217), and the CODE registers as words (10_state.md R27). -/

namespace Sys2Proof.Machine

/-- W[k], which is CODEk (10_state.md R27). -/
def codeWord (c : CodeWords) (k : Nat) : Word :=
  match k with
  | 0 => c.w0
  | 1 => c.w1
  | 2 => c.w2
  | 3 => c.w3
  | 4 => c.w4
  | 5 => c.w5
  | 6 => c.w6
  | _ => c.w7

/-- CODEk <- v (42_global.md R172). -/
def setCodeWord (c : CodeWords) (k : Fin 8) (v : Word) : CodeWords :=
  match k with
  | 0 => { c with w0 := v }
  | 1 => { c with w1 := v }
  | 2 => { c with w2 := v }
  | 3 => { c with w3 := v }
  | 4 => { c with w4 := v }
  | 5 => { c with w5 := v }
  | 6 => { c with w6 := v }
  | 7 => { c with w7 := v }

/-- codebit(W, i) = W[i div 32][31 − i mod 32] (30_encoding.md R95). -/
def codebit (c : CodeWords) (i : Nat) : Bool := (codeWord c (i / 32)).getLsbD (31 - i % 32)

/-- The code bits c_0 ... c_(L−1) (30_encoding.md R95); bits of W from L up are ignored. -/
def codeBits (c : CodeWords) (len : Nat) : List Bool := (List.range len).map (codebit c)

/-- The bits of an input byte in the order D_FEED_BYTE offers them, bit 7 first (41_decoder.md R150). -/
def byteBits (b : Byte) : List Bool := (List.range 8).map (byteStreamBit b)

/-- The code operand W: the latched one, and with no command in flight the one acceptance would latch. -/
def latchedCode (s : State) : CodeWords :=
  match s.flight with
  | some l => l.code
  | none => s.code

/-- The original length n = {LEN_HI, LEN_LO}: the latched one, and with no command in flight the one
acceptance would latch. -/
def latchedLen (s : State) : Dword :=
  match s.flight with
  | some l => l.len
  | none => s.lenHi ++ s.lenLo

end Sys2Proof.Machine
end

