-- ==== Sys2Proof/Machine/Flags.lean ====
section
/-! DEFINITION. The fields of STATUS (10_state.md R24): the numbers of the fault causes (60_exceptions.md
R181 to R183), DONE, BUSY, and the register as one word. -/

namespace Sys2Proof.Machine

/-- The number of a CF cause (60_exceptions.md R181). -/
def cfCode : CfCause → BitVec 4
  | .none => 0#4
  | .badOpcode => 1#4
  | .rsvdNonzero => 2#4
  | .badLen => 3#4
  | .busyViolation => 4#4
  | .badAccess => 5#4

/-- The number of a PF cause (60_exceptions.md R182). -/
def pfCode : PfCause → BitVec 4
  | .none => 0#4
  | .noCode => 1#4
  | .sinkError => 2#4

/-- The number of a DF cause (60_exceptions.md R183). -/
def dfCode : DfCause → BitVec 4
  | .none => 0#4
  | .walkOff => 1#4
  | .trieConflict => 2#4
  | .trieFull => 3#4
  | .tooManyCodes => 4#4
  | .outError => 5#4

/-- DONE, computed and not stored: REMAIN = 0 (10_state.md R24). -/
def State.done (s : State) : Bool := s.decoder.remain == 0

/-- STATUS: {DF, PF, CF, 00, DONE, BUSY}, zero-extended (10_state.md R24, 42_global.md R173). -/
def statusWord (s : State) : Word :=
  0#16 ++ dfCode s.decoder.df ++ pfCode s.packer.pf ++ cfCode s.cf ++ 0#2 ++
    BitVec.ofBool s.done ++ BitVec.ofBool s.busy

end Sys2Proof.Machine
end

