-- ==== Sys2Proof/Machine/Bus.lean ====
section
/-! DEFINITION. The register window and the host's accesses to it (10_state.md R22, 20_memory.md R61, R68,
42_global.md R172, R173), and the acceptance of a command word (30_encoding.md R102). -/

namespace Sys2Proof.Machine

/-- The registers of the window (10_state.md R22). -/
inductive Reg where
  | cmd | status | bpOff | bpCap
  | code (k : Fin 8)
  | lenLo | lenHi | remainLo | remainHi | dCur | dNodes | dCodes | dCap
  deriving DecidableEq, Repr

/-- The offset of a register (10_state.md R22). -/
def regOffset : Reg → Nat
  | .cmd => 0x00
  | .status => 0x04
  | .bpOff => 0x08
  | .bpCap => 0x0C
  | .code k => 0x10 + 4 * k.val
  | .lenLo => 0x30
  | .lenHi => 0x34
  | .remainLo => 0x38
  | .remainHi => 0x3C
  | .dCur => 0x40
  | .dNodes => 0x44
  | .dCodes => 0x48
  | .dCap => 0x4C

/-- Every register of the window. -/
def registers : List Reg :=
  [.cmd, .status, .bpOff, .bpCap,
   .code 0, .code 1, .code 2, .code 3, .code 4, .code 5, .code 6, .code 7,
   .lenLo, .lenHi, .remainLo, .remainHi, .dCur, .dNodes, .dCodes, .dCap]

/-- The register an access of `width` bytes at offset `off` is admitted to (20_memory.md R61): 4 bytes, at the
offset of a register. -/
def registerAt (off width : Nat) : Option Reg :=
  if width = 4 then registers.find? (fun r => regOffset r == off) else none

/-- An address is in the window (10_state.md R22); an access is taken by its first byte (log entry 6). -/
def inWindow (base addr : Nat) : Bool := decide (base ≤ addr) && decide (addr < base + 256)

/-- The value of a register (42_global.md R173). -/
def registerValue (r : Reg) (s : State) : Word :=
  match r with
  | .cmd => 0
  | .status => statusWord s
  | .bpOff => BitVec.ofNat 32 s.packer.off
  | .bpCap => BitVec.ofNat 32 s.params.cap
  | .code k => codeWord s.code k.val
  | .lenLo => s.lenLo
  | .lenHi => s.lenHi
  | .remainLo => s.decoder.remain.extractLsb' 0 32
  | .remainHi => s.decoder.remain.extractLsb' 32 32
  | .dCur => (BitVec.ofNat 9 s.decoder.cur).setWidth 32
  | .dNodes => (BitVec.ofNat 10 s.decoder.nNodes).setWidth 32
  | .dCodes => (BitVec.ofNat 9 s.decoder.nCodes).setWidth 32
  | .dCap => (BitVec.ofNat 10 s.params.nodeCap).setWidth 32

/-- The registers whose value is unspecified while BUSY = 1 (42_global.md R173, 70_reset_and_hazards.md R218). -/
def unspecifiedWhileBusy : Reg → Bool
  | .bpOff => true
  | .remainLo => true
  | .remainHi => true
  | .dCur => true
  | .dNodes => true
  | .dCodes => true
  | .cmd => false
  | .status => false
  | .bpCap => false
  | .code _ => false
  | .lenLo => false
  | .lenHi => false
  | .dCap => false

/-- The bits of a register that are not reserved (10_state.md R30 to R34): the reserved ones always read 0. -/
def registerBits : Reg → Word
  | .dCur => 0x000001FF#32
  | .dNodes => 0x000003FF#32
  | .dCodes => 0x000001FF#32
  | .dCap => 0x000003FF#32
  | .status => 0x0000FFF3#32
  | .cmd => 0#32
  | .bpOff => 0xFFFFFFFF#32
  | .bpCap => 0xFFFFFFFF#32
  | .code _ => 0xFFFFFFFF#32
  | .lenLo => 0xFFFFFFFF#32
  | .lenHi => 0xFFFFFFFF#32
  | .remainLo => 0xFFFFFFFF#32
  | .remainHi => 0xFFFFFFFF#32

/-- A read returns `v` to the host. -/
def returnValue (v : Word) (s : State) : State := { s with readLog := s.readLog ++ [v] }

/-- An admitted read (42_global.md R173). While BUSY = 1 a unit register reads as a fresh free value in its
unreserved bits (93_implementation_defined.md S2, log entry 4); every other read is exact. -/
def readRegister (r : Reg) (s : State) : State :=
  if s.busy = true ∧ unspecifiedWhileBusy r = true then
    { returnValue (Config.freeWord s.draws &&& registerBits r) s with draws := s.draws + 1 }
  else returnValue (registerValue r s) s

/-- The CF cause of a rejected word (30_encoding.md R98, R99, R100). -/
def rejectCause : Reject → CfCause
  | .badOpcode => .badOpcode
  | .rsvdNonzero => .rsvdNonzero
  | .badLen => .badLen

/-- accept(w) (30_encoding.md R102): BUSY first, then the checks of `decode`; a dropped word changes nothing but
CF, an accepted one is latched and BUSY becomes 1. -/
def accept (w : Word) (s : State) : State :=
  if s.busy = true then raiseCf .busyViolation s
  else
    match decode w with
    | .error e => raiseCf (rejectCause e) s
    | .ok _ => latchCommand w s

/-- An admitted write (42_global.md R172). -/
def writeRegister (r : Reg) (v : Word) (s : State) : State :=
  match r with
  | .cmd => accept v s
  | .code k => { s with code := setCodeWord s.code k v }
  | .lenLo => { s with lenLo := v }
  | .lenHi => { s with lenHi := v }
  | .status => raiseCf .badAccess s
  | .bpOff => raiseCf .badAccess s
  | .bpCap => raiseCf .badAccess s
  | .remainLo => raiseCf .badAccess s
  | .remainHi => raiseCf .badAccess s
  | .dCur => raiseCf .badAccess s
  | .dNodes => raiseCf .badAccess s
  | .dCodes => raiseCf .badAccess s
  | .dCap => raiseCf .badAccess s

/-- A read at an offset of the window; a BAD_ACCESS read returns 0 (20_memory.md R68). -/
def readWindow (off width : Nat) (s : State) : State :=
  match registerAt off width with
  | some r => readRegister r s
  | none => returnValue 0 (raiseCf .badAccess s)

/-- A write at an offset of the window; a BAD_ACCESS write is ignored (20_memory.md R68). -/
def writeWindow (off width : Nat) (v : Word) (s : State) : State :=
  match registerAt off width with
  | some r => writeRegister r v s
  | none => raiseCf .badAccess s

/-- An access of the host (00_scope.md R9); one outside the window is not HBPD's (log entry 6). -/
def busAccess (a : Access) (s : State) : State :=
  match a with
  | .read addr width =>
    if inWindow s.params.base addr then readWindow (addr - s.params.base) width s else s
  | .write addr width v =>
    if inWindow s.params.base addr then writeWindow (addr - s.params.base) width v s else s

end Sys2Proof.Machine
end

