-- ==== Sys2Proof/Machine/Decoder.lean ====
section
/-! DEFINITION. The decoder unit's commands (41_decoder.md R140 to R150). A feed's run keeps CUR, REMAIN and the
OutWrites it has made; its effects are written to State at completion (10_state.md R43). -/

namespace Sys2Proof.Machine

/-- child[b] of a node (41_decoder.md R141). -/
def childOf (n : Node) (b : Bool) : Nat := if b then n.child1 else n.child0

/-- child[b] <- m. -/
def setChild (n : Node) (b : Bool) (m : Nat) : Node :=
  if b then { n with child1 := m } else { n with child0 := m }

/-! ## Inserting a code (41_decoder.md R146) -/

/-- Where the walk along a code's existing path ends: in a conflict, or at a node whose child for the next bit is
absent, with the bits still to place. -/
inductive PathEnd where
  | conflict
  | absent (n : Nat) (rest : List Bool)
  deriving DecidableEq, Repr

/-- The walk of D_INSERT along existing nodes (41_decoder.md R146, R145): meeting a leaf, or using up the code's
bits, is a conflict. -/
def walkPath (node : List (Nat × Node)) : Nat → List Bool → PathEnd
  | _, [] => .conflict
  | n, b :: bs =>
    if childOf (nodeAt node n) b = 0 then .absent n (b :: bs)
    else if (nodeAt node (childOf (nodeAt node n) b)).leaf = true then .conflict
    else walkPath node (childOf (nodeAt node n) b) bs

/-- One turn of D_INSERT's allocating loop: slot NNODES becomes a blank node and the child `b` of `n`. -/
def allocChild (n : Nat) (b : Bool) (d : Decoder) : Decoder :=
  { d with
    node := setNodeAt (setNodeAt d.node d.nNodes Node.blank) n
      (setChild (nodeAt (setNodeAt d.node d.nNodes Node.blank) n) b d.nNodes)
    nNodes := d.nNodes + 1 }

/-- D_INSERT's allocating loop from node `n`, with the node it ends at. -/
def allocPath : Nat → List Bool → Decoder → Decoder × Nat
  | n, [], d => (d, n)
  | n, b :: bs, d => allocPath d.nNodes bs (allocChild n b d)

/-- The last two lines of D_INSERT: node `n` becomes the leaf of `sym`, and NCODES <- NCODES + 1. -/
def placeLeaf (sym : Byte) (n : Nat) (d : Decoder) : Decoder :=
  { d with
    node := setNodeAt d.node n { nodeAt d.node n with leaf := true, sym := sym }
    nCodes := d.nCodes + 1 }

/-- D_INSERT's checks and writes (41_decoder.md R146): every check comes before any write. -/
def insertCode (nodeCap : Nat) (sym : Byte) (bits : List Bool) (d : Decoder) : Except DfCause Decoder :=
  if d.nCodes = 256 then .error .tooManyCodes
  else
    match walkPath d.node 0 bits with
    | .conflict => .error .trieConflict
    | .absent n rest =>
      if d.nNodes + rest.length > nodeCap then .error .trieFull
      else .ok (placeLeaf sym (allocPath n rest d).2 (allocPath n rest d).1)

/-! ## Walking the trie (41_decoder.md R148) -/

/-- A feed on its way: CUR, REMAIN, the OutWrites answered in this command, and the answers given to it and not
yet met. -/
structure WalkRun where
  cur : Nat
  remain : Dword
  log : List OutEntry
  answers : List Answer
  deriving DecidableEq, Repr

/-- OutWrite(sym) and what follows it in StepBit (20_memory.md R67, 41_decoder.md R148): on `ok` REMAIN falls and
the walk returns to the root, on `err` CUR and REMAIN stay. -/
def emit (sym : Byte) (r : WalkRun) : Progress WalkRun DfCause :=
  match r.answers with
  | [] => .waiting (.out sym)
  | .ok :: rest =>
    .running { cur := 0, remain := r.remain - 1,
               log := r.log ++ [{ byte := sym, answer := .given .ok }], answers := rest }
  | .err :: rest =>
    .raised { r with log := r.log ++ [{ byte := sym, answer := .given .err }], answers := rest } .outError

/-- StepBit(b) (41_decoder.md R148). -/
def stepBit (node : List (Nat × Node)) (b : Bool) (r : WalkRun) : Progress WalkRun DfCause :=
  if r.remain = 0 then .running r
  else if childOf (nodeAt node r.cur) b = 0 then .raised r .walkOff
  else if (nodeAt node (childOf (nodeAt node r.cur) b)).leaf = true then
    emit (nodeAt node (childOf (nodeAt node r.cur) b)).sym r
  else .running { r with cur := childOf (nodeAt node r.cur) b }

/-- StepBit of each bit in turn, stopping as soon as REMAIN = 0 (41_decoder.md R150). -/
def feedBits (node : List (Nat × Node)) : List Bool → WalkRun → Progress WalkRun DfCause
  | [], r => .running r
  | b :: bs, r => if r.remain = 0 then .running r else (stepBit node b r).andThen (feedBits node bs)

/-- A feed's run at its start. -/
def startWalk (s : State) : WalkRun :=
  { cur := s.decoder.cur, remain := s.decoder.remain, log := [], answers := givenAnswers s }

/-- Writing a run's effects: CUR, REMAIN, and its OutWrites to OUTLOG. -/
def storeWalk (r : WalkRun) (s : State) : State :=
  { s with decoder := { s.decoder with cur := r.cur, remain := r.remain }, outLog := s.outLog ++ r.log }

/-- The end of a feed: its effects written and BUSY <- 0, with DF raised if it raised; or its wait. -/
def settleWalk (i : Instr) (s : State) (p : Progress WalkRun DfCause) : Host.Outcome State Fault Refusal :=
  match p with
  | .running r => .next (complete (storeWalk r s))
  | .raised r c => .next (complete { storeWalk r s with decoder := raiseDf c (storeWalk r s).decoder })
  | .waiting w => .next (awaitAnswer i w s)

/-- Unit blocked (41_decoder.md R140): while DF ≠ 0 the command completes with no effect. -/
def unlessDecoderFault (s : State) (k : Host.Outcome State Fault Refusal) : Host.Outcome State Fault Refusal :=
  if s.decoder.df = .none then k else .next (complete s)

/-! ## The commands -/

/-- D_RESET (41_decoder.md R143): an empty trie, CUR, REMAIN and DF cleared, also while DF ≠ 0. The slots from 1
up become unallocated; the model holds them at zero (93_implementation_defined.md S1, log entry 5). -/
def execDReset (s : State) : Host.Outcome State Fault Refusal :=
  .next (complete { s with decoder := { node := [], nNodes := 1, nCodes := 0, cur := 0, remain := 0, df := .none } })

/-- D_INSERT s, L (41_decoder.md R146): on a fault the trie is unchanged. -/
def execDInsert (sym len : Byte) (s : State) : Host.Outcome State Fault Refusal :=
  unlessDecoderFault s
    (match insertCode s.params.nodeCap sym (codeBits (latchedCode s) len.toNat) s.decoder with
      | .ok d => .next (complete { s with decoder := d })
      | .error c => .next (complete { s with decoder := raiseDf c s.decoder }))

/-- D_START (41_decoder.md R147): REMAIN <- {LEN_HI, LEN_LO}, CUR <- 0. -/
def execDStart (s : State) : Host.Outcome State Fault Refusal :=
  unlessDecoderFault s
    (.next (complete { s with decoder := { s.decoder with remain := latchedLen s, cur := 0 } }))

/-- D_FEED_BIT b (41_decoder.md R149). -/
def execDFeedBit (b : Bool) (s : State) : Host.Outcome State Fault Refusal :=
  unlessDecoderFault s (settleWalk (.dFeedBit b) s (stepBit s.decoder.node b (startWalk s)))

/-- D_FEED_BYTE byte (41_decoder.md R150). -/
def execDFeedByte (byte : Byte) (s : State) : Host.Outcome State Fault Refusal :=
  unlessDecoderFault s
    (settleWalk (.dFeedByte byte) s (feedBits s.decoder.node (byteBits byte) (startWalk s)))

end Sys2Proof.Machine
end

