-- ==== Sys2Proof/Machine/Global.lean ====
section
/-! DEFINITION. The global commands NOP and SOFT_RESET (42_global.md R170, R171). No unit fault blocks them. -/

namespace Sys2Proof.Machine

/-- NOP: no state change but BUSY's return to 0 (42_global.md R170). -/
def execNop (s : State) : Host.Outcome State Fault Refusal :=
  .next (complete s)

/-- SOFT_RESET: ResetAll (42_global.md R171), which leaves BUSY = 0 (70_reset_and_hazards.md R210). DESIGN CHOICE
(log entry 14): a write to CODE0..7, LEN_LO or LEN_HI that the host makes while SOFT_RESET is in flight is erased at
its completion, where R43 and D2 place the command's effects; R217 can be read so that it survives. -/
def execSoftReset (s : State) : Host.Outcome State Fault Refusal :=
  .next (resetAll s)

end Sys2Proof.Machine
end

