-- ==== Sys2Proof/Machine/Packer.lean ====
section
/-! DEFINITION. The packer unit's commands (40_packer.md R110 to R118). A command's run keeps BUF, OFF and the
SinkWrites it has made; its effects are written to State at completion (10_state.md R43). -/

namespace Sys2Proof.Machine

/-- A packer command on its way: BUF, OFF, the SinkWrites answered in this command, and the answers given to it
and not yet met. -/
structure PackRun where
  buf : List Host.Cell
  off : Nat
  log : List SinkEntry
  answers : List Answer
  deriving DecidableEq, Repr

/-- SinkWrite(bytes) (20_memory.md R66): with no answer given yet the command waits, on `ok` it goes on, on `err`
it raises PF(SINK_ERROR) and keeps BUF and OFF (40_packer.md R112, R116). -/
def sinkWrite (bytes : List Byte) (r : PackRun) : Progress PackRun PfCause :=
  match r.answers with
  | [] => .waiting (.sink bytes)
  | .ok :: rest => .running { r with log := r.log ++ [{ bytes := bytes, answer := .given .ok }], answers := rest }
  | .err :: rest =>
    .raised { r with log := r.log ++ [{ bytes := bytes, answer := .given .err }], answers := rest } .sinkError

/-- BUF <- all zero bytes; OFF <- 0. -/
def clearBuf (r : PackRun) : Progress PackRun PfCause := .running { r with buf := [], off := 0 }

/-- FillFlush() (40_packer.md R112): exactly CAP bytes. -/
def fillFlush (cap : Nat) (r : PackRun) : Progress PackRun PfCause :=
  (sinkWrite (bufBytes r.buf cap) r).andThen clearBuf

/-- The first two lines of PackBit(b) (40_packer.md R111): assign the bit at OFF, OFF <- OFF + 1. -/
def placeBit (b : Bool) (r : PackRun) : PackRun :=
  { r with buf := setBufBit r.buf r.off b, off := r.off + 1 }

/-- PackBit(b) (40_packer.md R111). -/
def packBit (cap : Nat) (b : Bool) (r : PackRun) : Progress PackRun PfCause :=
  if (placeBit b r).off = 8 * cap then fillFlush cap (placeBit b r) else .running (placeBit b r)

/-- PackBit of each bit in turn; a raise ends the loop (40_packer.md R114). -/
def packBits (cap : Nat) : List Bool → PackRun → Progress PackRun PfCause
  | [], r => .running r
  | b :: bs, r => (packBit cap b r).andThen (packBits cap bs)

/-- The last byte of a final flush, with the bits at stream positions from OFF mod 8 up forced to 0
(40_packer.md R116). -/
def padMask (off : Nat) (b : Byte) : Byte :=
  if off % 8 = 0 then b else b &&& (0xFF#8 <<< (8 - off % 8))

/-- The bytes of a final flush: ceil(OFF/8) bytes of BUF, the last one padded with zeros (40_packer.md R116). -/
def flushBytes (r : PackRun) : List Byte :=
  (List.range ((r.off + 7) / 8)).map (fun k =>
    if k + 1 = (r.off + 7) / 8 then padMask r.off (bufByte r.buf k) else bufByte r.buf k)

/-- The final flush (40_packer.md R116): no SinkWrite when OFF = 0. -/
def finalFlush (r : PackRun) : Progress PackRun PfCause :=
  if (r.off + 7) / 8 = 0 then clearBuf r else (sinkWrite (flushBytes r) r).andThen clearBuf

/-- A packer command's run at its start. -/
def startPack (s : State) : PackRun :=
  { buf := s.packer.buf, off := s.packer.off, log := [], answers := givenAnswers s }

/-- Writing a run's effects: BUF, OFF, and its SinkWrites to SINKLOG. -/
def storePack (r : PackRun) (s : State) : State :=
  { s with packer := { s.packer with buf := r.buf, off := r.off }, sinkLog := s.sinkLog ++ r.log }

/-- The end of a packer command: its effects written and BUSY <- 0, with PF raised if it raised; or its wait. -/
def settlePack (i : Instr) (s : State) (p : Progress PackRun PfCause) : Host.Outcome State Fault Refusal :=
  match p with
  | .running r => .next (complete (storePack r s))
  | .raised r c => .next (complete { storePack r s with packer := raisePf c (storePack r s).packer })
  | .waiting w => .next (awaitAnswer i w s)

/-- Unit blocked (40_packer.md R110): while PF ≠ 0 the command completes with no effect. -/
def unlessPackerFault (s : State) (k : Host.Outcome State Fault Refusal) : Host.Outcome State Fault Refusal :=
  if s.packer.pf = .none then k else .next (complete s)

/-- P_RESET (40_packer.md R113): BUF, OFF and PF cleared, CT unchanged, also while PF ≠ 0. -/
def execPReset (s : State) : Host.Outcome State Fault Refusal :=
  .next (complete { s with packer := { s.packer with buf := [], off := 0, pf := .none } })

/-- P_PACK_CODE L (40_packer.md R114). -/
def execPPackCode (len : Byte) (s : State) : Host.Outcome State Fault Refusal :=
  unlessPackerFault s
    (settlePack (.pPackCode len) s
      (packBits s.params.cap (codeBits (latchedCode s) len.toNat) (startPack s)))

/-- The run of P_PACK_SYM (40_packer.md R115): NO_CODE before any bit is packed, else the entry's bits. -/
def packEntry (cap : Nat) (e : CtEntry) (r : PackRun) : Progress PackRun PfCause :=
  if e.len = 0 then .raised r .noCode else packBits cap (codeBits e.bits e.len.toNat) r

/-- P_PACK_SYM s (40_packer.md R115). -/
def execPPackSym (sym : Byte) (s : State) : Host.Outcome State Fault Refusal :=
  unlessPackerFault s
    (settlePack (.pPackSym sym) s
      (packEntry s.params.cap (ctEntry s.packer.ct sym) (startPack s)))

/-- P_FLUSH (40_packer.md R116). -/
def execPFlush (s : State) : Host.Outcome State Fault Refusal :=
  unlessPackerFault s (settlePack .pFlush s (finalFlush (startPack s)))

/-- CT_WRITE s, L (40_packer.md R117): the entry becomes (L, W), all 256 bits of W stored. -/
def execCtWrite (sym len : Byte) (s : State) : Host.Outcome State Fault Refusal :=
  unlessPackerFault s
    (.next (complete
      { s with packer := { s.packer with
          ct := setCtEntry s.packer.ct sym { len := len, bits := latchedCode s } } }))

/-- CT_CLEAR (40_packer.md R118): every entry becomes {len 0, bits 0}. -/
def execCtClear (s : State) : Host.Outcome State Fault Refusal :=
  unlessPackerFault s (.next (complete { s with packer := { s.packer with ct := [] } }))

end Sys2Proof.Machine
end

