-- ==== Sys2Proof/Machine/Dispatch.lean ====
section
/-! DEFINITION. The meaning of each command: the block executes an accepted command (30_encoding.md R102). -/

namespace Sys2Proof.Machine

def exec (i : Instr) (s : State) : Host.Outcome State Fault Refusal :=
  match i with
  -- 42_global.md
  | .nop => Sys2Proof.Machine.execNop s
  | .softReset => Sys2Proof.Machine.execSoftReset s
  -- 40_packer.md
  | .pReset => Sys2Proof.Machine.execPReset s
  | .pPackCode len => Sys2Proof.Machine.execPPackCode len s
  | .pPackSym sym => Sys2Proof.Machine.execPPackSym sym s
  | .pFlush => Sys2Proof.Machine.execPFlush s
  | .ctWrite sym len => Sys2Proof.Machine.execCtWrite sym len s
  | .ctClear => Sys2Proof.Machine.execCtClear s
  -- 41_decoder.md
  | .dReset => Sys2Proof.Machine.execDReset s
  | .dInsert sym len => Sys2Proof.Machine.execDInsert sym len s
  | .dStart => Sys2Proof.Machine.execDStart s
  | .dFeedBit b => Sys2Proof.Machine.execDFeedBit b s
  | .dFeedByte byte => Sys2Proof.Machine.execDFeedByte byte s

end Sys2Proof.Machine
end

