-- ==== Sys2Proof/Machine/Agents.lean ====
section
/-! DEFINITION. The steps of the four agents of 00_scope.md R4 and of the `rst` input (70_reset_and_hazards.md R211),
and the schedule that says which one comes next (log entry 3). -/

namespace Sys2Proof.Machine

/-- The bus address of a register. -/
def regAddress (p : Params) (r : Reg) : Nat := p.base + regOffset r

/-- The host makes an access, which is recorded with the value it returned (log entry 2). -/
def hostAccess (a : Access) (s : State) : State :=
  { busAccess a s with
    inputLog := s.inputLog ++ [.access a (busAccess a s).readLog[s.readLog.length]?] }

/-- The host's next access. WAIT reads STATUS and is done once it read BUSY = 0 (30_encoding.md R103, R216). -/
def hostTurn (s : State) : State :=
  match s.script with
  | [] => s
  | .access a :: rest => hostAccess a { s with script := rest }
  | .wait :: rest =>
    hostAccess (.read (regAddress s.params .status) 4)
      { s with script := if s.busy then .wait :: rest else rest }

/-- The `rst` input is asserted, which is recorded (70_reset_and_hazards.md R211, log entry 2). -/
def rstTurn (s : State) : State := assertRst { s with inputLog := s.inputLog ++ [.rst] }

/-- The block executes the command in flight (30_encoding.md R102); it waits while an output write of the command
is not answered (10_state.md R43), and is idle with no command in flight (60_exceptions.md R196). -/
def blockTurn (s : State) : Host.Outcome State Fault Refusal :=
  match s.flight with
  | none => .next s
  | some l =>
    match l.outstanding with
    | some _ => .next s
    | none =>
      match decode l.word with
      | .ok i => exec i s
      | .error _ => .fault .latchedWordIsNoCommand

/-- The outstanding write of the command in flight has got the answer `a`. -/
def answerWrite (l : Latch) (w : OutputWrite) (a : Answer) (s : State) : State :=
  { s with flight := some { l with answered := l.answered ++ [(w, a)], outstanding := none } }

/-- The packer sink answers the SinkWrite that waits, if there is one and it has an answer (20_memory.md R66). -/
def packerSinkTurn (s : State) : State :=
  match s.flight, s.sinkAnswers with
  | some l, a :: rest =>
    match l.outstanding with
    | some (.sink bytes) => answerWrite l (.sink bytes) a { s with sinkAnswers := rest }
    | some (.out _) => s
    | none => s
  | _, _ => s

/-- The output sink answers the OutWrite that waits, if there is one and it has an answer (20_memory.md R67). -/
def outSinkTurn (s : State) : State :=
  match s.flight, s.outAnswers with
  | some l, a :: rest =>
    match l.outstanding with
    | some (.out byte) => answerWrite l (.out byte) a { s with outAnswers := rest }
    | some (.sink _) => s
    | none => s
  | _, _ => s

/-- The synchronous schedule (log entry 3): the host moves when the block is idle, and a command it gets accepted
is taken up at once; a sink answers as soon as it can; while a sink gives no answer the host moves. -/
def syncTurn (s : State) : Host.Outcome State Fault Refusal :=
  match s.flight with
  | none => blockTurn (hostTurn s)
  | some l =>
    match l.outstanding with
    | none => blockTurn s
    | some (.sink _) => .next (if s.sinkAnswers = [] then hostTurn s else packerSinkTurn s)
    | some (.out _) => .next (if s.outAnswers = [] then hostTurn s else outSinkTurn s)

/-- The move of one agent. -/
def takeTurn (t : Turn) (s : State) : Host.Outcome State Fault Refusal :=
  match t with
  | .sync => syncTurn s
  | .host => .next (hostTurn s)
  | .block => blockTurn s
  | .packerSink => .next (packerSinkTurn s)
  | .outSink => .next (outSinkTurn s)
  | .rst => .next (rstTurn s)

/-- The next move of the schedule. -/
def nextTurn (s : State) : Host.Outcome State Fault Refusal :=
  match s.turns with
  | [] => takeTurn .sync s
  | t :: rest => takeTurn t { s with turns := rest }

/-- The machine with the command word `w` as the host's next CMD write and nothing between it and the block's
execution of it: the block idle, the host's next access the write, the next turn `sync` (log entry 2). -/
def placeWord (w : Word) (s : State) : State :=
  { s with
    flight := none
    script := .access (.write (regAddress s.params .cmd) 4 w) :: s.script
    turns := .sync :: s.turns }

end Sys2Proof.Machine
end

