-- ==== Sys2Proof/Machine/Step.lean ====
section
/-! DEFINITION. One step of the machine, and the placing of a command word where the next step takes it. -/

namespace Sys2Proof.Machine

/-- One step: the next move of the schedule (00_scope.md R4). -/
def step (s : State) : Host.Outcome State Fault Refusal := nextTurn s

/-- `s` with a word of spec/opcode_table.json placed so that the next step runs it (log entry 2). -/
def State.withFetchWord (s : State) (nbits w : Nat) : State := placeWord (tableWord nbits w) s

end Sys2Proof.Machine
end

