-- ==== Sys2Proof/Machine/Script.lean ====
section
/-! DEFINITION. Host programs: the statements of the command-script syntax (30_encoding.md R103), the exact
expansions of its pseudo-instructions (R104), and the command sequences with which a host compresses and
decompresses (70_reset_and_hazards.md R213, R214), as lists of what the host does. A code's bits are a list with
c_0 first. -/

namespace Sys2Proof.Machine

/-- `WR <reg>, <imm32>` (30_encoding.md R103). -/
def scriptWr (p : Params) (r : Reg) (v : Word) : HostOp := .access (.write (regAddress p r) 4 v)

/-- `RD <reg>` (30_encoding.md R103). -/
def scriptRd (p : Params) (r : Reg) : HostOp := .access (.read (regAddress p r) 4)

/-- `<mnemonic> [operands]`: WAIT, then WR CMD of the command word (30_encoding.md R103). -/
def scriptCommand (p : Params) (i : Instr) : List HostOp := [.wait, scriptWr p .cmd (encode i)]

/-- v_k of LDCODE: v_k[31 − j] = c_(32k + j) where 32k + j < L, and 0 elsewhere (30_encoding.md R104). -/
def loadWord (bits : List Bool) (k : Nat) : Word :=
  (List.range 32).foldl (fun v j => if bits.getD (32 * k + j) false then v ||| (1#32 <<< (31 - j)) else v) 0

/-- `LDCODE <L>, '<bits>'`: WR CODEk for k = 0 .. ceil(L/32) − 1 (30_encoding.md R104). -/
def scriptLdcode (p : Params) (bits : List Bool) : List HostOp :=
  ((List.finRange 8).filter (fun k => 32 * k.val < bits.length)).map
    (fun k => scriptWr p (.code k) (loadWord bits k.val))

/-- The LEN field of a code. -/
def codeLen (bits : List Bool) : Byte := BitVec.ofNat 8 bits.length

/-- `PACKC <L>, '<bits>'` (30_encoding.md R104). -/
def scriptPackc (p : Params) (bits : List Bool) : List HostOp :=
  scriptLdcode p bits ++ scriptCommand p (.pPackCode (codeLen bits))

/-- `CTW <s>, <L>, '<bits>'` (30_encoding.md R104). -/
def scriptCtw (p : Params) (sym : Byte) (bits : List Bool) : List HostOp :=
  scriptLdcode p bits ++ scriptCommand p (.ctWrite sym (codeLen bits))

/-- `INS <s>, <L>, '<bits>'` (30_encoding.md R104). -/
def scriptIns (p : Params) (sym : Byte) (bits : List Bool) : List HostOp :=
  scriptLdcode p bits ++ scriptCommand p (.dInsert sym (codeLen bits))

/-- `START <n>` (30_encoding.md R104). -/
def scriptStart (p : Params) (n : Dword) : List HostOp :=
  scriptWr p .lenLo (n.extractLsb' 0 32) :: scriptWr p .lenHi (n.extractLsb' 32 32) :: scriptCommand p .dStart

/-- WAIT, then a read of STATUS: the check of a sequence of commands (70_reset_and_hazards.md R213 step 8, R214). -/
def scriptCheck (p : Params) : List HostOp := [.wait, scriptRd p .status]

/-- The compression sequence from step 4 on (70_reset_and_hazards.md R213), with SOFT_RESET for step 4. With an empty
source no command is issued (R215). -/
def scriptCompress (p : Params) (table : List (Byte × List Bool)) (source : List Byte) : List HostOp :=
  if source = [] then []
  else
    scriptCommand p .softReset ++ table.flatMap (fun e => scriptCtw p e.1 e.2) ++
      source.flatMap (fun x => scriptCommand p (.pPackSym x)) ++ scriptCommand p .pFlush ++ scriptCheck p

/-- The decompression sequence from step 2 on (70_reset_and_hazards.md R214), with D_RESET for step 3. With N = 0 the
block is not used (step 2). STATUS is read after every INS, where step 4 reports a DF, after every byte (step 6), and
once more at the end, where steps 7 and 8 check DONE, DF and CF, also when the source has no byte. A host stops at the
first DF ≠ 0 and at DONE = 1; this one goes on, which R140 and R148 make a sequence of commands with no effect. -/
def scriptDecompress (p : Params) (table : List (Byte × List Bool)) (n : Dword) (source : List Byte) : List HostOp :=
  if table = [] then []
  else
    scriptCommand p .dReset ++ table.flatMap (fun e => scriptIns p e.1 e.2 ++ scriptCheck p) ++ scriptStart p n ++
      source.flatMap (fun v => scriptCommand p (.dFeedByte v) ++ scriptCheck p) ++ scriptCheck p

/-- R213 step 8, on the STATUS word read there: PF = 0 and CF = 0. -/
def compressionValid (status : Word) : Bool :=
  status.extractLsb' 8 4 == 0 && status.extractLsb' 4 4 == 0

/-- R214 step 4, on the STATUS word read after an INS: DF ≠ 0 is a corrupt archive. -/
def insertFailed (status : Word) : Bool := status.extractLsb' 12 4 != 0

/-- R214 step 6, on the STATUS word read after a byte: the host feeds no more. -/
def feedingStops (status : Word) : Bool := status.getLsbD 1 || status.extractLsb' 12 4 != 0

/-- R214 step 7, on the STATUS word read after the last byte of the source: a truncated bitstream. -/
def sourceTruncated (status : Word) : Bool := !status.getLsbD 1

/-- R214 step 8, on the STATUS word read there: DONE = 1, DF = 0 and CF = 0. -/
def decompressionValid (status : Word) : Bool :=
  status.getLsbD 1 && status.extractLsb' 12 4 == 0 && status.extractLsb' 4 4 == 0

end Sys2Proof.Machine
end

