-- ==== Sys2Proof/Safety.lean ====
section
/-! DEFINITION. The terms claims are stated in: the invariants of the two units (40_packer.md R120, 41_decoder.md
R142, R152), the bits a stream has taken (40_packer.md R121), the codes a trie holds (41_decoder.md R142, R145), and
the success of a run (70_reset_and_hazards.md R223). -/

namespace Sys2Proof.Safety

open Sys2Proof.Machine

/-! ## The packed stream -/

/-- The bytes of the SinkWrites that were answered `ok`, in order: the bytes of a run's result
(70_reset_and_hazards.md R223). -/
def sunkBytes (log : List SinkEntry) : List Byte :=
  log.flatMap (fun e => if e.answer = .given .ok then e.bytes else [])

/-- The bytes of the OutWrites that were answered `ok`, in order. -/
def emittedBytes (log : List OutEntry) : List Byte :=
  log.flatMap (fun e => if e.answer = .given .ok then [e.byte] else [])

/-- The bits of a byte sequence in stream order (20_memory.md R62). -/
def streamBits (bytes : List Byte) : List Bool := bytes.flatMap byteBits

/-- The first `n` bits of BUF in stream order (10_state.md R35). -/
def heldBits (buf : List Host.Cell) (n : Nat) : List Bool := (List.range n).map (bufBit buf)

/-- Every bit the packer has taken: those that reached the sink, then those BUF holds. -/
def takenBits (log : List SinkEntry) (buf : List Host.Cell) (off : Nat) : List Bool :=
  streamBits (sunkBytes log) ++ heldBits buf off

/-- `bytes` is pack(B): the bytes of B in stream order, the last one zero-padded (40_packer.md R121). -/
def IsPackOf (bits : List Bool) (bytes : List Byte) : Prop :=
  bytes.length = (bits.length + 7) / 8 ∧
    streamBits bytes = bits ++ List.replicate (8 * bytes.length - bits.length) false

/-- A stream of the packer (40_packer.md R121): from a stream start the bits of one code after another, then the final
flush, with the given answers to its SinkWrites. -/
def packStream (cap : Nat) (codes : List (List Bool)) (answers : List Answer) : Progress PackRun PfCause :=
  (codes.foldl (fun (p : Progress PackRun PfCause) bits => p.andThen (packBits cap bits))
    (.running { buf := [], off := 0, log := [], answers := answers })).andThen finalFlush

/-- A stream of symbols packed through the code table (40_packer.md R115, 70_reset_and_hazards.md R213 steps 6, 7). -/
def packSymbols (cap : Nat) (ct : List (Nat × CtEntry)) (syms : List Byte) (answers : List Answer) :
    Progress PackRun PfCause :=
  (syms.foldl (fun (p : Progress PackRun PfCause) x => p.andThen (packEntry cap (ctEntry ct x)))
    (.running { buf := [], off := 0, log := [], answers := answers })).andThen finalFlush

/-- A walk from the root with `n` symbols to emit (41_decoder.md R147). -/
def startedWalk (n : Nat) (answers : List Answer) : WalkRun :=
  { cur := 0, remain := BitVec.ofNat 64 n, log := [], answers := answers }

/-! ## The trie -/

/-- The node that a path of bits leads to from node `n`, if every node of it exists (41_decoder.md R145). -/
def followPath (node : List (Nat × Node)) : Nat → List Bool → Option Nat
  | n, [] => some n
  | n, b :: bs => if childOf (nodeAt node n) b = 0 then none else followPath node (childOf (nodeAt node n) b) bs

/-- The symbol of the code `bits`, if the trie holds that code: its path ends at a leaf (41_decoder.md R142 (e)). -/
def codeSymbol (node : List (Nat × Node)) (bits : List Bool) : Option Byte :=
  match followPath node 0 bits with
  | none => none
  | some n => if (nodeAt node n).leaf = true then some (nodeAt node n).sym else none

/-- How many bits of a code lie on existing nodes (41_decoder.md R146, the value of i after the loop). -/
def sharedLength (node : List (Nat × Node)) : Nat → List Bool → Nat
  | _, [] => 0
  | n, b :: bs =>
    if childOf (nodeAt node n) b = 0 then 0 else sharedLength node (childOf (nodeAt node n) b) bs + 1

/-- A code of the trie is a prefix of, equal to, or an extension of `bits` (41_decoder.md R146, D14). -/
def Conflicts (node : List (Nat × Node)) (bits : List Bool) : Prop :=
  ∃ c, (codeSymbol node c).isSome = true ∧ (c <+: bits ∨ bits <+: c)

/-- The number of leaves among the allocated nodes. -/
def leafCount (d : Decoder) : Nat := ((List.range d.nNodes).filter (fun n => (nodeAt d.node n).leaf)).length

/-! ## Invariants -/

/-- What holds of the packer unit: R36 and R120 of 40_packer.md, the canonical form of BUF and CT, and their
index ranges (10_state.md R35, R38). -/
structure PackerInv (cap : Nat) (p : Packer) : Prop where
  bufWf : Memory.wf (0 : Byte) p.buf
  bufRange : ∀ c ∈ p.buf, c.1 < cap
  ctWf : Memory.wf CtEntry.empty p.ct
  ctRange : ∀ c ∈ p.ct, c.1 < 256
  offRange : p.off ≤ 8 * cap
  offFull : p.off = 8 * cap → p.pf = .sinkError
  clearTail : ∀ q, p.off ≤ q → q < 8 * cap → bufBit p.buf q = false

/-- What holds of the trie: R142 (a) to (c) and the count of (d), the ranges of 10_state.md R40, the canonical form
of NODE, and that a child's index is above its parent's, since D_INSERT allocates upwards (41_decoder.md R146). -/
structure TrieInv (nodeCap : Nat) (d : Decoder) : Prop where
  nodeWf : Memory.wf Node.blank d.node
  nodeRange : ∀ c ∈ d.node, c.1 < d.nNodes
  nodesPos : 1 ≤ d.nNodes
  nodesCap : d.nNodes ≤ nodeCap
  codesCap : d.nCodes ≤ 256
  childRange : ∀ n b, n < d.nNodes → childOf (nodeAt d.node n) b ≠ 0 →
    n < childOf (nodeAt d.node n) b ∧ childOf (nodeAt d.node n) b < d.nNodes
  parent : ∀ m, 1 ≤ m → m < d.nNodes → ∃! x : Nat × Bool, x.1 < d.nNodes ∧ childOf (nodeAt d.node x.1) x.2 = m
  rootInner : (nodeAt d.node 0).leaf = false
  leafIff : ∀ n, 1 ≤ n → n < d.nNodes →
    ((nodeAt d.node n).leaf = true ↔ (nodeAt d.node n).child0 = 0 ∧ (nodeAt d.node n).child1 = 0)
  leafCount : leafCount d = d.nCodes

/-- What holds of the walk (41_decoder.md R152 (a), (b)). -/
structure WalkInv (d : Decoder) : Prop where
  curRange : d.cur < d.nNodes
  curInner : (nodeAt d.node d.cur).leaf = false
  curRoot : d.remain = 0 → d.cur = 0

/-- Only a command is ever latched (30_encoding.md R102). -/
def LatchInv (s : State) : Prop :=
  ∀ l, s.flight = some l → ∃ i, decode l.word = .ok i

/-- The invariant of the machine. -/
structure Inv (s : State) : Prop where
  params : s.params.wf
  packer : PackerInv s.params.cap s.packer
  trie : TrieInv s.params.nodeCap s.decoder
  walk : WalkInv s.decoder
  latch : LatchInv s

/-- Every node is at depth at most 255 (41_decoder.md R144). -/
def DepthInv (node : List (Nat × Node)) : Prop :=
  ∀ bits n, followPath node 0 bits = some n → bits.length ≤ 255

/-! ## What a command leaves -/

/-- The block is as ResetAll leaves it, with the parameters of `p`: the table of 70_reset_and_hazards.md R210. The
slots of NODE from 1 up are unspecified there, and nothing is said of them. -/
structure IsResetBlock (p : Params) (t : State) : Prop where
  params : t.params = p
  code : ∀ k, codeWord t.code k = 0
  lenLo : t.lenLo = 0
  lenHi : t.lenHi = 0
  cf : t.cf = .none
  pf : t.packer.pf = .none
  df : t.decoder.df = .none
  busy : t.flight = none
  buf : ∀ k, bufByte t.packer.buf k = 0
  off : t.packer.off = 0
  ct : ∀ x, ctEntry t.packer.ct x = { len := 0, bits := CodeWords.zero }
  root : nodeAt t.decoder.node 0 = { child0 := 0, child1 := 0, leaf := false, sym := 0 }
  nNodes : t.decoder.nNodes = 1
  nCodes : t.decoder.nCodes = 0
  cur : t.decoder.cur = 0
  remain : t.decoder.remain = 0
  status : statusWord t = 0x00000002#32

/-- `t` is `s` with `bits` packed, every SinkWrite answered `ok` (40_packer.md R114, R115, R121): OFF, the number
of fill flushes of CAP bytes each, the bits taken, and nothing else changed. -/
structure PacksBits (bits : List Bool) (s t : State) : Prop where
  off : t.packer.off = (s.packer.off + bits.length) % (8 * s.params.cap)
  writes : ∃ log, t.sinkLog = s.sinkLog ++ log ∧
    log.length = (s.packer.off + bits.length) / (8 * s.params.cap) ∧
    ∀ e ∈ log, e.bytes.length = s.params.cap ∧ e.answer = .given .ok
  taken : takenBits t.sinkLog t.packer.buf t.packer.off =
    takenBits s.sinkLog s.packer.buf s.packer.off ++ bits
  frame : t = { s with
    flight := none
    sinkLog := t.sinkLog
    packer := { s.packer with buf := t.packer.buf, off := t.packer.off } }

/-- The accesses of a host program one after another; WAIT is left out. -/
def doAccesses (ops : List HostOp) (s : State) : State :=
  ops.foldl (fun t op => match op with | .access a => busAccess a t | .wait => t) s

/-- D_FEED_BIT of each bit in turn, each a command of its own that meets the answers the earlier ones left
(41_decoder.md R150); none when one of them has to wait for an answer that `l` does not hold. -/
def feedOneByOne : Latch → List Bool → State → Option State
  | _, [], s => some (complete s)
  | l, b :: bs, s =>
    match exec (.dFeedBit b) { s with flight := some l } with
    | .next t =>
      if t.flight = none then
        feedOneByOne { l with answered := l.answered.drop (t.outLog.length - s.outLog.length) } bs t
      else none
    | .fault _ => none
    | .refused _ => none

/-! ## The end of a run (70_reset_and_hazards.md R223) -/

/-- An access presents a command word (10_state.md R23): a 4-byte write to CMD. -/
def isCommandAccess (p : Params) (a : Access) : Bool :=
  match a with
  | .write addr width _ => decide (addr = regAddress p .cmd ∧ width = 4)
  | .read _ _ => false

/-- The host issues no command any more; reads and staging writes may be left. -/
def noCommandLeft (p : Params) (ops : List HostOp) : Bool :=
  ops.all (fun op =>
    match op with
    | .access a => !isCommandAccess p a
    | .wait => true)

/-- An event is a read of STATUS that returned BUSY = 0. -/
def readsIdle (p : Params) (e : InputEvent) : Bool :=
  match e with
  | .access (.read addr width) (some w) => decide (addr = regAddress p .status ∧ width = 4) && !w.getLsbD 0
  | .access (.read _ _) none => false
  | .access (.write _ _ _) _ => false
  | .rst => false

/-- An event after which the host has to read STATUS again: a command word, or `rst` (log entry 15). -/
def needsStatus (p : Params) (e : InputEvent) : Bool :=
  match e with
  | .access a _ => isCommandAccess p a
  | .rst => true

/-- The host has read STATUS with BUSY = 0 since its last command; what else it read or staged since does not matter. -/
def statusConfirmed (s : State) : Bool :=
  s.inputLog.foldl (fun read e => !needsStatus s.params e && (read || readsIdle s.params e)) false

/-- A run ends here: the host has issued its last command, and read STATUS with BUSY = 0 after it. -/
def runEnded (s : State) : Bool :=
  noCommandLeft s.params s.script && !s.busy && statusConfirmed s

/-- The command whose word an event wrote to CMD, if it did. -/
def commandWritten (p : Params) (e : InputEvent) : Option Instr :=
  match e with
  | .access (.write addr width w) _ =>
    if isCommandAccess p (.write addr width w) then (decode w).toOption else none
  | .access (.read _ _) _ => none
  | .rst => none

/-- The walk is one that D_START began: D_START is the last of the events D_START, D_RESET, SOFT_RESET and `rst`
(41_decoder.md R143, R147, log entry 15). -/
def decodeStarted (s : State) : Bool :=
  s.inputLog.foldl
    (fun started e =>
      if e = .rst then false
      else if commandWritten s.params e = some .dStart then true
      else if commandWritten s.params e = some .dReset ∨ commandWritten s.params e = some .softReset then false
      else started)
    false

/-- A run ended here successfully: it ended, and no cause is recorded; a decode run also needs its D_START and DONE. -/
def runSucceeded (s : State) (decodeRun : Bool) : Bool :=
  runEnded s && s.cf == .none && s.packer.pf == .none && s.decoder.df == .none &&
    (!decodeRun || (decodeStarted s && s.done))

/-- The bytes of the result of a run from `s` to `t`: those of its SinkWrites and OutWrites answered `ok`. -/
def runBytes (s t : State) : List Byte × List Byte :=
  (sunkBytes (t.sinkLog.drop s.sinkLog.length), emittedBytes (t.outLog.drop s.outLog.length))

/-- SINKLOG as 10_state.md R44 gives it while a command is in flight: with the writes of that command. -/
def sinkWritesSoFar (s : State) : List SinkEntry :=
  match s.flight with
  | none => s.sinkLog
  | some l => s.sinkLog ++ sinkEntries l.answered

/-- OUTLOG as 10_state.md R44 gives it while a command is in flight: with the writes of that command. -/
def outWritesSoFar (s : State) : List OutEntry :=
  match s.flight with
  | none => s.outLog
  | some l => s.outLog ++ outEntries l.answered

end Sys2Proof.Safety
end

