-- ==== Sys2Proof/Certificates/Slice0/Obligations.lean ====
section
/-! DEFINITION. The statements about HBPD, made from the numbered rules of spec/. -/

open Sys2Proof Sys2Proof.Machine Sys2Proof.Safety

/-! ## Command words -/

/-- R95, R96, R97: decoding the word of a well-formed command gives the command with every operand. -/
def Obligations.DecodeOfEncodeIsTheCommand : Prop :=
  ∀ i : Instr, i.wellFormed = true → decode (encode i) = .ok i

/-- R96, R97, R100: a word that decodes is the word of the well-formed command it decodes to, so no bit of it is
dropped and no two words are one command. -/
def Obligations.EncodeOfDecodeIsTheWord : Prop :=
  ∀ (w : Word) (i : Instr), decode w = .ok i → i.wellFormed = true ∧ encode i = w

/-- R97: no two rows match the same word. -/
def Obligations.NoWordMatchesTwoRows : Prop :=
  ∀ (w : Word) (r q : Opcode),
    w &&& opcodeMask r = opcodeMatch r → w &&& opcodeMask q = opcodeMatch q → r = q

/-- Command words of 95_test_vectors.md and of R96 decode to the commands they stand for there. -/
def Obligations.ListedWordsDecode : Prop :=
  decode 0x00000000#32 = .ok .nop ∧
  decode 0x00000001#32 = .ok .softReset ∧
  decode 0x00010011#32 = .ok (.pPackCode 1) ∧
  decode 0x00FF0011#32 = .ok (.pPackCode 255) ∧
  decode 0x00004112#32 = .ok (.pPackSym 0x41) ∧
  decode 0x00014114#32 = .ok (.ctWrite 0x41 1) ∧
  decode 0x00FF0721#32 = .ok (.dInsert 0x07 255) ∧
  decode 0x00000123#32 = .ok (.dFeedBit true) ∧
  decode 0x0000E024#32 = .ok (.dFeedByte 0xE0)

/-- R98, R99, R100, in the order of R102: an idle block drops an illegal word with the first cause that applies and
no other change, and latches every other word with CODE0..7 and {LEN_HI, LEN_LO}. -/
def Obligations.IllegalWordsRaiseTheirCause : Prop :=
  ∀ (w : Word) (s : State), s.flight = none →
    (w.extractLsb' 24 8 ≠ 0 →
      accept w s = { s with cf := if s.cf = .none then .rsvdNonzero else s.cf }) ∧
    (w.extractLsb' 24 8 = 0 → (∀ r, opcodeByte r ≠ w.extractLsb' 0 8) →
      accept w s = { s with cf := if s.cf = .none then .badOpcode else s.cf }) ∧
    (∀ r, w.extractLsb' 24 8 = 0 → opcodeByte r = w.extractLsb' 0 8 →
      (w &&& opcodeMask r ≠ opcodeMatch r →
        accept w s = { s with cf := if s.cf = .none then .rsvdNonzero else s.cf }) ∧
      (w &&& opcodeMask r = opcodeMatch r → r = .pPackCode ∨ r = .ctWrite ∨ r = .dInsert →
        w.extractLsb' 16 8 = 0 →
        accept w s = { s with cf := if s.cf = .none then .badLen else s.cf }) ∧
      (w &&& opcodeMask r = opcodeMatch r →
        (r = .pPackCode ∨ r = .ctWrite ∨ r = .dInsert → w.extractLsb' 16 8 ≠ 0) →
        accept w s = { s with
          flight := some
            { word := w, code := s.code, len := s.lenHi ++ s.lenLo, answered := [], outstanding := none } }))

/-- R102 (its BUSY check), R216: a CMD write while BUSY = 1 is dropped whatever its word, and changes nothing but CF. -/
def Obligations.CommandWriteWhileBusyIsDropped : Prop :=
  ∀ (w : Word) (s : State), s.flight ≠ none →
    busAccess (.write s.params.base 4 w) s =
      { s with cf := if s.cf = .none then .busyViolation else s.cf }

/-! ## The register window -/

/-- R173: what each register returns. The constants, CMD, STATUS and the staging registers are exact in every state;
the others are exact while BUSY = 0, and while BUSY = 1 some value is returned and only the count of drawn values
moves on. A BAD_ACCESS read returns 0 and raises CF(BAD_ACCESS). -/
def Obligations.ReadsReturnTheRegisters : Prop :=
  ∀ s : State,
    let rd := fun off => busAccess (.read (s.params.base + off) 4) s
    let gives := fun v => { s with readLog := s.readLog ++ [v] }
    rd 0x00 = gives 0 ∧
    rd 0x04 = gives (statusWord s) ∧
    rd 0x0C = gives (BitVec.ofNat 32 s.params.cap) ∧
    (∀ k, k < 8 → rd (0x10 + 4 * k) = gives (codeWord s.code k)) ∧
    rd 0x30 = gives s.lenLo ∧
    rd 0x34 = gives s.lenHi ∧
    rd 0x4C = gives ((BitVec.ofNat 10 s.params.nodeCap).setWidth 32) ∧
    (s.flight = none →
      rd 0x08 = gives (BitVec.ofNat 32 s.packer.off) ∧
      rd 0x38 = gives (s.decoder.remain.extractLsb' 0 32) ∧
      rd 0x3C = gives (s.decoder.remain.extractLsb' 32 32) ∧
      rd 0x40 = gives ((BitVec.ofNat 9 s.decoder.cur).setWidth 32) ∧
      rd 0x44 = gives ((BitVec.ofNat 10 s.decoder.nNodes).setWidth 32) ∧
      rd 0x48 = gives ((BitVec.ofNat 9 s.decoder.nCodes).setWidth 32)) ∧
    (s.flight ≠ none → ∀ off, off ∈ [0x08, 0x38, 0x3C, 0x40, 0x44, 0x48] →
      ∃ v, rd off = { s with readLog := s.readLog ++ [v], draws := s.draws + 1 }) ∧
    (∀ off, 0x50 ≤ off → off < 0x100 →
      rd off = { s with readLog := s.readLog ++ [0], cf := if s.cf = .none then .badAccess else s.cf })

/-- R24: the fields of STATUS; R181, R182, R183: the numbers of the causes. -/
def Obligations.StatusHoldsItsFields : Prop :=
  ∀ s : State,
    (statusWord s).getLsbD 0 = s.flight.isSome ∧
    ((statusWord s).getLsbD 1 = true ↔ s.decoder.remain = 0) ∧
    (statusWord s).extractLsb' 2 2 = 0 ∧
    (statusWord s).extractLsb' 4 4 = cfCode s.cf ∧
    (statusWord s).extractLsb' 8 4 = pfCode s.packer.pf ∧
    (statusWord s).extractLsb' 12 4 = dfCode s.decoder.df ∧
    (statusWord s).extractLsb' 16 16 = 0 ∧
    (cfCode .none = 0 ∧ cfCode .badOpcode = 1 ∧ cfCode .rsvdNonzero = 2 ∧ cfCode .badLen = 3 ∧
      cfCode .busyViolation = 4 ∧ cfCode .badAccess = 5) ∧
    (pfCode .none = 0 ∧ pfCode .noCode = 1 ∧ pfCode .sinkError = 2) ∧
    (dfCode .none = 0 ∧ dfCode .walkOff = 1 ∧ dfCode .trieConflict = 2 ∧ dfCode .trieFull = 3 ∧
      dfCode .tooManyCodes = 4 ∧ dfCode .outError = 5)

/-- R34, R30 to R33: whatever the state, a read of D_CUR, D_NODES, D_CODES, D_CAP or STATUS returns 0 in the reserved
bits. While BUSY = 1 this clause is the model's reading of R34 (log entry 4). -/
def Obligations.ReservedBitsReadZero : Prop :=
  ∀ (s : State) (off : Nat) (mask : Word),
    (off, mask) ∈ [(0x04, 0xFFFF000C#32), (0x40, 0xFFFFFE00#32), (0x44, 0xFFFFFC00#32), (0x48, 0xFFFFFE00#32),
      (0x4C, 0xFFFFFC00#32)] →
    ∃ v, (busAccess (.read (s.params.base + off) 4) s).readLog = s.readLog ++ [v] ∧ v &&& mask = 0

/-- R172: what a write to each register does, also while BUSY = 1; nothing but what is named changes. -/
def Obligations.WritesStoreOrAreRefused : Prop :=
  ∀ (s : State) (v : Word),
    let wr := fun off => busAccess (.write (s.params.base + off) 4 v) s
    wr 0x00 = accept v s ∧
    wr 0x10 = { s with code := { s.code with w0 := v } } ∧
    wr 0x14 = { s with code := { s.code with w1 := v } } ∧
    wr 0x18 = { s with code := { s.code with w2 := v } } ∧
    wr 0x1C = { s with code := { s.code with w3 := v } } ∧
    wr 0x20 = { s with code := { s.code with w4 := v } } ∧
    wr 0x24 = { s with code := { s.code with w5 := v } } ∧
    wr 0x28 = { s with code := { s.code with w6 := v } } ∧
    wr 0x2C = { s with code := { s.code with w7 := v } } ∧
    wr 0x30 = { s with lenLo := v } ∧
    wr 0x34 = { s with lenHi := v } ∧
    (∀ off, off ∈ [0x04, 0x08, 0x0C, 0x38, 0x3C, 0x40, 0x44, 0x48, 0x4C] →
      wr off = { s with cf := if s.cf = .none then .badAccess else s.cf })

/-- R27, R28: the staging registers store all 32 bits and read back exactly; a write to one leaves the others. -/
def Obligations.StagingRegistersReadBack : Prop :=
  ∀ (s : State) (a b : Nat) (v : Word),
    a ∈ [0x10, 0x14, 0x18, 0x1C, 0x20, 0x24, 0x28, 0x2C, 0x30, 0x34] →
    b ∈ [0x10, 0x14, 0x18, 0x1C, 0x20, 0x24, 0x28, 0x2C, 0x30, 0x34] →
    ∃ x, (busAccess (.read (s.params.base + b) 4) s).readLog = s.readLog ++ [x] ∧
      (busAccess (.read (s.params.base + b) 4) (busAccess (.write (s.params.base + a) 4 v) s)).readLog =
        s.readLog ++ [if a = b then v else x]

/-- R61, R64, R68: an access in the window that is not 4 bytes wide, not 4-aligned, or at an offset from 0x50 up is
BAD_ACCESS: a write is ignored and a read returns 0. -/
def Obligations.BadAccessRaisesOnlyCf : Prop :=
  ∀ (s : State) (off width : Nat) (v : Word), off < 0x100 → width ≠ 4 ∨ off % 4 ≠ 0 ∨ 0x50 ≤ off →
    busAccess (.read (s.params.base + off) width) s =
      { s with readLog := s.readLog ++ [0], cf := if s.cf = .none then .badAccess else s.cf } ∧
    busAccess (.write (s.params.base + off) width v) s =
      { s with cf := if s.cf = .none then .badAccess else s.cf }

/-- R104, R95, R217: the writes of LDCODE change CODE0..7 only, also while BUSY = 1, and load the code, bit c_0 first. -/
def Obligations.LdcodeLoadsTheCode : Prop :=
  ∀ (bits : List Bool) (s : State), bits.length ≤ 255 →
    ∃ c, doAccesses (scriptLdcode s.params bits) s = { s with code := c } ∧ codeBits c bits.length = bits

/-! ## Global commands and reset -/

/-- R170: NOP passes acceptance like any command, and once accepted has no effect. -/
def Obligations.NopHasNoEffect : Prop :=
  ∀ s : State,
    (s.flight ≠ none → accept 0x00000000#32 s = { s with cf := if s.cf = .none then .busyViolation else s.cf }) ∧
    (s.flight = none → ∃ l, accept 0x00000000#32 s = { s with flight := some l } ∧ decode l.word = .ok .nop) ∧
    exec .nop s = .next { s with flight := none }

/-- R210, R171, R211: SOFT_RESET and `rst`, whatever the faults, and `rst` whatever is in flight, set every element to
its reset value; the histories keep what they hold (R44), and the outside agents are untouched. The model's choices:
`rst` comes as a turn of the schedule (log entry 3), and SOFT_RESET also erases what the host wrote to the staging
registers while it was in flight (log entry 14). -/
def Obligations.ResetSetsEveryElement : Prop :=
  ∀ s : State,
    (∃ t, exec .softReset s = .next t ∧ IsResetBlock s.params t ∧ t.sinkLog = s.sinkLog ∧ t.outLog = s.outLog ∧
      t.readLog = s.readLog ∧ t.inputLog = s.inputLog ∧ t.script = s.script ∧ t.sinkAnswers = s.sinkAnswers ∧
      t.outAnswers = s.outAnswers ∧ t.turns = s.turns ∧ t.draws = s.draws) ∧
    (∀ rest, ∃ t, step { s with turns := .rst :: rest } = .next t ∧ IsResetBlock s.params t ∧
      s.sinkLog <+: t.sinkLog ∧ s.outLog <+: t.outLog ∧ t.turns = rest)

/-- R211, R44: when `rst` abandons a command in flight, the writes of it that were answered stay in the histories,
and the one that waits is recorded as abandoned, either way whether it reached its sink. -/
def Obligations.RstKeepsTheWritesIssued : Prop :=
  ∀ (s : State) (l : Latch) (rest : List Turn), s.flight = some l →
    ∃ t, step { s with turns := .rst :: rest } = .next t ∧
      (l.outstanding = none →
        t.sinkLog = s.sinkLog ++ sinkEntries l.answered ∧ t.outLog = s.outLog ++ outEntries l.answered) ∧
      (∀ bytes, l.outstanding = some (.sink bytes) → ∃ b,
        t.sinkLog = s.sinkLog ++ sinkEntries l.answered ++ [{ bytes := bytes, answer := .abandoned b }] ∧
        t.outLog = s.outLog ++ outEntries l.answered) ∧
      (∀ byte, l.outstanding = some (.out byte) → ∃ b,
        t.sinkLog = s.sinkLog ++ sinkEntries l.answered ∧
        t.outLog = s.outLog ++ outEntries l.answered ++ [{ byte := byte, answer := .abandoned b }])

/-- R22 to R44 (reset columns): after power-up every element has its reset value and the histories are empty. -/
def Obligations.PowerUpIsTheResetState : Prop :=
  ∀ p : Params, IsResetBlock p (State.powerUp p) ∧ (State.powerUp p).sinkLog = [] ∧ (State.powerUp p).outLog = [] ∧
    State.reset = State.powerUp Params.default

/-! ## Packer commands -/

/-- R110: while PF ≠ 0 the packer commands but P_RESET complete with no effect. -/
def Obligations.PackerFaultBlocksItsUnit : Prop :=
  ∀ (s : State) (sym len : Byte), s.packer.pf ≠ .none →
    exec (.pPackCode len) s = .next { s with flight := none } ∧
    exec (.pPackSym sym) s = .next { s with flight := none } ∧
    exec .pFlush s = .next { s with flight := none } ∧
    exec (.ctWrite sym len) s = .next { s with flight := none } ∧
    exec .ctClear s = .next { s with flight := none } ∧
    ∃ t, exec .pReset s = .next t ∧ t.packer.pf = .none ∧ t.packer.off = 0 ∧ ∀ k, bufByte t.packer.buf k = 0

/-- R113: P_RESET clears BUF, OFF and PF, whatever PF is, and leaves everything else, CT among it. -/
def Obligations.PResetClearsTheBuffer : Prop :=
  ∀ s : State, ∃ buf, (∀ k, bufByte buf k = 0) ∧
    exec .pReset s = .next { s with flight := none, packer := { s.packer with buf := buf, off := 0, pf := .none } }

/-- R111, R114: a code that does not fill the buffer is put at the bits from OFF on; every other bit of BUF, every
byte of BUF that holds none of these bits, and everything else stays. -/
def Obligations.PackCodeWithinTheBuffer : Prop :=
  ∀ (s : State) (len : Byte), s.packer.pf = .none → Memory.wf (0 : Byte) s.packer.buf →
    s.packer.off + len.toNat < 8 * s.params.cap →
    ∃ buf, exec (.pPackCode len) s = .next { s with
        flight := none, packer := { s.packer with buf := buf, off := s.packer.off + len.toNat } } ∧
      (∀ p, bufBit buf p =
        if s.packer.off ≤ p ∧ p < s.packer.off + len.toNat then codebit (latchedCode s) (p - s.packer.off)
        else bufBit s.packer.buf p) ∧
      (∀ k, k < s.packer.off / 8 ∨ (s.packer.off + len.toNat + 7) / 8 ≤ k → bufByte buf k = bufByte s.packer.buf k)

/-- R114, R112: with every SinkWrite answered `ok`, P_PACK_CODE packs the L bits of its code, with
floor((OFF + L) / (8·CAP)) fill flushes of CAP bytes each. -/
def Obligations.PackCodePacksItsBits : Prop :=
  ∀ (s : State) (l : Latch) (len : Byte), s.flight = some l → s.packer.pf = .none →
    Memory.wf (0 : Byte) s.packer.buf → s.packer.off < 8 * s.params.cap →
    (s.packer.off + len.toNat) / (8 * s.params.cap) ≤ l.answered.length → (∀ x ∈ l.answered, x.2 = .ok) →
    ∃ t, exec (.pPackCode len) s = .next t ∧ PacksBits (codeBits l.code len.toNat) s t

/-- R115: with every SinkWrite answered `ok`, P_PACK_SYM packs the bits of its symbol's entry in the same way. -/
def Obligations.PackSymPacksItsEntry : Prop :=
  ∀ (s : State) (l : Latch) (sym : Byte), s.flight = some l → s.packer.pf = .none →
    Memory.wf (0 : Byte) s.packer.buf → s.packer.off < 8 * s.params.cap →
    (ctEntry s.packer.ct sym).len ≠ 0 →
    (s.packer.off + (ctEntry s.packer.ct sym).len.toNat) / (8 * s.params.cap) ≤ l.answered.length →
    (∀ x ∈ l.answered, x.2 = .ok) →
    ∃ t, exec (.pPackSym sym) s = .next t ∧
      PacksBits (codeBits (ctEntry s.packer.ct sym).bits (ctEntry s.packer.ct sym).len.toNat) s t

/-- R115, R182: P_PACK_SYM of a symbol with no code raises NO_CODE and packs nothing. -/
def Obligations.PackSymWithoutCodeRaisesNoCode : Prop :=
  ∀ (s : State) (sym : Byte), s.packer.pf = .none → (ctEntry s.packer.ct sym).len = 0 →
    exec (.pPackSym sym) s = .next { s with flight := none, packer := { s.packer with pf := .noCode } }

/-- R115, its corner case: P_PACK_SYM ends as P_PACK_CODE would with the entry's length and bits as its operands. -/
def Obligations.PackSymIsPackCodeOfTheEntry : Prop :=
  ∀ (s t : State) (l : Latch) (sym : Byte), s.flight = some l → (ctEntry s.packer.ct sym).len ≠ 0 →
    t.flight = none →
    (exec (.pPackSym sym) s = .next t ↔
      exec (.pPackCode (ctEntry s.packer.ct sym).len)
        { s with flight := some { l with code := (ctEntry s.packer.ct sym).bits } } = .next t)

/-- R112, R182, R184, R186: when `n` fill flushes of P_PACK_CODE were answered `ok` and the next one is answered
`err`, every bit up to the filling one was packed, the flushed buffer is still held with OFF = 8·CAP, the later bits
are dropped, and PF is SINK_ERROR. -/
def Obligations.PackCodeSinkErrorIsPrecise : Prop :=
  ∀ (s : State) (l : Latch) (len : Byte) (oks rest : List (OutputWrite × Answer)) (w : OutputWrite),
    s.flight = some l → s.packer.pf = .none → Memory.wf (0 : Byte) s.packer.buf →
    s.packer.off < 8 * s.params.cap → l.answered = oks ++ (w, .err) :: rest → (∀ x ∈ oks, x.2 = .ok) →
    8 * s.params.cap * (oks.length + 1) ≤ s.packer.off + len.toNat →
    ∃ (buf : List Host.Cell) (log : List SinkEntry) (bytes : List Byte),
      exec (.pPackCode len) s = .next { s with
        flight := none
        sinkLog := s.sinkLog ++ log ++ [{ bytes := bytes, answer := .given .err }]
        packer := { s.packer with buf := buf, off := 8 * s.params.cap, pf := .sinkError } } ∧
      log.length = oks.length ∧ (∀ e ∈ log, e.bytes.length = s.params.cap ∧ e.answer = .given .ok) ∧
      bytes.length = s.params.cap ∧ streamBits bytes = heldBits buf (8 * s.params.cap) ∧
      takenBits (s.sinkLog ++ log) buf (8 * s.params.cap) =
        takenBits s.sinkLog s.packer.buf s.packer.off ++
          (codeBits l.code len.toNat).take (8 * s.params.cap * (oks.length + 1) - s.packer.off)

/-- R116: P_FLUSH writes the ceil(OFF/8) bytes of the held bits, zero-padded, and clears the buffer; with OFF = 0 it
writes nothing; on `err` OFF and BUF stay and PF is SINK_ERROR. -/
def Obligations.FlushWritesThePaddedBits : Prop :=
  ∀ s : State, s.packer.pf = .none →
    (s.packer.off = 0 → ∃ buf, (∀ k, bufByte buf k = 0) ∧
      exec .pFlush s = .next { s with flight := none, packer := { s.packer with buf := buf, off := 0 } }) ∧
    (s.packer.off ≠ 0 → ∃ bytes, IsPackOf (heldBits s.packer.buf s.packer.off) bytes ∧
      ∀ l, s.flight = some l →
        (∀ w rest, l.answered = (w, .ok) :: rest → ∃ buf, (∀ k, bufByte buf k = 0) ∧
          exec .pFlush s = .next { s with
            flight := none
            sinkLog := s.sinkLog ++ [{ bytes := bytes, answer := .given .ok }]
            packer := { s.packer with buf := buf, off := 0 } }) ∧
        (∀ w rest, l.answered = (w, .err) :: rest →
          exec .pFlush s = .next { s with
            flight := none
            sinkLog := s.sinkLog ++ [{ bytes := bytes, answer := .given .err }]
            packer := { s.packer with pf := .sinkError } }) ∧
        (l.answered = [] →
          exec .pFlush s = .next { s with flight := some { l with outstanding := some (.sink bytes) } }))

/-- R66: every SinkWrite a command issues carries 1 to CAP bytes. -/
def Obligations.SinkWritesCarryOneToCapBytes : Prop :=
  ∀ (i : Instr) (s t : State), 1 ≤ s.params.cap → PackerInv s.params.cap s.packer → exec i s = .next t →
    (∃ log, t.sinkLog = s.sinkLog ++ log ∧ ∀ e ∈ log, 1 ≤ e.bytes.length ∧ e.bytes.length ≤ s.params.cap) ∧
    (∀ l bytes, t.flight = some l → l.outstanding = some (.sink bytes) →
      1 ≤ bytes.length ∧ bytes.length ≤ s.params.cap)

/-- R117: CT_WRITE makes the entry of its symbol (L, W), replacing any earlier one, and leaves the other entries. -/
def Obligations.CtWriteReplacesTheEntry : Prop :=
  ∀ (s : State) (sym len : Byte), s.packer.pf = .none → Memory.wf CtEntry.empty s.packer.ct →
    ∃ ct, exec (.ctWrite sym len) s = .next { s with flight := none, packer := { s.packer with ct := ct } } ∧
      ctEntry ct sym = { len := len, bits := latchedCode s } ∧
      ∀ x, x ≠ sym → ctEntry ct x = ctEntry s.packer.ct x

/-- R118: CT_CLEAR sets every entry to {len 0, bits 0} and changes nothing else. -/
def Obligations.CtClearEmptiesTheTable : Prop :=
  ∀ s : State, s.packer.pf = .none →
    ∃ ct, exec .ctClear s = .next { s with flight := none, packer := { s.packer with ct := ct } } ∧
      ∀ x, ctEntry ct x = { len := 0, bits := CodeWords.zero }

/-! ## Decoder commands -/

/-- R140: while DF ≠ 0 the decoder commands but D_RESET complete with no effect. -/
def Obligations.DecoderFaultBlocksItsUnit : Prop :=
  ∀ (s : State) (sym len byte : Byte) (b : Bool), s.decoder.df ≠ .none →
    exec (.dInsert sym len) s = .next { s with flight := none } ∧
    exec .dStart s = .next { s with flight := none } ∧
    exec (.dFeedBit b) s = .next { s with flight := none } ∧
    exec (.dFeedByte byte) s = .next { s with flight := none } ∧
    ∃ t, exec .dReset s = .next t ∧ t.decoder.df = .none ∧ t.decoder.nNodes = 1 ∧ t.decoder.nCodes = 0 ∧
      t.decoder.cur = 0 ∧ t.decoder.remain = 0

/-- R143: D_RESET empties the trie and clears CUR, REMAIN and DF, whatever DF is, and leaves everything else; DONE
becomes 1. The slots from 1 up are unspecified, and nothing is said of them. -/
def Obligations.DResetEmptiesTheTrie : Prop :=
  ∀ s : State, ∃ t node, exec .dReset s = .next t ∧
    t = { s with
      flight := none
      decoder := { node := node, nNodes := 1, nCodes := 0, cur := 0, remain := 0, df := .none } } ∧
    nodeAt node 0 = { child0 := 0, child1 := 0, leaf := false, sym := 0 } ∧ t.done = true

/-- R147: D_START loads {LEN_HI, LEN_LO}, the latched one, into REMAIN and puts the walk at the root. -/
def Obligations.DStartLoadsTheLength : Prop :=
  ∀ s : State, s.decoder.df = .none →
    (∀ l, s.flight = some l →
      exec .dStart s = .next { s with flight := none, decoder := { s.decoder with remain := l.len, cur := 0 } }) ∧
    (s.flight = none →
      exec .dStart s = .next { s with decoder := { s.decoder with remain := s.lenHi ++ s.lenLo, cur := 0 } })

/-- R146: D_INSERT of a code that conflicts with none of the trie and fits it adds exactly that code: the slots from
NNODES on, one absent child of an allocated node, NNODES, NCODES, and nothing else. -/
def Obligations.InsertAddsTheCode : Prop :=
  ∀ (s : State) (sym len : Byte), s.decoder.df = .none → TrieInv s.params.nodeCap s.decoder →
    s.decoder.nCodes ≠ 256 → len ≠ 0 →
    ¬ Conflicts s.decoder.node (codeBits (latchedCode s) len.toNat) →
    s.decoder.nNodes + (len.toNat - sharedLength s.decoder.node 0 (codeBits (latchedCode s) len.toNat)) ≤
      s.params.nodeCap →
    ∃ node, exec (.dInsert sym len) s = .next { s with
        flight := none
        decoder := { s.decoder with
          node := node
          nCodes := s.decoder.nCodes + 1
          nNodes := s.decoder.nNodes +
            (len.toNat - sharedLength s.decoder.node 0 (codeBits (latchedCode s) len.toNat)) } } ∧
      (∀ c, codeSymbol node c =
        if c = codeBits (latchedCode s) len.toNat then some sym else codeSymbol s.decoder.node c) ∧
      (∃ n b, n < s.decoder.nNodes ∧ childOf (nodeAt s.decoder.node n) b = 0 ∧
        ∀ m, m < s.decoder.nNodes → nodeAt node m =
          if m = n then setChild (nodeAt s.decoder.node n) b s.decoder.nNodes else nodeAt s.decoder.node m)

/-- R146, R183, R187: D_INSERT's faults in their order, each leaving the trie unchanged. -/
def Obligations.InsertFaultsInOrder : Prop :=
  ∀ (s : State) (sym len : Byte), s.decoder.df = .none →
    (s.decoder.nCodes = 256 →
      exec (.dInsert sym len) s =
        .next { s with flight := none, decoder := { s.decoder with df := .tooManyCodes } }) ∧
    (s.decoder.nCodes ≠ 256 → TrieInv s.params.nodeCap s.decoder →
      Conflicts s.decoder.node (codeBits (latchedCode s) len.toNat) →
      exec (.dInsert sym len) s =
        .next { s with flight := none, decoder := { s.decoder with df := .trieConflict } }) ∧
    (s.decoder.nCodes ≠ 256 → TrieInv s.params.nodeCap s.decoder → len ≠ 0 →
      ¬ Conflicts s.decoder.node (codeBits (latchedCode s) len.toNat) →
      s.params.nodeCap < s.decoder.nNodes +
        (len.toNat - sharedLength s.decoder.node 0 (codeBits (latchedCode s) len.toNat)) →
      exec (.dInsert sym len) s =
        .next { s with flight := none, decoder := { s.decoder with df := .trieFull } })

/-- R148, R149: D_FEED_BIT is one step of the automaton. -/
def Obligations.FeedBitStepsTheWalk : Prop :=
  ∀ (s : State) (b : Bool), s.decoder.df = .none →
    let c := childOf (nodeAt s.decoder.node s.decoder.cur) b
    let sym := (nodeAt s.decoder.node c).sym
    (s.decoder.remain = 0 → exec (.dFeedBit b) s = .next { s with flight := none }) ∧
    (s.decoder.remain ≠ 0 → c = 0 →
      exec (.dFeedBit b) s = .next { s with flight := none, decoder := { s.decoder with df := .walkOff } }) ∧
    (s.decoder.remain ≠ 0 → c ≠ 0 → (nodeAt s.decoder.node c).leaf = false →
      exec (.dFeedBit b) s = .next { s with flight := none, decoder := { s.decoder with cur := c } }) ∧
    (s.decoder.remain ≠ 0 → c ≠ 0 → (nodeAt s.decoder.node c).leaf = true → ∀ l, s.flight = some l →
      (∀ w rest, l.answered = (w, .ok) :: rest →
        exec (.dFeedBit b) s = .next { s with
          flight := none
          outLog := s.outLog ++ [{ byte := sym, answer := .given .ok }]
          decoder := { s.decoder with remain := s.decoder.remain - 1, cur := 0 } }) ∧
      (∀ w rest, l.answered = (w, .err) :: rest →
        exec (.dFeedBit b) s = .next { s with
          flight := none
          outLog := s.outLog ++ [{ byte := sym, answer := .given .err }]
          decoder := { s.decoder with df := .outError } }) ∧
      (l.answered = [] →
        exec (.dFeedBit b) s = .next { s with flight := some { l with outstanding := some (.out sym) } }))

/-- R150: D_FEED_BYTE is D_FEED_BIT of its bits 7 to 0, one after another; after a fault or with REMAIN = 0 the later
ones have no effect. When one of them has to wait for its OutWrite, D_FEED_BYTE waits, with none of its effects
written; with 8 answers given it never waits. -/
def Obligations.FeedByteIsEightFeedBits : Prop :=
  ∀ (s : State) (l : Latch) (byte : Byte), s.flight = some l →
    let oneByOne := feedOneByOne l
      [byte.getLsbD 7, byte.getLsbD 6, byte.getLsbD 5, byte.getLsbD 4,
       byte.getLsbD 3, byte.getLsbD 2, byte.getLsbD 1, byte.getLsbD 0] s
    (∀ t, oneByOne = some t → exec (.dFeedByte byte) s = .next t) ∧
    (oneByOne = none → ∃ sym,
      exec (.dFeedByte byte) s = .next { s with flight := some { l with outstanding := some (.out sym) } }) ∧
    (8 ≤ l.answered.length → ∃ t, oneByOne = some t)

/-! ## Frames and whole-machine rules -/

/-- R27, R28, R188: no command but SOFT_RESET changes CODE0..7, LEN_LO, LEN_HI or CF, and none touches the parameters,
the host, the sinks, the schedule or the drawn values. -/
def Obligations.CommandsKeepTheSharedState : Prop :=
  ∀ (i : Instr) (s t : State), exec i s = .next t →
    (i ≠ .softReset → t.code = s.code ∧ t.lenLo = s.lenLo ∧ t.lenHi = s.lenHi ∧ t.cf = s.cf) ∧
    t.params = s.params ∧ t.readLog = s.readLog ∧ t.inputLog = s.inputLog ∧ t.script = s.script ∧
    t.sinkAnswers = s.sinkAnswers ∧ t.outAnswers = s.outAnswers ∧ t.turns = s.turns ∧ t.draws = s.draws

/-- R189, D34: a packer command changes nothing of the decoder unit and a decoder command nothing of the packer unit,
faults or not. -/
def Obligations.UnitsAreIndependent : Prop :=
  ∀ (i : Instr) (s t : State), exec i s = .next t →
    ((i = .pReset ∨ (∃ len, i = .pPackCode len) ∨ (∃ sym, i = .pPackSym sym) ∨ i = .pFlush ∨
        (∃ sym len, i = .ctWrite sym len) ∨ i = .ctClear) →
      t.decoder = s.decoder ∧ t.outLog = s.outLog) ∧
    ((i = .dReset ∨ (∃ sym len, i = .dInsert sym len) ∨ i = .dStart ∨ (∃ b, i = .dFeedBit b) ∨
        (∃ byte, i = .dFeedByte byte)) →
      t.packer = s.packer ∧ t.sinkLog = s.sinkLog)

/-- R38, R113, R114: packing and flushing never change the code table; R147 to R150: feeding and starting never change
the trie. -/
def Obligations.RunningKeepsTheTables : Prop :=
  ∀ (s t : State) (len sym byte : Byte) (b : Bool),
    (exec (.pPackCode len) s = .next t ∨ exec (.pPackSym sym) s = .next t ∨ exec .pFlush s = .next t →
      t.packer.ct = s.packer.ct) ∧
    (exec .dStart s = .next t ∨ exec (.dFeedBit b) s = .next t ∨ exec (.dFeedByte byte) s = .next t →
      t.decoder.node = s.decoder.node ∧ t.decoder.nNodes = s.decoder.nNodes ∧ t.decoder.nCodes = s.decoder.nCodes)

/-- R188, for commands and accesses (`rst` is neither, and clears all three): no command but P_RESET and SOFT_RESET
clears PF, none but D_RESET and SOFT_RESET clears DF, none but SOFT_RESET clears CF, and no access of the host changes PF
or DF or clears CF. -/
def Obligations.CausesAreClearedOnlyByResets : Prop :=
  (∀ (i : Instr) (s t : State), exec i s = .next t →
    (s.cf ≠ .none → t.cf = s.cf ∨ i = .softReset) ∧
    (s.packer.pf ≠ .none → t.packer.pf = s.packer.pf ∨ i = .pReset ∨ i = .softReset) ∧
    (s.decoder.df ≠ .none → t.decoder.df = s.decoder.df ∨ i = .dReset ∨ i = .softReset)) ∧
  (∀ (a : Access) (s : State),
    (s.cf ≠ .none → (busAccess a s).cf = s.cf) ∧ (busAccess a s).packer = s.packer ∧
      (busAccess a s).decoder = s.decoder)

/-- R180, R184: in every step of the machine a recorded cause stays or is cleared; it is never replaced by another. -/
def Obligations.FirstCauseIsKept : Prop :=
  ∀ s t : State, step s = .next t →
    (s.cf ≠ .none → t.cf = s.cf ∨ t.cf = .none) ∧
    (s.packer.pf ≠ .none → t.packer.pf = s.packer.pf ∨ t.packer.pf = .none) ∧
    (s.decoder.df ≠ .none → t.decoder.df = s.decoder.df ∨ t.decoder.df = .none)

/-- R44, R26, R33: in every step the histories only grow, and the parameters never change. -/
def Obligations.HistoriesOnlyGrow : Prop :=
  ∀ s t : State, step s = .next t →
    s.sinkLog <+: t.sinkLog ∧ s.outLog <+: t.outLog ∧ s.readLog <+: t.readLog ∧
      s.inputLog <+: t.inputLog ∧ t.params = s.params

/-- R43: a command that does not complete has issued one more output write and waits for its answer; none of its
effects is written. -/
def Obligations.WaitingChangesOnlyTheLatch : Prop :=
  ∀ (i : Instr) (s t : State), exec i s = .next t → t.flight ≠ none →
    ∃ w, t = { s with flight := some { latchOf i s with outstanding := some w } }

/-- R43, R44, R66, R67: when a command waits for the answer to a write and completes once that write is answered, the
last entry it leaves in the history is that very write with that answer. -/
def Obligations.RecordedWriteIsTheOneIssued : Prop :=
  ∀ (i : Instr) (s t t' : State) (l l' : Latch) (w : OutputWrite) (a : Answer),
    exec i { s with flight := some { l with outstanding := none } } = .next t → t.flight = some l' →
    l'.outstanding = some w →
    exec i { s with flight := some { l with answered := l.answered ++ [(w, a)], outstanding := none } } = .next t' →
    t'.flight = none →
    (∀ bytes, w = .sink bytes → ∃ log,
      t'.sinkLog = s.sinkLog ++ log ++ [{ bytes := bytes, answer := .given a }] ∧ log.length = l.answered.length) ∧
    (∀ byte, w = .out byte → ∃ log,
      t'.outLog = s.outLog ++ log ++ [{ byte := byte, answer := .given a }] ∧ log.length = l.answered.length)

/-- R217: writing CODE0..7, LEN_LO and LEN_HI while a command is in flight changes only those registers and nothing of
the command's effects. SOFT_RESET sets these registers itself (R210), so it ends in one state whatever was written; that
it erases what was written while it was in flight is the model's choice (log entry 14). -/
def Obligations.StagingWritesMissTheCommandInFlight : Prop :=
  ∀ (i : Instr) (s t : State) (l : Latch) (c : CodeWords) (lo hi : Word), s.flight = some l → exec i s = .next t →
    (i ≠ .softReset →
      exec i { s with code := c, lenLo := lo, lenHi := hi } = .next { t with code := c, lenLo := lo, lenHi := hi }) ∧
    (i = .softReset → exec i { s with code := c, lenLo := lo, lenHi := hi } = .next t)

/-- R221: a command completes once its output writes are answered, of which it issues at most 255. -/
def Obligations.AnsweredCommandsComplete : Prop :=
  ∀ (i : Instr) (s : State) (l : Latch), s.flight = some l → 255 ≤ l.answered.length →
    ∃ t, exec i s = .next t ∧ t.flight = none

/-- R102, R43: the block's turn executes the latched command; while a write of it waits, and with none in flight, the
block's turn changes nothing. -/
def Obligations.BlockTurnRunsTheLatchedCommand : Prop :=
  ∀ (s : State) (rest : List Turn),
    (∀ l i, s.flight = some l → l.outstanding = none → decode l.word = .ok i →
      step { s with turns := .block :: rest } = exec i { s with turns := rest }) ∧
    (∀ l w, s.flight = some l → l.outstanding = some w →
      step { s with turns := .block :: rest } = .next { s with turns := rest }) ∧
    (s.flight = none → step { s with turns := .block :: rest } = .next { s with turns := rest })

/-- R21, R102: in the synchronous schedule (the model's choice, log entry 3) a CMD write of a command to an idle block is
one step that runs the command it decodes to, with its operands latched; a CMD write of another word only raises CF. -/
def Obligations.CommandWriteRunsTheDecodedCommand : Prop :=
  ∀ (s : State) (w : Word) (rest : List HostOp), s.flight = none → s.turns = [] →
    s.script = .access (.write s.params.base 4 w) :: rest →
    (∀ i, decode w = .ok i →
      step s = exec i { s with
        script := rest
        inputLog := s.inputLog ++ [.access (.write s.params.base 4 w) none]
        flight := some
          { word := w, code := s.code, len := s.lenHi ++ s.lenLo, answered := [], outstanding := none } }) ∧
    (∀ e, decode w = .error e →
      step s = .next { s with
        script := rest
        inputLog := s.inputLog ++ [.access (.write s.params.base 4 w) none]
        cf := if s.cf = .none then rejectCause e else s.cf })

/-- R66, R67: a sink's turn gives its next answer to the write that waits for it, and does nothing else. -/
def Obligations.SinksAnswerTheWaitingWrite : Prop :=
  ∀ (s : State) (l : Latch) (a : Answer) (more : List Answer) (rest : List Turn), s.flight = some l →
    (∀ bytes, l.outstanding = some (.sink bytes) → s.sinkAnswers = a :: more →
      step { s with turns := .packerSink :: rest } = .next { s with
        turns := rest
        sinkAnswers := more
        flight := some { l with answered := l.answered ++ [(.sink bytes, a)], outstanding := none } }) ∧
    (∀ byte, l.outstanding = some (.out byte) → s.outAnswers = a :: more →
      step { s with turns := .outSink :: rest } = .next { s with
        turns := rest
        outAnswers := more
        flight := some { l with answered := l.answered ++ [(.out byte, a)], outstanding := none } })

/-! ## Invariants -/

/-- R36, R120, R142, R152, R210: the machine's invariant holds after power-up, for every choice of parameters. -/
def Obligations.InvariantHoldsAtReset : Prop :=
  (∀ p : Params, p.wf → Inv (State.powerUp p)) ∧ Inv State.reset

/-- R36, R120 (a) (b) (c), R142 (a) (b) (c), R152 (a) (b), R31, R32: every step keeps the invariant. -/
def Obligations.StepKeepsTheInvariant : Prop :=
  ∀ s t : State, Inv s → step s = .next t → Inv t

/-- R144: every step keeps the depth bound of the trie. -/
def Obligations.StepKeepsTheDepthBound : Prop :=
  ∀ s t : State, Inv s → DepthInv s.decoder.node → step s = .next t → DepthInv t.decoder.node

/-- R180, R102: every access, command and answer has a defined outcome; the machine never stops. -/
def Obligations.EveryStepHasANextState : Prop :=
  ∀ s : State, LatchInv s → ∃ t, step s = .next t

/-! ## The laws of the two units -/

/-- R121: codes packed one after another from a stream start and flushed, every SinkWrite answered `ok`, give the bytes
of pack(B), whatever CAP is; R120: the next stream starts at OFF = 0 with a clear buffer. -/
def Obligations.StreamLaw : Prop :=
  ∀ (cap : Nat) (codes : List (List Bool)) (answers : List Answer), 1 ≤ cap → (∀ a ∈ answers, a = .ok) →
    codes.flatten.length < answers.length →
    ∃ r, packStream cap codes answers = .running r ∧
      IsPackOf codes.flatten (sunkBytes r.log) ∧ r.off = 0 ∧ ∀ p, bufBit r.buf p = false

/-- R153: from the root with REMAIN = |S|, the codes of the symbols of S followed by any padding emit exactly S, every
OutWrite answered `ok`, and leave REMAIN = 0 and CUR = 0. -/
def Obligations.DecodeLaw : Prop :=
  ∀ (nodeCap : Nat) (d : Decoder) (code : Byte → List Bool) (syms : List Byte) (pad : List Bool)
    (answers : List Answer), TrieInv nodeCap d → (∀ x ∈ syms, codeSymbol d.node (code x) = some x) →
    syms.length < 2 ^ 64 → (∀ a ∈ answers, a = .ok) → syms.length ≤ answers.length →
    feedBits d.node (syms.flatMap code ++ pad) (startedWalk syms.length answers) =
      .running { cur := 0, remain := 0, answers := answers.drop syms.length
                 log := syms.map (fun x => { byte := x, answer := .given .ok }) }

/-- R153 with R121, the round trip of the block: symbols packed through the code table and flushed, then fed to a trie
that holds the same codes, come out as they went in. -/
def Obligations.PackThenDecodeGivesTheSymbols : Prop :=
  ∀ (cap nodeCap : Nat) (ct : List (Nat × CtEntry)) (d : Decoder) (syms : List Byte) (sinkOks outOks : List Answer),
    1 ≤ cap → TrieInv nodeCap d →
    (∀ x ∈ syms, (ctEntry ct x).len ≠ 0 ∧
      codeSymbol d.node (codeBits (ctEntry ct x).bits (ctEntry ct x).len.toNat) = some x) →
    syms.length < 2 ^ 64 → (∀ a ∈ sinkOks, a = .ok) → (∀ a ∈ outOks, a = .ok) →
    255 * syms.length < sinkOks.length → syms.length ≤ outOks.length →
    ∃ r w, packSymbols cap ct syms sinkOks = .running r ∧
      feedBits d.node (streamBits (sunkBytes r.log)) (startedWalk syms.length outOks) = .running w ∧
      emittedBytes w.log = syms ∧ w.remain = 0 ∧ w.cur = 0

/-! ## The end of a run -/

/-- R223, in an idle block and the synchronous schedule (the model's choice, log entry 3): after a host operation that
writes no CMD the run has ended exactly when no command is left and STATUS was read with BUSY = 0 since the last one, by
this operation (a read of STATUS, or a WAIT) or before it; reads and staging writes may come between and after. A CMD
write leaves a run that has not ended. An ended run is successful exactly when CF, PF and DF are 0 and, for a decode run,
D_START began the walk (the model's reading of "decode run", log entry 15) and REMAIN is 0. -/
def Obligations.StatusReadEndsTheRun : Prop :=
  ∀ (s : State) (op : HostOp) (rest : List HostOp), s.flight = none → s.turns = [] → s.script = op :: rest →
    (∀ w t, op = .access (.write s.params.base 4 w) → step s = .next t → runEnded t = false) ∧
    ((∀ w, op ≠ .access (.write s.params.base 4 w)) →
      ∃ t, step s = .next t ∧
        (op = .wait ∨ op = .access (.read (s.params.base + 0x04) 4) →
          t.inputLog = s.inputLog ++ [.access (.read (s.params.base + 0x04) 4) (some (statusWord s))] ∧ t.cf = s.cf) ∧
        (runEnded t = true ↔ noCommandLeft s.params rest = true ∧
          (op = .wait ∨ op = .access (.read (s.params.base + 0x04) 4) ∨ statusConfirmed s = true)) ∧
        ∀ decodeRun : Bool, runSucceeded t decodeRun = true ↔
          runEnded t = true ∧ t.cf = .none ∧ s.packer.pf = .none ∧ s.decoder.df = .none ∧
            (decodeRun = true → decodeStarted s = true ∧ s.decoder.remain = 0))
end

