-- ==== Sys2Proof/Laws/Memory.lean ====
section
/-! SUPPORT. The laws of the internal RAMs: a read after a write, the canonical form, and the listed indices. -/

namespace Sys2Proof.Machine

variable {α : Type} {d : α}

/-- What a write leaves listed: old entries of other indices, and the new one if it is not the default. -/
theorem Memory.mem_write [DecidableEq α] {m : List (Nat × α)} {a : Nat} {v : α} {c : Nat × α}
    (hc : c ∈ Memory.write d m a v) : c ∈ m ∨ (c = (a, v) ∧ v ≠ d) := by
  induction m with
  | nil =>
    unfold Memory.write at hc
    split at hc <;> simp_all
  | cons x m ih =>
    unfold Memory.write at hc
    split at hc
    · rcases List.mem_cons.1 hc with rfl | h
      · exact .inl (by simp)
      · rcases ih h with h | h
        · exact .inl (List.mem_cons_of_mem _ h)
        · exact .inr h
    · split at hc <;> split at hc <;> simp_all [or_assoc] <;> tauto

/-- Every write keeps the canonical form. -/
theorem Memory.wf_write [DecidableEq α] {m : List (Nat × α)} (h : Memory.wf d m) (a : Nat) (v : α) :
    Memory.wf d (Memory.write d m a v) := by
  induction m with
  | nil => unfold Memory.write; split <;> simp_all [Memory.wf]
  | cons x m ih =>
    obtain ⟨hp, hd⟩ := h
    obtain ⟨hx, hm⟩ := List.pairwise_cons.1 hp
    have hmd : ∀ c ∈ m, c.2 ≠ d := fun c hc => hd c (List.mem_cons_of_mem _ hc)
    have hxd : x.2 ≠ d := hd x (by simp)
    unfold Memory.write
    split
    · rename_i hlt
      obtain ⟨ip, iq⟩ := ih ⟨hm, hmd⟩
      refine ⟨List.pairwise_cons.2 ⟨fun c hc => ?_, ip⟩, fun c hc => ?_⟩
      · rcases Memory.mem_write hc with h | ⟨h, -⟩
        · exact hx c h
        · rw [h]; exact hlt
      · rcases List.mem_cons.1 hc with rfl | h
        · exact hxd
        · exact iq c h
    · rename_i hge
      split
      · rename_i heq
        split
        · exact ⟨hm, hmd⟩
        · rename_i hv
          refine ⟨List.pairwise_cons.2 ⟨fun c hc => heq ▸ hx c hc, hm⟩, fun c hc => ?_⟩
          rcases List.mem_cons.1 hc with rfl | h
          · exact hv
          · exact hmd c h
      · rename_i hne
        split
        · exact ⟨hp, hd⟩
        · rename_i hv
          refine ⟨List.pairwise_cons.2 ⟨fun c hc => ?_, hp⟩, fun c hc => ?_⟩
          · rcases List.mem_cons.1 hc with rfl | h
            · show a < c.1
              omega
            · have := hx c h
              show a < c.1
              omega
          · rcases List.mem_cons.1 hc with rfl | h
            · exact hv
            · exact hd c h

/-- An index below every listed one, or not listed, reads as the default. -/
theorem Memory.read_unlisted {m : List (Nat × α)} {a : Nat} (h : ∀ c ∈ m, c.1 ≠ a) : Memory.read d m a = d := by
  induction m with
  | nil => rfl
  | cons x m ih =>
    unfold Memory.read
    rw [if_neg (h x (by simp))]
    exact ih (fun c hc => h c (List.mem_cons_of_mem _ hc))

/-- A read after a write to the same place gives the value written. -/
theorem Memory.read_write_same [DecidableEq α] {m : List (Nat × α)} (h : Memory.wf d m) (a : Nat) (v : α) :
    Memory.read d (Memory.write d m a v) a = v := by
  induction m with
  | nil => unfold Memory.write; split <;> simp_all [Memory.read]
  | cons x m ih =>
    obtain ⟨hp, hd⟩ := h
    obtain ⟨hx, hm⟩ := List.pairwise_cons.1 hp
    have hmd : ∀ c ∈ m, c.2 ≠ d := fun c hc => hd c (List.mem_cons_of_mem _ hc)
    unfold Memory.write
    split
    · rename_i hlt
      unfold Memory.read
      rw [if_neg (by omega)]
      exact ih ⟨hm, hmd⟩
    · split
      · rename_i heq
        split
        · rename_i hv
          rw [hv]
          exact Memory.read_unlisted (fun c hc => by have := hx c hc; omega)
        · simp [Memory.read]
      · rename_i hne
        split
        · rename_i hv
          rw [hv]
          refine Memory.read_unlisted (fun c hc => ?_)
          rcases List.mem_cons.1 hc with rfl | h
          · exact hne
          · have := hx c h
            omega
        · simp [Memory.read]

/-- A write leaves every other place alone. -/
theorem Memory.read_write_other [DecidableEq α] (m : List (Nat × α)) {a b : Nat} (hab : b ≠ a) (v : α) :
    Memory.read d (Memory.write d m a v) b = Memory.read d m b := by
  induction m with
  | nil => unfold Memory.write; split <;> simp [Memory.read, hab.symm]
  | cons x m ih =>
    unfold Memory.write
    split
    · unfold Memory.read
      rw [ih]
    · split
      · rename_i heq
        have hxb : x.1 ≠ b := fun h => hab (by rw [← h, heq])
        split <;> simp [Memory.read, hxb, hab.symm]
      · split <;> simp [Memory.read, hab.symm]

/-- A write keeps every listed index below a bound that the written index is below. -/
theorem Memory.range_write [DecidableEq α] {m : List (Nat × α)} {n a : Nat} (h : ∀ c ∈ m, c.1 < n) (ha : a < n) (v : α) :
    ∀ c ∈ Memory.write d m a v, c.1 < n := by
  intro c hc
  rcases Memory.mem_write hc with h' | ⟨h', -⟩
  · exact h c h'
  · rw [h']; exact ha

/-- The empty RAM is in canonical form. -/
theorem Memory.wf_nil : Memory.wf d ([] : List (Nat × α)) := ⟨List.Pairwise.nil, by simp⟩

end Sys2Proof.Machine
end

