-- ==== Sys2Proof/Laws/Buffer.lean ====
section
/-! SUPPORT. The bits of BUF: assigning one sets it and leaves every other bit (40_packer.md R111). -/

namespace Sys2Proof.Machine

/-- The assigned bit of a byte. -/
theorem byteStreamBit_set_same (b : Byte) {j : Nat} (hj : j < 8) (v : Bool) :
    byteStreamBit (setByteStreamBit b j v) j = v := by
  have h7 : 7 - j < 8 := by omega
  cases v <;> simp [byteStreamBit, setByteStreamBit, h7]

/-- The other bits of a byte. -/
theorem byteStreamBit_set_other (b : Byte) {i j : Nat} (hi : i < 8) (hj : j < 8) (hij : i ≠ j) (v : Bool) :
    byteStreamBit (setByteStreamBit b j v) i = byteStreamBit b i := by
  have h7 : 7 - i < 8 := by omega
  have hne : 7 - i ≠ 7 - j := by omega
  have hz : (decide (7 - i < 7 - j) || !decide (7 - i - (7 - j) = 0)) = true := by
    simp only [Bool.or_eq_true, decide_eq_true_eq, Bool.not_eq_true', decide_eq_false_iff_not]
    omega
  cases v
  · simp [byteStreamBit, setByteStreamBit, h7]
    intro _
    omega
  · simp [byteStreamBit, setByteStreamBit, h7]
    intro _ _
    omega

/-- The assigned bit of BUF. -/
theorem bufBit_setBufBit_same {buf : List Host.Cell} (h : Memory.wf (0 : Byte) buf) (p : Nat) (v : Bool) :
    bufBit (setBufBit buf p v) p = v := by
  unfold bufBit setBufBit setBufByte bufByte
  rw [Memory.read_write_same h]
  exact byteStreamBit_set_same _ (Nat.mod_lt _ (by decide)) v

/-- The other bits of BUF. -/
theorem bufBit_setBufBit_other {buf : List Host.Cell} (h : Memory.wf (0 : Byte) buf) {p q : Nat} (hqp : q ≠ p)
    (v : Bool) : bufBit (setBufBit buf p v) q = bufBit buf q := by
  unfold bufBit setBufBit setBufByte bufByte
  by_cases hb : q / 8 = p / 8
  · rw [hb, Memory.read_write_same h]
    exact byteStreamBit_set_other _ (Nat.mod_lt _ (by decide)) (Nat.mod_lt _ (by decide)) (by omega) v
  · rw [Memory.read_write_other _ hb]

/-- Assigning a bit keeps BUF canonical. -/
theorem wf_setBufBit {buf : List Host.Cell} (h : Memory.wf (0 : Byte) buf) (p : Nat) (v : Bool) :
    Memory.wf (0 : Byte) (setBufBit buf p v) := Memory.wf_write h _ _

/-- Assigning a bit within the capacity keeps the indices of BUF within it. -/
theorem range_setBufBit {buf : List Host.Cell} {cap p : Nat} (h : ∀ c ∈ buf, c.1 < cap) (hp : p < 8 * cap)
    (v : Bool) : ∀ c ∈ setBufBit buf p v, c.1 < cap := Memory.range_write h (by omega) _

/-- Every bit of a cleared BUF is 0. -/
@[simp] theorem bufBit_nil (p : Nat) : bufBit [] p = false := by simp [bufBit, bufByte, Memory.read, byteStreamBit]

end Sys2Proof.Machine
end

