-- ==== Sys2Proof/Laws/State.lean ====
section
/-! SUPPORT. One lemma per field for each update of State that the commands share; each is true by `rfl`. -/

namespace Sys2Proof.Machine

/-! ### complete -/

@[simp] theorem complete_params (s : State) : (complete s).params = s.params := rfl
@[simp] theorem complete_code (s : State) : (complete s).code = s.code := rfl
@[simp] theorem complete_lenLo (s : State) : (complete s).lenLo = s.lenLo := rfl
@[simp] theorem complete_lenHi (s : State) : (complete s).lenHi = s.lenHi := rfl
@[simp] theorem complete_cf (s : State) : (complete s).cf = s.cf := rfl
@[simp] theorem complete_flight (s : State) : (complete s).flight = none := rfl
@[simp] theorem complete_packer (s : State) : (complete s).packer = s.packer := rfl
@[simp] theorem complete_decoder (s : State) : (complete s).decoder = s.decoder := rfl
@[simp] theorem complete_sinkLog (s : State) : (complete s).sinkLog = s.sinkLog := rfl
@[simp] theorem complete_outLog (s : State) : (complete s).outLog = s.outLog := rfl
@[simp] theorem complete_readLog (s : State) : (complete s).readLog = s.readLog := rfl
@[simp] theorem complete_inputLog (s : State) : (complete s).inputLog = s.inputLog := rfl
@[simp] theorem complete_script (s : State) : (complete s).script = s.script := rfl
@[simp] theorem complete_sinkAnswers (s : State) : (complete s).sinkAnswers = s.sinkAnswers := rfl
@[simp] theorem complete_outAnswers (s : State) : (complete s).outAnswers = s.outAnswers := rfl
@[simp] theorem complete_turns (s : State) : (complete s).turns = s.turns := rfl
@[simp] theorem complete_draws (s : State) : (complete s).draws = s.draws := rfl

/-! ### latchCommand -/

@[simp] theorem latchCommand_params (w : Word) (s : State) : (latchCommand w s).params = s.params := rfl
@[simp] theorem latchCommand_code (w : Word) (s : State) : (latchCommand w s).code = s.code := rfl
@[simp] theorem latchCommand_lenLo (w : Word) (s : State) : (latchCommand w s).lenLo = s.lenLo := rfl
@[simp] theorem latchCommand_lenHi (w : Word) (s : State) : (latchCommand w s).lenHi = s.lenHi := rfl
@[simp] theorem latchCommand_cf (w : Word) (s : State) : (latchCommand w s).cf = s.cf := rfl
@[simp] theorem latchCommand_flight (w : Word) (s : State) : (latchCommand w s).flight = some (newLatch w s) := rfl
@[simp] theorem latchCommand_packer (w : Word) (s : State) : (latchCommand w s).packer = s.packer := rfl
@[simp] theorem latchCommand_decoder (w : Word) (s : State) : (latchCommand w s).decoder = s.decoder := rfl
@[simp] theorem latchCommand_sinkLog (w : Word) (s : State) : (latchCommand w s).sinkLog = s.sinkLog := rfl
@[simp] theorem latchCommand_outLog (w : Word) (s : State) : (latchCommand w s).outLog = s.outLog := rfl
@[simp] theorem latchCommand_readLog (w : Word) (s : State) : (latchCommand w s).readLog = s.readLog := rfl
@[simp] theorem latchCommand_inputLog (w : Word) (s : State) : (latchCommand w s).inputLog = s.inputLog := rfl
@[simp] theorem latchCommand_script (w : Word) (s : State) : (latchCommand w s).script = s.script := rfl
@[simp] theorem latchCommand_sinkAnswers (w : Word) (s : State) : (latchCommand w s).sinkAnswers = s.sinkAnswers := rfl
@[simp] theorem latchCommand_outAnswers (w : Word) (s : State) : (latchCommand w s).outAnswers = s.outAnswers := rfl
@[simp] theorem latchCommand_turns (w : Word) (s : State) : (latchCommand w s).turns = s.turns := rfl
@[simp] theorem latchCommand_draws (w : Word) (s : State) : (latchCommand w s).draws = s.draws := rfl

/-! ### awaitAnswer -/

@[simp] theorem awaitAnswer_params (i : Instr) (w : OutputWrite) (s : State) : (awaitAnswer i w s).params = s.params := rfl
@[simp] theorem awaitAnswer_code (i : Instr) (w : OutputWrite) (s : State) : (awaitAnswer i w s).code = s.code := rfl
@[simp] theorem awaitAnswer_lenLo (i : Instr) (w : OutputWrite) (s : State) : (awaitAnswer i w s).lenLo = s.lenLo := rfl
@[simp] theorem awaitAnswer_lenHi (i : Instr) (w : OutputWrite) (s : State) : (awaitAnswer i w s).lenHi = s.lenHi := rfl
@[simp] theorem awaitAnswer_cf (i : Instr) (w : OutputWrite) (s : State) : (awaitAnswer i w s).cf = s.cf := rfl
@[simp] theorem awaitAnswer_flight (i : Instr) (w : OutputWrite) (s : State) : (awaitAnswer i w s).flight = some { latchOf i s with outstanding := some w } := rfl
@[simp] theorem awaitAnswer_packer (i : Instr) (w : OutputWrite) (s : State) : (awaitAnswer i w s).packer = s.packer := rfl
@[simp] theorem awaitAnswer_decoder (i : Instr) (w : OutputWrite) (s : State) : (awaitAnswer i w s).decoder = s.decoder := rfl
@[simp] theorem awaitAnswer_sinkLog (i : Instr) (w : OutputWrite) (s : State) : (awaitAnswer i w s).sinkLog = s.sinkLog := rfl
@[simp] theorem awaitAnswer_outLog (i : Instr) (w : OutputWrite) (s : State) : (awaitAnswer i w s).outLog = s.outLog := rfl
@[simp] theorem awaitAnswer_readLog (i : Instr) (w : OutputWrite) (s : State) : (awaitAnswer i w s).readLog = s.readLog := rfl
@[simp] theorem awaitAnswer_inputLog (i : Instr) (w : OutputWrite) (s : State) : (awaitAnswer i w s).inputLog = s.inputLog := rfl
@[simp] theorem awaitAnswer_script (i : Instr) (w : OutputWrite) (s : State) : (awaitAnswer i w s).script = s.script := rfl
@[simp] theorem awaitAnswer_sinkAnswers (i : Instr) (w : OutputWrite) (s : State) : (awaitAnswer i w s).sinkAnswers = s.sinkAnswers := rfl
@[simp] theorem awaitAnswer_outAnswers (i : Instr) (w : OutputWrite) (s : State) : (awaitAnswer i w s).outAnswers = s.outAnswers := rfl
@[simp] theorem awaitAnswer_turns (i : Instr) (w : OutputWrite) (s : State) : (awaitAnswer i w s).turns = s.turns := rfl
@[simp] theorem awaitAnswer_draws (i : Instr) (w : OutputWrite) (s : State) : (awaitAnswer i w s).draws = s.draws := rfl

/-! ### answerWrite -/

@[simp] theorem answerWrite_params (l : Latch) (w : OutputWrite) (a : Answer) (s : State) : (answerWrite l w a s).params = s.params := rfl
@[simp] theorem answerWrite_code (l : Latch) (w : OutputWrite) (a : Answer) (s : State) : (answerWrite l w a s).code = s.code := rfl
@[simp] theorem answerWrite_lenLo (l : Latch) (w : OutputWrite) (a : Answer) (s : State) : (answerWrite l w a s).lenLo = s.lenLo := rfl
@[simp] theorem answerWrite_lenHi (l : Latch) (w : OutputWrite) (a : Answer) (s : State) : (answerWrite l w a s).lenHi = s.lenHi := rfl
@[simp] theorem answerWrite_cf (l : Latch) (w : OutputWrite) (a : Answer) (s : State) : (answerWrite l w a s).cf = s.cf := rfl
@[simp] theorem answerWrite_flight (l : Latch) (w : OutputWrite) (a : Answer) (s : State) : (answerWrite l w a s).flight = some { l with answered := l.answered ++ [(w, a)], outstanding := none } := rfl
@[simp] theorem answerWrite_packer (l : Latch) (w : OutputWrite) (a : Answer) (s : State) : (answerWrite l w a s).packer = s.packer := rfl
@[simp] theorem answerWrite_decoder (l : Latch) (w : OutputWrite) (a : Answer) (s : State) : (answerWrite l w a s).decoder = s.decoder := rfl
@[simp] theorem answerWrite_sinkLog (l : Latch) (w : OutputWrite) (a : Answer) (s : State) : (answerWrite l w a s).sinkLog = s.sinkLog := rfl
@[simp] theorem answerWrite_outLog (l : Latch) (w : OutputWrite) (a : Answer) (s : State) : (answerWrite l w a s).outLog = s.outLog := rfl
@[simp] theorem answerWrite_readLog (l : Latch) (w : OutputWrite) (a : Answer) (s : State) : (answerWrite l w a s).readLog = s.readLog := rfl
@[simp] theorem answerWrite_inputLog (l : Latch) (w : OutputWrite) (a : Answer) (s : State) : (answerWrite l w a s).inputLog = s.inputLog := rfl
@[simp] theorem answerWrite_script (l : Latch) (w : OutputWrite) (a : Answer) (s : State) : (answerWrite l w a s).script = s.script := rfl
@[simp] theorem answerWrite_sinkAnswers (l : Latch) (w : OutputWrite) (a : Answer) (s : State) : (answerWrite l w a s).sinkAnswers = s.sinkAnswers := rfl
@[simp] theorem answerWrite_outAnswers (l : Latch) (w : OutputWrite) (a : Answer) (s : State) : (answerWrite l w a s).outAnswers = s.outAnswers := rfl
@[simp] theorem answerWrite_turns (l : Latch) (w : OutputWrite) (a : Answer) (s : State) : (answerWrite l w a s).turns = s.turns := rfl
@[simp] theorem answerWrite_draws (l : Latch) (w : OutputWrite) (a : Answer) (s : State) : (answerWrite l w a s).draws = s.draws := rfl

/-! ### storePack -/

@[simp] theorem storePack_params (r : PackRun) (s : State) : (storePack r s).params = s.params := rfl
@[simp] theorem storePack_code (r : PackRun) (s : State) : (storePack r s).code = s.code := rfl
@[simp] theorem storePack_lenLo (r : PackRun) (s : State) : (storePack r s).lenLo = s.lenLo := rfl
@[simp] theorem storePack_lenHi (r : PackRun) (s : State) : (storePack r s).lenHi = s.lenHi := rfl
@[simp] theorem storePack_cf (r : PackRun) (s : State) : (storePack r s).cf = s.cf := rfl
@[simp] theorem storePack_flight (r : PackRun) (s : State) : (storePack r s).flight = s.flight := rfl
@[simp] theorem storePack_packer (r : PackRun) (s : State) : (storePack r s).packer = { s.packer with buf := r.buf, off := r.off } := rfl
@[simp] theorem storePack_decoder (r : PackRun) (s : State) : (storePack r s).decoder = s.decoder := rfl
@[simp] theorem storePack_sinkLog (r : PackRun) (s : State) : (storePack r s).sinkLog = s.sinkLog ++ r.log := rfl
@[simp] theorem storePack_outLog (r : PackRun) (s : State) : (storePack r s).outLog = s.outLog := rfl
@[simp] theorem storePack_readLog (r : PackRun) (s : State) : (storePack r s).readLog = s.readLog := rfl
@[simp] theorem storePack_inputLog (r : PackRun) (s : State) : (storePack r s).inputLog = s.inputLog := rfl
@[simp] theorem storePack_script (r : PackRun) (s : State) : (storePack r s).script = s.script := rfl
@[simp] theorem storePack_sinkAnswers (r : PackRun) (s : State) : (storePack r s).sinkAnswers = s.sinkAnswers := rfl
@[simp] theorem storePack_outAnswers (r : PackRun) (s : State) : (storePack r s).outAnswers = s.outAnswers := rfl
@[simp] theorem storePack_turns (r : PackRun) (s : State) : (storePack r s).turns = s.turns := rfl
@[simp] theorem storePack_draws (r : PackRun) (s : State) : (storePack r s).draws = s.draws := rfl

/-! ### storeWalk -/

@[simp] theorem storeWalk_params (r : WalkRun) (s : State) : (storeWalk r s).params = s.params := rfl
@[simp] theorem storeWalk_code (r : WalkRun) (s : State) : (storeWalk r s).code = s.code := rfl
@[simp] theorem storeWalk_lenLo (r : WalkRun) (s : State) : (storeWalk r s).lenLo = s.lenLo := rfl
@[simp] theorem storeWalk_lenHi (r : WalkRun) (s : State) : (storeWalk r s).lenHi = s.lenHi := rfl
@[simp] theorem storeWalk_cf (r : WalkRun) (s : State) : (storeWalk r s).cf = s.cf := rfl
@[simp] theorem storeWalk_flight (r : WalkRun) (s : State) : (storeWalk r s).flight = s.flight := rfl
@[simp] theorem storeWalk_packer (r : WalkRun) (s : State) : (storeWalk r s).packer = s.packer := rfl
@[simp] theorem storeWalk_decoder (r : WalkRun) (s : State) : (storeWalk r s).decoder = { s.decoder with cur := r.cur, remain := r.remain } := rfl
@[simp] theorem storeWalk_sinkLog (r : WalkRun) (s : State) : (storeWalk r s).sinkLog = s.sinkLog := rfl
@[simp] theorem storeWalk_outLog (r : WalkRun) (s : State) : (storeWalk r s).outLog = s.outLog ++ r.log := rfl
@[simp] theorem storeWalk_readLog (r : WalkRun) (s : State) : (storeWalk r s).readLog = s.readLog := rfl
@[simp] theorem storeWalk_inputLog (r : WalkRun) (s : State) : (storeWalk r s).inputLog = s.inputLog := rfl
@[simp] theorem storeWalk_script (r : WalkRun) (s : State) : (storeWalk r s).script = s.script := rfl
@[simp] theorem storeWalk_sinkAnswers (r : WalkRun) (s : State) : (storeWalk r s).sinkAnswers = s.sinkAnswers := rfl
@[simp] theorem storeWalk_outAnswers (r : WalkRun) (s : State) : (storeWalk r s).outAnswers = s.outAnswers := rfl
@[simp] theorem storeWalk_turns (r : WalkRun) (s : State) : (storeWalk r s).turns = s.turns := rfl
@[simp] theorem storeWalk_draws (r : WalkRun) (s : State) : (storeWalk r s).draws = s.draws := rfl

/-! ### returnValue -/

@[simp] theorem returnValue_params (v : Word) (s : State) : (returnValue v s).params = s.params := rfl
@[simp] theorem returnValue_code (v : Word) (s : State) : (returnValue v s).code = s.code := rfl
@[simp] theorem returnValue_lenLo (v : Word) (s : State) : (returnValue v s).lenLo = s.lenLo := rfl
@[simp] theorem returnValue_lenHi (v : Word) (s : State) : (returnValue v s).lenHi = s.lenHi := rfl
@[simp] theorem returnValue_cf (v : Word) (s : State) : (returnValue v s).cf = s.cf := rfl
@[simp] theorem returnValue_flight (v : Word) (s : State) : (returnValue v s).flight = s.flight := rfl
@[simp] theorem returnValue_packer (v : Word) (s : State) : (returnValue v s).packer = s.packer := rfl
@[simp] theorem returnValue_decoder (v : Word) (s : State) : (returnValue v s).decoder = s.decoder := rfl
@[simp] theorem returnValue_sinkLog (v : Word) (s : State) : (returnValue v s).sinkLog = s.sinkLog := rfl
@[simp] theorem returnValue_outLog (v : Word) (s : State) : (returnValue v s).outLog = s.outLog := rfl
@[simp] theorem returnValue_readLog (v : Word) (s : State) : (returnValue v s).readLog = s.readLog ++ [v] := rfl
@[simp] theorem returnValue_inputLog (v : Word) (s : State) : (returnValue v s).inputLog = s.inputLog := rfl
@[simp] theorem returnValue_script (v : Word) (s : State) : (returnValue v s).script = s.script := rfl
@[simp] theorem returnValue_sinkAnswers (v : Word) (s : State) : (returnValue v s).sinkAnswers = s.sinkAnswers := rfl
@[simp] theorem returnValue_outAnswers (v : Word) (s : State) : (returnValue v s).outAnswers = s.outAnswers := rfl
@[simp] theorem returnValue_turns (v : Word) (s : State) : (returnValue v s).turns = s.turns := rfl
@[simp] theorem returnValue_draws (v : Word) (s : State) : (returnValue v s).draws = s.draws := rfl

/-! ### resetAll -/

@[simp] theorem resetAll_params (s : State) : (resetAll s).params = s.params := rfl
@[simp] theorem resetAll_code (s : State) : (resetAll s).code = CodeWords.zero := rfl
@[simp] theorem resetAll_lenLo (s : State) : (resetAll s).lenLo = 0 := rfl
@[simp] theorem resetAll_lenHi (s : State) : (resetAll s).lenHi = 0 := rfl
@[simp] theorem resetAll_cf (s : State) : (resetAll s).cf = .none := rfl
@[simp] theorem resetAll_flight (s : State) : (resetAll s).flight = none := rfl
@[simp] theorem resetAll_packer (s : State) : (resetAll s).packer = Packer.reset := rfl
@[simp] theorem resetAll_decoder (s : State) : (resetAll s).decoder = Decoder.reset := rfl
@[simp] theorem resetAll_sinkLog (s : State) : (resetAll s).sinkLog = s.sinkLog := rfl
@[simp] theorem resetAll_outLog (s : State) : (resetAll s).outLog = s.outLog := rfl
@[simp] theorem resetAll_readLog (s : State) : (resetAll s).readLog = s.readLog := rfl
@[simp] theorem resetAll_inputLog (s : State) : (resetAll s).inputLog = s.inputLog := rfl
@[simp] theorem resetAll_script (s : State) : (resetAll s).script = s.script := rfl
@[simp] theorem resetAll_sinkAnswers (s : State) : (resetAll s).sinkAnswers = s.sinkAnswers := rfl
@[simp] theorem resetAll_outAnswers (s : State) : (resetAll s).outAnswers = s.outAnswers := rfl
@[simp] theorem resetAll_turns (s : State) : (resetAll s).turns = s.turns := rfl
@[simp] theorem resetAll_draws (s : State) : (resetAll s).draws = s.draws := rfl

/-! ### raiseCf, raisePf, raiseDf -/

@[simp] theorem raiseCf_params (c : CfCause) (s : State) : (raiseCf c s).params = s.params := rfl
@[simp] theorem raiseCf_code (c : CfCause) (s : State) : (raiseCf c s).code = s.code := rfl
@[simp] theorem raiseCf_lenLo (c : CfCause) (s : State) : (raiseCf c s).lenLo = s.lenLo := rfl
@[simp] theorem raiseCf_lenHi (c : CfCause) (s : State) : (raiseCf c s).lenHi = s.lenHi := rfl
@[simp] theorem raiseCf_cf (c : CfCause) (s : State) : (raiseCf c s).cf = if s.cf = .none then c else s.cf := rfl
@[simp] theorem raiseCf_flight (c : CfCause) (s : State) : (raiseCf c s).flight = s.flight := rfl
@[simp] theorem raiseCf_packer (c : CfCause) (s : State) : (raiseCf c s).packer = s.packer := rfl
@[simp] theorem raiseCf_decoder (c : CfCause) (s : State) : (raiseCf c s).decoder = s.decoder := rfl
@[simp] theorem raiseCf_sinkLog (c : CfCause) (s : State) : (raiseCf c s).sinkLog = s.sinkLog := rfl
@[simp] theorem raiseCf_outLog (c : CfCause) (s : State) : (raiseCf c s).outLog = s.outLog := rfl
@[simp] theorem raiseCf_readLog (c : CfCause) (s : State) : (raiseCf c s).readLog = s.readLog := rfl
@[simp] theorem raiseCf_inputLog (c : CfCause) (s : State) : (raiseCf c s).inputLog = s.inputLog := rfl
@[simp] theorem raiseCf_script (c : CfCause) (s : State) : (raiseCf c s).script = s.script := rfl
@[simp] theorem raiseCf_sinkAnswers (c : CfCause) (s : State) : (raiseCf c s).sinkAnswers = s.sinkAnswers := rfl
@[simp] theorem raiseCf_outAnswers (c : CfCause) (s : State) : (raiseCf c s).outAnswers = s.outAnswers := rfl
@[simp] theorem raiseCf_turns (c : CfCause) (s : State) : (raiseCf c s).turns = s.turns := rfl
@[simp] theorem raiseCf_draws (c : CfCause) (s : State) : (raiseCf c s).draws = s.draws := rfl
@[simp] theorem raisePf_buf (c : PfCause) (p : Packer) : (raisePf c p).buf = p.buf := rfl
@[simp] theorem raisePf_off (c : PfCause) (p : Packer) : (raisePf c p).off = p.off := rfl
@[simp] theorem raisePf_pf (c : PfCause) (p : Packer) : (raisePf c p).pf = if p.pf = .none then c else p.pf := rfl
@[simp] theorem raisePf_ct (c : PfCause) (p : Packer) : (raisePf c p).ct = p.ct := rfl
@[simp] theorem raiseDf_node (c : DfCause) (d : Decoder) : (raiseDf c d).node = d.node := rfl
@[simp] theorem raiseDf_nNodes (c : DfCause) (d : Decoder) : (raiseDf c d).nNodes = d.nNodes := rfl
@[simp] theorem raiseDf_nCodes (c : DfCause) (d : Decoder) : (raiseDf c d).nCodes = d.nCodes := rfl
@[simp] theorem raiseDf_cur (c : DfCause) (d : Decoder) : (raiseDf c d).cur = d.cur := rfl
@[simp] theorem raiseDf_remain (c : DfCause) (d : Decoder) : (raiseDf c d).remain = d.remain := rfl
@[simp] theorem raiseDf_df (c : DfCause) (d : Decoder) : (raiseDf c d).df = if d.df = .none then c else d.df := rfl

end Sys2Proof.Machine
end

