-- ==== Sys2Proof/Laws/Bus.lean ====
section
/-! SUPPORT. The host's accesses, one lemma for each case of 42_global.md R172 and R173. -/

namespace Sys2Proof.Machine

/-- An offset of the window is in the window. -/
theorem inWindow_offset (base : Nat) {off : Nat} (h : off < 256) : inWindow base (base + off) = true := by
  simp [inWindow, h]

/-- A read at an offset of the window. -/
theorem busAccess_read (s : State) {off : Nat} (h : off < 256) (width : Nat) :
    busAccess (.read (s.params.base + off) width) s = readWindow off width s := by
  simp [busAccess, inWindow_offset _ h]

/-- A write at an offset of the window. -/
theorem busAccess_write (s : State) {off : Nat} (h : off < 256) (width : Nat) (v : Word) :
    busAccess (.write (s.params.base + off) width v) s = writeWindow off width v s := by
  simp [busAccess, inWindow_offset _ h]

/-- Every register is found at its offset, by a 4-byte access (20_memory.md R61). -/
theorem registerAt_regOffset (r : Reg) : registerAt (regOffset r) 4 = some r := by
  cases r with
  | code k => revert k; decide
  | _ => decide

/-- The register found at an offset has that offset, and the access is 4 bytes wide. -/
theorem registerAt_some {off width : Nat} {r : Reg} (h : registerAt off width = some r) :
    width = 4 ∧ regOffset r = off := by
  unfold registerAt at h
  split at h
  · rename_i hw
    exact ⟨hw, by simpa using List.find?_some h⟩
  · cases h

/-- Every register's offset is 4-aligned and below 0x50. -/
theorem regOffset_range (r : Reg) : regOffset r % 4 = 0 ∧ regOffset r < 0x50 := by
  cases r with
  | code k => revert k; decide
  | _ => decide

/-- An access that is not 4 bytes wide, not aligned, or past the last register finds none (20_memory.md R68). -/
theorem registerAt_none {off width : Nat} (h : width ≠ 4 ∨ off % 4 ≠ 0 ∨ 0x50 ≤ off) :
    registerAt off width = none := by
  cases hr : registerAt off width with
  | none => rfl
  | some r =>
    obtain ⟨hw, ho⟩ := registerAt_some hr
    have := regOffset_range r
    omega

/-- A read of a register that is exact now. -/
theorem readRegister_exact {r : Reg} {s : State} (h : s.flight = none ∨ unspecifiedWhileBusy r = false) :
    readRegister r s = returnValue (registerValue r s) s := by
  unfold readRegister
  rcases h with h | h <;> simp [State.busy, h]

/-- A read of a unit register while BUSY = 1. -/
theorem readRegister_unspecified {r : Reg} {s : State} (hf : s.flight ≠ none) (h : unspecifiedWhileBusy r = true) :
    readRegister r s =
      { returnValue (Config.freeWord s.draws &&& registerBits r) s with draws := s.draws + 1 } := by
  unfold readRegister
  have hb : s.busy = true := by simpa [State.busy, Option.isSome_iff_ne_none] using hf
  simp [hb, h]

/-- No access touches the fields of the outside agents but `readLog`, nor the parameters. -/
theorem busAccess_outside (a : Access) (s : State) :
    (busAccess a s).params = s.params ∧ (busAccess a s).script = s.script ∧ (busAccess a s).inputLog = s.inputLog ∧
      (busAccess a s).sinkAnswers = s.sinkAnswers ∧ (busAccess a s).outAnswers = s.outAnswers ∧
      (busAccess a s).turns = s.turns := by
  cases a with
  | read addr width =>
    simp only [busAccess, readWindow, readRegister]
    split
    · split
      · split <;> simp
      · simp
    · simp
  | write addr width v =>
    simp only [busAccess, writeWindow]
    split
    · split
      · rename_i r _
        cases r <;> simp [writeRegister, accept]
        split
        · simp
        · split <;> simp
      · simp
    · simp

end Sys2Proof.Machine
end

