-- ==== Sys2Proof/Laws/Packer.lean ====
section
/-! SUPPORT. What each packer operation can do, said once (40_packer.md R111, R112, R116). -/

namespace Sys2Proof.Machine

/-- `andThen` goes on exactly when the first part runs on. -/
theorem Progress.andThen_running {ρ κ : Type} {p : Progress ρ κ} {f : ρ → Progress ρ κ} {r' : ρ} :
    p.andThen f = .running r' ↔ ∃ r, p = .running r ∧ f r = .running r' := by
  cases p <;> simp [Progress.andThen]

/-- `andThen` is associative. -/
theorem Progress.andThen_assoc {ρ κ : Type} (p : Progress ρ κ) (f g : ρ → Progress ρ κ) :
    (p.andThen f).andThen g = p.andThen (fun r => (f r).andThen g) := by
  cases p <;> rfl

/-- What a SinkWrite can do (20_memory.md R66). -/
theorem sinkWrite_cases (bytes : List Byte) (r : PackRun) :
    (r.answers = [] ∧ sinkWrite bytes r = .waiting (.sink bytes)) ∨
    (∃ rest, r.answers = .ok :: rest ∧
      sinkWrite bytes r =
        .running { r with log := r.log ++ [{ bytes := bytes, answer := .given .ok }], answers := rest }) ∨
    (∃ rest, r.answers = .err :: rest ∧
      sinkWrite bytes r =
        .raised { r with log := r.log ++ [{ bytes := bytes, answer := .given .err }], answers := rest } .sinkError) := by
  obtain ⟨buf, off, log, answers⟩ := r
  rcases answers with - | ⟨a, rest⟩
  · exact .inl ⟨rfl, rfl⟩
  · cases a
    · exact .inr (.inl ⟨rest, rfl, rfl⟩)
    · exact .inr (.inr ⟨rest, rfl, rfl⟩)

/-- PackBit with room left only places the bit (40_packer.md R111). -/
theorem packBit_place {cap : Nat} {r : PackRun} (b : Bool) (h : r.off + 1 ≠ 8 * cap) :
    packBit cap b r = .running (placeBit b r) := by
  simp [packBit, placeBit, h]

/-- PackBit of the filling bit flushes (40_packer.md R111, R112). -/
theorem packBit_fill {cap : Nat} {r : PackRun} (b : Bool) (h : r.off + 1 = 8 * cap) :
    packBit cap b r = fillFlush cap (placeBit b r) := by
  simp [packBit, placeBit, h]

/-- What a fill flush can do (40_packer.md R112). -/
theorem fillFlush_cases (cap : Nat) (r : PackRun) :
    (r.answers = [] ∧ fillFlush cap r = .waiting (.sink (bufBytes r.buf cap))) ∨
    (∃ rest, r.answers = .ok :: rest ∧
      fillFlush cap r =
        .running { buf := [], off := 0, answers := rest,
                   log := r.log ++ [{ bytes := bufBytes r.buf cap, answer := .given .ok }] }) ∨
    (∃ rest, r.answers = .err :: rest ∧
      fillFlush cap r =
        .raised { r with answers := rest,
                         log := r.log ++ [{ bytes := bufBytes r.buf cap, answer := .given .err }] } .sinkError) := by
  rcases sinkWrite_cases (bufBytes r.buf cap) r with ⟨h, e⟩ | ⟨rest, h, e⟩ | ⟨rest, h, e⟩
  · exact .inl ⟨h, by rw [fillFlush, e]; rfl⟩
  · exact .inr (.inl ⟨rest, h, by rw [fillFlush, e]; rfl⟩)
  · exact .inr (.inr ⟨rest, h, by rw [fillFlush, e]; rfl⟩)

/-- Packing one list of bits after another is packing them joined (40_packer.md R121). -/
theorem packBits_append (cap : Nat) (xs ys : List Bool) (r : PackRun) :
    packBits cap (xs ++ ys) r = (packBits cap xs r).andThen (packBits cap ys) := by
  induction xs generalizing r with
  | nil => rfl
  | cons b xs ih =>
    show (packBit cap b r).andThen (packBits cap (xs ++ ys)) = _
    rw [show packBits cap (b :: xs) r = (packBit cap b r).andThen (packBits cap xs) from rfl,
      Progress.andThen_assoc]
    congr 1
    funext r'
    exact ih r'

/-- What a final flush of a buffer that is not empty can do (40_packer.md R116). -/
theorem finalFlush_cases {r : PackRun} (h0 : (r.off + 7) / 8 ≠ 0) :
    (r.answers = [] ∧ finalFlush r = .waiting (.sink (flushBytes r))) ∨
    (∃ rest, r.answers = .ok :: rest ∧
      finalFlush r =
        .running { buf := [], off := 0, answers := rest,
                   log := r.log ++ [{ bytes := flushBytes r, answer := .given .ok }] }) ∨
    (∃ rest, r.answers = .err :: rest ∧
      finalFlush r =
        .raised { r with answers := rest,
                         log := r.log ++ [{ bytes := flushBytes r, answer := .given .err }] } .sinkError) := by
  rcases sinkWrite_cases (flushBytes r) r with ⟨h, e⟩ | ⟨rest, h, e⟩ | ⟨rest, h, e⟩
  · exact .inl ⟨h, by rw [finalFlush, if_neg h0, e]; rfl⟩
  · exact .inr (.inl ⟨rest, h, by rw [finalFlush, if_neg h0, e]; rfl⟩)
  · exact .inr (.inr ⟨rest, h, by rw [finalFlush, if_neg h0, e]; rfl⟩)

/-- A packer command always answers a next state: completed, completed with a fault, or waiting. -/
theorem settlePack_cases (i : Instr) (s : State) (p : Progress PackRun PfCause) :
    (∃ r, p = .running r ∧ settlePack i s p = .next (complete (storePack r s))) ∨
    (∃ r c, p = .raised r c ∧
      settlePack i s p = .next (complete { storePack r s with packer := raisePf c (storePack r s).packer })) ∨
    (∃ w, p = .waiting w ∧ settlePack i s p = .next (awaitAnswer i w s)) := by
  cases p with
  | running r => exact .inl ⟨r, rfl, rfl⟩
  | raised r c => exact .inr (.inl ⟨r, c, rfl, rfl⟩)
  | waiting w => exact .inr (.inr ⟨w, rfl, rfl⟩)

/-- With PF = 0 a packer command runs. -/
theorem unlessPackerFault_ready {s : State} (h : s.packer.pf = .none) (k : Host.Outcome State Fault Refusal) :
    unlessPackerFault s k = k := if_pos h

/-- With PF ≠ 0 it completes with no effect (40_packer.md R110). -/
theorem unlessPackerFault_blocked {s : State} (h : s.packer.pf ≠ .none) (k : Host.Outcome State Fault Refusal) :
    unlessPackerFault s k = .next (complete s) := if_neg h

end Sys2Proof.Machine
end

