-- ==== Sys2Proof/Laws/Decoder.lean ====
section
/-! SUPPORT. What each decoder operation can do, said once (41_decoder.md R146, R148). -/

namespace Sys2Proof.Machine

/-- What an emission can do (20_memory.md R67, 41_decoder.md R148). -/
theorem emit_cases (sym : Byte) (r : WalkRun) :
    (r.answers = [] ∧ emit sym r = .waiting (.out sym)) ∨
    (∃ rest, r.answers = .ok :: rest ∧
      emit sym r = .running { cur := 0, remain := r.remain - 1, answers := rest,
                              log := r.log ++ [{ byte := sym, answer := .given .ok }] }) ∨
    (∃ rest, r.answers = .err :: rest ∧
      emit sym r = .raised { r with answers := rest,
                                    log := r.log ++ [{ byte := sym, answer := .given .err }] } .outError) := by
  obtain ⟨cur, remain, log, answers⟩ := r
  rcases answers with - | ⟨a, rest⟩
  · exact .inl ⟨rfl, rfl⟩
  · cases a
    · exact .inr (.inl ⟨rest, rfl, rfl⟩)
    · exact .inr (.inr ⟨rest, rfl, rfl⟩)

/-- What StepBit can do (41_decoder.md R148). -/
theorem stepBit_cases (node : List (Nat × Node)) (b : Bool) (r : WalkRun) :
    (r.remain = 0 ∧ stepBit node b r = .running r) ∨
    (r.remain ≠ 0 ∧ childOf (nodeAt node r.cur) b = 0 ∧ stepBit node b r = .raised r .walkOff) ∨
    (r.remain ≠ 0 ∧ childOf (nodeAt node r.cur) b ≠ 0 ∧
      (nodeAt node (childOf (nodeAt node r.cur) b)).leaf = true ∧
      stepBit node b r = emit (nodeAt node (childOf (nodeAt node r.cur) b)).sym r) ∨
    (r.remain ≠ 0 ∧ childOf (nodeAt node r.cur) b ≠ 0 ∧
      (nodeAt node (childOf (nodeAt node r.cur) b)).leaf = false ∧
      stepBit node b r = .running { r with cur := childOf (nodeAt node r.cur) b }) := by
  unfold stepBit
  by_cases h0 : r.remain = 0
  · exact .inl ⟨h0, if_pos h0⟩
  · by_cases hc : childOf (nodeAt node r.cur) b = 0
    · exact .inr (.inl ⟨h0, hc, by rw [if_neg h0, if_pos hc]⟩)
    · by_cases hl : (nodeAt node (childOf (nodeAt node r.cur) b)).leaf = true
      · exact .inr (.inr (.inl ⟨h0, hc, hl, by rw [if_neg h0, if_neg hc, if_pos hl]⟩))
      · exact .inr (.inr (.inr ⟨h0, hc, by simpa using hl, by rw [if_neg h0, if_neg hc, if_neg hl]⟩))

/-- Feeding one list of bits after another is feeding them joined (41_decoder.md R150). -/
theorem feedBits_append (node : List (Nat × Node)) (xs ys : List Bool) (r : WalkRun) :
    feedBits node (xs ++ ys) r = (feedBits node xs r).andThen (feedBits node ys) := by
  induction xs generalizing r with
  | nil => rfl
  | cons b xs ih =>
    by_cases h0 : r.remain = 0
    · have stopped : ∀ zs, feedBits node zs r = .running r := by
        intro zs
        cases zs with
        | nil => rfl
        | cons z zs => exact if_pos h0
      rw [stopped (b :: xs), stopped (b :: xs ++ ys)]
      exact (stopped ys).symm
    · show (if r.remain = 0 then _ else (stepBit node b r).andThen (feedBits node (xs ++ ys))) = _
      rw [if_neg h0,
        show feedBits node (b :: xs) r = (stepBit node b r).andThen (feedBits node xs) from if_neg h0,
        Progress.andThen_assoc]
      congr 1
      funext r'
      exact ih r'

/-- A feed always answers a next state: completed, completed with a fault, or waiting. -/
theorem settleWalk_cases (i : Instr) (s : State) (p : Progress WalkRun DfCause) :
    (∃ r, p = .running r ∧ settleWalk i s p = .next (complete (storeWalk r s))) ∨
    (∃ r c, p = .raised r c ∧
      settleWalk i s p = .next (complete { storeWalk r s with decoder := raiseDf c (storeWalk r s).decoder })) ∨
    (∃ w, p = .waiting w ∧ settleWalk i s p = .next (awaitAnswer i w s)) := by
  cases p with
  | running r => exact .inl ⟨r, rfl, rfl⟩
  | raised r c => exact .inr (.inl ⟨r, c, rfl, rfl⟩)
  | waiting w => exact .inr (.inr ⟨w, rfl, rfl⟩)

/-- With DF = 0 a decoder command runs. -/
theorem unlessDecoderFault_ready {s : State} (h : s.decoder.df = .none) (k : Host.Outcome State Fault Refusal) :
    unlessDecoderFault s k = k := if_pos h

/-- With DF ≠ 0 it completes with no effect (41_decoder.md R140). -/
theorem unlessDecoderFault_blocked {s : State} (h : s.decoder.df ≠ .none) (k : Host.Outcome State Fault Refusal) :
    unlessDecoderFault s k = .next (complete s) := if_neg h

/-- Adding a child below an allocated node keeps NODE canonical. -/
theorem wf_allocChild {d : Decoder} (h : Memory.wf Node.blank d.node) (n : Nat) (b : Bool) :
    Memory.wf Node.blank (allocChild n b d).node := Memory.wf_write (Memory.wf_write h _ _) _ _

/-- Setting a child sets that child. -/
@[simp] theorem childOf_setChild_same (n : Node) (b : Bool) (m : Nat) : childOf (setChild n b m) b = m := by
  cases b <;> rfl

/-- Setting a child leaves the other one. -/
@[simp] theorem childOf_setChild_not (n : Node) (b : Bool) (m : Nat) :
    childOf (setChild n b m) (!b) = childOf n (!b) := by
  cases b <;> rfl

/-- Setting a child leaves the leaf bit. -/
@[simp] theorem setChild_leaf (n : Node) (b : Bool) (m : Nat) : (setChild n b m).leaf = n.leaf := by
  cases b <;> rfl

/-- Setting a child leaves the symbol. -/
@[simp] theorem setChild_sym (n : Node) (b : Bool) (m : Nat) : (setChild n b m).sym = n.sym := by
  cases b <;> rfl

end Sys2Proof.Machine
end

