-- ==== Sys2Proof/Laws/Exec.lean ====
section
/-! SUPPORT. What executing a command can do, said once: a reset, a change of one unit and its history, nothing, or
the wait for an answer. -/

namespace Sys2Proof.Machine

/-- The commands of the packer unit (30_encoding.md R96). -/
def IsPackerCommand (i : Instr) : Prop :=
  i = .pReset ∨ (∃ len, i = .pPackCode len) ∨ (∃ sym, i = .pPackSym sym) ∨ i = .pFlush ∨
    (∃ sym len, i = .ctWrite sym len) ∨ i = .ctClear

/-- The commands of the decoder unit (30_encoding.md R96). -/
def IsDecoderCommand (i : Instr) : Prop :=
  i = .dReset ∨ (∃ sym len, i = .dInsert sym len) ∨ i = .dStart ∨ (∃ b, i = .dFeedBit b) ∨
    (∃ byte, i = .dFeedByte byte)

/-- The five ways a command can end. -/
inductive ExecResult (i : Instr) (s t : State) : Prop
  /-- SOFT_RESET (42_global.md R171). -/
  | reset (h : i = .softReset) (e : t = resetAll s)
  /-- A packer command: the packer unit and SINKLOG (60_exceptions.md R189). -/
  | packer (h : IsPackerCommand i) (p : Packer) (log : List SinkEntry)
      (e : t = complete { s with packer := p, sinkLog := s.sinkLog ++ log })
  /-- A decoder command: the decoder unit and OUTLOG (60_exceptions.md R189). -/
  | decoder (h : IsDecoderCommand i) (d : Decoder) (log : List OutEntry)
      (e : t = complete { s with decoder := d, outLog := s.outLog ++ log })
  /-- NOP (42_global.md R170). -/
  | nop (h : i = .nop) (e : t = complete s)
  /-- A command that waits for the answer to an output write (10_state.md R43). -/
  | waits (w : OutputWrite) (e : t = awaitAnswer i w s)

/-- The end of a packer command changes no code table. -/
theorem settlePack_form {i : Instr} {s t : State} {p : Progress PackRun PfCause} (h : settlePack i s p = .next t) :
    (∃ k log, t = complete { s with packer := k, sinkLog := s.sinkLog ++ log } ∧ k.ct = s.packer.ct) ∨
      ∃ w, t = awaitAnswer i w s := by
  rcases settlePack_cases i s p with ⟨r, -, e⟩ | ⟨r, c, -, e⟩ | ⟨w, -, e⟩ <;> rw [e] at h <;> cases h
  · exact .inl ⟨_, r.log, rfl, rfl⟩
  · exact .inl ⟨_, r.log, rfl, rfl⟩
  · exact .inr ⟨w, rfl⟩

/-- The end of a feed changes no trie. -/
theorem settleWalk_form {i : Instr} {s t : State} {p : Progress WalkRun DfCause} (h : settleWalk i s p = .next t) :
    (∃ d log, t = complete { s with decoder := d, outLog := s.outLog ++ log } ∧ d.node = s.decoder.node ∧
        d.nNodes = s.decoder.nNodes ∧ d.nCodes = s.decoder.nCodes) ∨
      ∃ w, t = awaitAnswer i w s := by
  rcases settleWalk_cases i s p with ⟨r, -, e⟩ | ⟨r, c, -, e⟩ | ⟨w, -, e⟩ <;> rw [e] at h <;> cases h
  · exact .inl ⟨_, r.log, rfl, rfl, rfl, rfl⟩
  · exact .inl ⟨_, r.log, rfl, rfl, rfl, rfl⟩
  · exact .inr ⟨w, rfl⟩

/-- A command that its unit's fault may block: it runs, or it completes with no effect. -/
theorem unlessPackerFault_cases {s t : State} {k : Host.Outcome State Fault Refusal}
    (h : unlessPackerFault s k = .next t) :
    (s.packer.pf = .none ∧ k = .next t) ∨ (s.packer.pf ≠ .none ∧ t = complete s) := by
  by_cases hp : s.packer.pf = .none
  · rw [unlessPackerFault_ready hp] at h; exact .inl ⟨hp, h⟩
  · rw [unlessPackerFault_blocked hp] at h; cases h; exact .inr ⟨hp, rfl⟩

/-- A command that its unit's fault may block: it runs, or it completes with no effect. -/
theorem unlessDecoderFault_cases {s t : State} {k : Host.Outcome State Fault Refusal}
    (h : unlessDecoderFault s k = .next t) :
    (s.decoder.df = .none ∧ k = .next t) ∨ (s.decoder.df ≠ .none ∧ t = complete s) := by
  by_cases hp : s.decoder.df = .none
  · rw [unlessDecoderFault_ready hp] at h; exact .inl ⟨hp, h⟩
  · rw [unlessDecoderFault_blocked hp] at h; cases h; exact .inr ⟨hp, rfl⟩

/-- A packer command that changes nothing is one that changes the packer unit to itself. -/
theorem ExecResult.packerSame {i : Instr} {s : State} (h : IsPackerCommand i) : ExecResult i s (complete s) :=
  .packer h s.packer [] (by simp)

/-- A decoder command that changes nothing is one that changes the decoder unit to itself. -/
theorem ExecResult.decoderSame {i : Instr} {s : State} (h : IsDecoderCommand i) : ExecResult i s (complete s) :=
  .decoder h s.decoder [] (by simp)

/-- A packer command that packs or flushes. -/
theorem ExecResult.ofSettlePack {i : Instr} {s t : State} {p : Progress PackRun PfCause} (hi : IsPackerCommand i)
    (h : unlessPackerFault s (settlePack i s p) = .next t) : ExecResult i s t := by
  rcases unlessPackerFault_cases h with ⟨-, h⟩ | ⟨-, rfl⟩
  · rcases settlePack_form h with ⟨k, log, e, -⟩ | ⟨w, e⟩
    · exact .packer hi k log e
    · exact .waits w e
  · exact .packerSame hi

/-- A decoder command that feeds. -/
theorem ExecResult.ofSettleWalk {i : Instr} {s t : State} {p : Progress WalkRun DfCause} (hi : IsDecoderCommand i)
    (h : unlessDecoderFault s (settleWalk i s p) = .next t) : ExecResult i s t := by
  rcases unlessDecoderFault_cases h with ⟨-, h⟩ | ⟨-, rfl⟩
  · rcases settleWalk_form h with ⟨d, log, e, -⟩ | ⟨w, e⟩
    · exact .decoder hi d log e
    · exact .waits w e
  · exact .decoderSame hi

/-- A packer command that writes the packer unit and no history. -/
theorem ExecResult.ofPackerWrite {i : Instr} {s t : State} {k : Packer} (hi : IsPackerCommand i)
    (h : unlessPackerFault s (.next (complete { s with packer := k })) = .next t) : ExecResult i s t := by
  rcases unlessPackerFault_cases h with ⟨-, h⟩ | ⟨-, rfl⟩
  · cases h; exact .packer hi k [] (by simp)
  · exact .packerSame hi

/-- What executing a command can do. -/
theorem exec_result {i : Instr} {s t : State} (h : exec i s = .next t) : ExecResult i s t := by
  cases i with
  | nop => cases h; exact .nop rfl rfl
  | softReset => cases h; exact .reset rfl rfl
  | pReset => cases h; exact .packer (by simp [IsPackerCommand]) _ [] (by simp; rfl)
  | pPackCode len => exact .ofSettlePack (by simp [IsPackerCommand]) h
  | pPackSym sym => exact .ofSettlePack (by simp [IsPackerCommand]) h
  | pFlush => exact .ofSettlePack (by simp [IsPackerCommand]) h
  | ctWrite sym len => exact .ofPackerWrite (by simp [IsPackerCommand]) h
  | ctClear => exact .ofPackerWrite (by simp [IsPackerCommand]) h
  | dReset => cases h; exact .decoder (by simp [IsDecoderCommand]) _ [] (by simp; rfl)
  | dInsert sym len =>
    rcases unlessDecoderFault_cases h with ⟨-, h⟩ | ⟨-, rfl⟩
    · split at h <;> cases h
      · exact .decoder (by simp [IsDecoderCommand]) _ [] (by simp; rfl)
      · exact .decoder (by simp [IsDecoderCommand]) _ [] (by simp; rfl)
    · exact .decoderSame (by simp [IsDecoderCommand])
  | dStart =>
    rcases unlessDecoderFault_cases h with ⟨-, h⟩ | ⟨-, rfl⟩
    · cases h; exact .decoder (by simp [IsDecoderCommand]) _ [] (by simp; rfl)
    · exact .decoderSame (by simp [IsDecoderCommand])
  | dFeedBit b => exact .ofSettleWalk (by simp [IsDecoderCommand]) h
  | dFeedByte byte => exact .ofSettleWalk (by simp [IsDecoderCommand]) h

end Sys2Proof.Machine
end

