-- ==== Sys2Proof/Laws/PerInstr.lean ====
section
/-! SUPPORT. One law for every command, by its constructor: its word is the word of its row under the row's mask
(30_encoding.md R97: `(w & mask_r) = match_r`). -/

namespace Sys2Proof.Laws.MatchesRow

/-- The word of `i` matches the row of `i` (30_encoding.md R97). -/
def Statement (i : Instr) : Prop := encode i &&& opcodeMask (opcodeOfInstr i) = opcodeMatch (opcodeOfInstr i)

/-- A word made of its four bytes, under a mask made of four bytes. -/
theorem commandWord_and (len arg op m3 m2 m1 m0 : Byte) :
    commandWord len arg op &&& (m3 ++ m2 ++ m1 ++ m0 : BitVec (8 + 8 + 8 + 8)) =
      (0#8 &&& m3) ++ (len &&& m2) ++ (arg &&& m1) ++ (op &&& m0) := by
  unfold commandWord
  rw [BitVec.and_append, BitVec.and_append, BitVec.and_append]

theorem nop : Statement .nop := by unfold Statement; decide

theorem softReset : Statement .softReset := by unfold Statement; decide

theorem pReset : Statement .pReset := by unfold Statement; decide

theorem pPackCode (len : Byte) : Statement (.pPackCode len) := by
  show commandWord len 0 0x11#8 &&& (0xFF#8 ++ 0x00#8 ++ 0xFF#8 ++ 0xFF#8 : BitVec (8 + 8 + 8 + 8)) = _
  rw [commandWord_and, show len &&& 0x00#8 = 0 from BitVec.and_zero]
  rfl

theorem pPackSym (sym : Byte) : Statement (.pPackSym sym) := by
  show commandWord 0 sym 0x12#8 &&& (0xFF#8 ++ 0xFF#8 ++ 0x00#8 ++ 0xFF#8 : BitVec (8 + 8 + 8 + 8)) = _
  rw [commandWord_and, show sym &&& 0x00#8 = 0 from BitVec.and_zero]
  rfl

theorem pFlush : Statement .pFlush := by unfold Statement; decide

theorem ctWrite (sym len : Byte) : Statement (.ctWrite sym len) := by
  show commandWord len sym 0x14#8 &&& (0xFF#8 ++ 0x00#8 ++ 0x00#8 ++ 0xFF#8 : BitVec (8 + 8 + 8 + 8)) = _
  rw [commandWord_and, show len &&& 0x00#8 = 0 from BitVec.and_zero, show sym &&& 0x00#8 = 0 from BitVec.and_zero]
  rfl

theorem ctClear : Statement .ctClear := by unfold Statement; decide

theorem dReset : Statement .dReset := by unfold Statement; decide

theorem dInsert (sym len : Byte) : Statement (.dInsert sym len) := by
  show commandWord len sym 0x21#8 &&& (0xFF#8 ++ 0x00#8 ++ 0x00#8 ++ 0xFF#8 : BitVec (8 + 8 + 8 + 8)) = _
  rw [commandWord_and, show len &&& 0x00#8 = 0 from BitVec.and_zero, show sym &&& 0x00#8 = 0 from BitVec.and_zero]
  rfl

theorem dStart : Statement .dStart := by unfold Statement; decide

theorem dFeedBit (b : Bool) : Statement (.dFeedBit b) := by unfold Statement; cases b <;> decide

theorem dFeedByte (byte : Byte) : Statement (.dFeedByte byte) := by
  show commandWord 0 byte 0x24#8 &&& (0xFF#8 ++ 0xFF#8 ++ 0x00#8 ++ 0xFF#8 : BitVec (8 + 8 + 8 + 8)) = _
  rw [commandWord_and, show byte &&& 0x00#8 = 0 from BitVec.and_zero]
  rfl

end Sys2Proof.Laws.MatchesRow
end

