-- ==== Sys2Proof/Laws/Run.lean ====
section
/-! SUPPORT. What one more event does to the end of a run (70_reset_and_hazards.md R223). -/

namespace Sys2Proof.Safety

open Sys2Proof.Machine

/-- After one more event STATUS is confirmed when the event is no command and no `rst`, and STATUS was confirmed or the
event confirms it. -/
theorem statusConfirmed_event {s t : State} {e : InputEvent} (hp : t.params = s.params)
    (h : t.inputLog = s.inputLog ++ [e]) :
    statusConfirmed t = (!needsStatus s.params e && (statusConfirmed s || readsIdle s.params e)) := by
  simp only [statusConfirmed, h, hp, List.foldl_append, List.foldl_cons, List.foldl_nil]

/-- An event that writes no command and is no `rst` leaves whether D_START began the walk. -/
theorem decodeStarted_event {s t : State} {e : InputEvent} (hp : t.params = s.params)
    (h : t.inputLog = s.inputLog ++ [e]) (hr : e ≠ .rst) (hc : commandWritten s.params e = none) :
    decodeStarted t = decodeStarted s := by
  simp [decodeStarted, h, hp, hr, hc]

end Sys2Proof.Safety
end

