-- ==== Sys2Proof/Laws/Step.lean ====
section
/-! SUPPORT. What the moves of the agents can do, said once (00_scope.md R4). -/

namespace Sys2Proof.Machine

/-- A step with a scheduled move. -/
theorem step_turn {s : State} {t : Turn} {rest : List Turn} (h : s.turns = t :: rest) :
    step s = takeTurn t { s with turns := rest } := by
  unfold step nextTurn
  rw [h]

/-- A step after the last scheduled move. -/
theorem step_sync {s : State} (h : s.turns = []) : step s = syncTurn s := by
  unfold step nextTurn
  rw [h]
  rfl

/-- The block's turn with a command in flight and no write waiting runs the latched command. -/
theorem blockTurn_runs {s : State} {l : Latch} {i : Instr} (hf : s.flight = some l) (ho : l.outstanding = none)
    (hd : decode l.word = .ok i) : blockTurn s = exec i s := by
  unfold blockTurn
  rw [hf]
  simp only [ho, hd]

/-- The block's turn with no command in flight. -/
theorem blockTurn_idle {s : State} (hf : s.flight = none) : blockTurn s = .next s := by
  unfold blockTurn
  rw [hf]

/-- The block's turn while an output write waits. -/
theorem blockTurn_waits {s : State} {l : Latch} {w : OutputWrite} (hf : s.flight = some l)
    (ho : l.outstanding = some w) : blockTurn s = .next s := by
  unfold blockTurn
  rw [hf]
  simp only [ho]

/-- What acceptance can do (30_encoding.md R102): raise CF, or latch a command. -/
theorem accept_cases (w : Word) (s : State) :
    (∃ c, accept w s = raiseCf c s) ∨ (s.flight = none ∧ ∃ i, decode w = .ok i ∧ accept w s = latchCommand w s) := by
  unfold accept
  by_cases hb : s.busy = true
  · exact .inl ⟨.busyViolation, if_pos hb⟩
  · rw [if_neg hb]
    have hf : s.flight = none := by simpa [State.busy] using hb
    cases hd : decode w with
    | error e => exact .inl ⟨rejectCause e, rfl⟩
    | ok i => exact .inr ⟨hf, i, rfl, rfl⟩

/-- What the host's turn can do (00_scope.md R4, 30_encoding.md R103): nothing, or one access, taken off its list unless
it is the read of a WAIT that goes on. -/
theorem hostTurn_cases (s : State) :
    (s.script = [] ∧ hostTurn s = s) ∨
    (∃ a rest, s.script = .access a :: rest ∧ hostTurn s = hostAccess a { s with script := rest }) ∨
    (∃ rest more, s.script = .wait :: rest ∧ (more = rest ∨ more = .wait :: rest) ∧
      hostTurn s = hostAccess (.read (regAddress s.params .status) 4) { s with script := more }) := by
  unfold hostTurn
  rcases s.script with - | ⟨a | -, rest⟩
  · exact .inl ⟨rfl, rfl⟩
  · exact .inr (.inl ⟨a, rest, rfl, rfl⟩)
  · refine .inr (.inr ⟨rest, if s.busy then .wait :: rest else rest, rfl, ?_, rfl⟩)
    split
    · exact .inr rfl
    · exact .inl rfl

/-- A host access is recorded, and leaves the host's list and the parameters. -/
theorem hostAccess_recorded (a : Access) (s : State) :
    (hostAccess a s).inputLog = s.inputLog ++ [.access a (busAccess a s).readLog[s.readLog.length]?] ∧
      (hostAccess a s).script = s.script ∧ (hostAccess a s).params = s.params :=
  ⟨rfl, (busAccess_outside a s).2.1, (busAccess_outside a s).1⟩

end Sys2Proof.Machine
end

