-- ==== Sys2Proof/Laws/Stream.lean ====
section
/-! SUPPORT. The bits of a packed stream (20_memory.md R62, 40_packer.md R111, R112): how the bits held in BUF and the
bits sent to the sink add up, and what packing a list of bits does. -/

namespace Sys2Proof.Machine

open Sys2Proof.Safety

/-- The bits of two byte sequences joined. -/
theorem streamBits_append (a b : List Byte) : streamBits (a ++ b) = streamBits a ++ streamBits b := by
  simp [streamBits]

/-- The bytes two histories sent, joined. -/
theorem sunkBytes_append (a b : List SinkEntry) : sunkBytes (a ++ b) = sunkBytes a ++ sunkBytes b := by
  simp [sunkBytes]

/-- Eight bits for each byte. -/
theorem streamBits_length (a : List Byte) : (streamBits a).length = 8 * a.length := by
  induction a with
  | nil => rfl
  | cons x a ih =>
    rw [show streamBits (x :: a) = byteBits x ++ streamBits a from rfl, List.length_append, ih]
    simp [byteBits]
    omega

/-- A code of `n` bits has `n` bits. -/
@[simp] theorem codeBits_length (c : CodeWords) (n : Nat) : (codeBits c n).length = n := by simp [codeBits]

/-- The held bits, as many as asked for. -/
@[simp] theorem heldBits_length (buf : List Host.Cell) (n : Nat) : (heldBits buf n).length = n := by simp [heldBits]

/-- The held bits of one more byte. -/
theorem heldBits_byte (buf : List Host.Cell) (n : Nat) :
    heldBits buf (8 * (n + 1)) = heldBits buf (8 * n) ++ byteBits (bufByte buf n) := by
  unfold heldBits byteBits
  rw [show 8 * (n + 1) = 8 * n + 8 by omega, List.range_add, List.map_append, List.map_map]
  congr 1
  refine List.map_congr_left (fun j hj => ?_)
  have hj : j < 8 := by simpa using hj
  simp [bufBit, show (8 * n + j) / 8 = n by omega, show (8 * n + j) % 8 = j by omega]

/-- The bits of the bytes of BUF are the held bits. -/
theorem streamBits_bufBytes (buf : List Host.Cell) (n : Nat) : streamBits (bufBytes buf n) = heldBits buf (8 * n) := by
  induction n with
  | zero => rfl
  | succ n ih =>
    rw [heldBits_byte, ← ih]
    simp [bufBytes, List.range_succ, streamBits]

/-- Placing the next bit holds one bit more. -/
theorem heldBits_setBufBit {buf : List Host.Cell} (h : Memory.wf (0 : Byte) buf) (n : Nat) (b : Bool) :
    heldBits (setBufBit buf n b) (n + 1) = heldBits buf n ++ [b] := by
  unfold heldBits
  rw [List.range_succ, List.map_append]
  congr 1
  · refine List.map_congr_left (fun j hj => ?_)
    have hj : j < n := by simpa using hj
    exact bufBit_setBufBit_other h (by omega) b
  · simp [bufBit_setBufBit_same h]

/-- PackBit of the filling bit when the fill flush is answered `ok` (40_packer.md R111, R112). -/
theorem packBit_fill_ok {cap : Nat} {r : PackRun} {rest : List Answer} (b : Bool) (hf : r.off + 1 = 8 * cap)
    (ha : r.answers = .ok :: rest) :
    packBit cap b r = .running
      { buf := [], off := 0, answers := rest,
        log := r.log ++ [{ bytes := bufBytes (setBufBit r.buf r.off b) cap, answer := .given .ok }] } := by
  rw [packBit_fill b hf]
  rcases fillFlush_cases cap (placeBit b r) with ⟨e, -⟩ | ⟨rest', e, h⟩ | ⟨rest', e, -⟩ <;>
    simp only [placeBit, ha] at e <;> cases e
  exact h

/-- A fed list of bits with REMAIN = 0 is discarded (41_decoder.md R148, R150). -/
theorem feedBits_done {node : List (Nat × Node)} {bits : List Bool} {r : WalkRun} (h : r.remain = 0) :
    feedBits node bits r = .running r := by
  cases bits with
  | nil => rfl
  | cons b bs => exact if_pos h

end Sys2Proof.Machine
end

