-- ==== Sys2Proof/Tests/Slice0.lean ====
section
/-! SUPPORT. Tests: ill-formed terms, words written out from the encodings, vectors of 95_test_vectors.md one step
each, and for every obligation with hypotheses a witness that meets them. -/

namespace Sys2Proof.Tests

open Sys2Proof.Machine Sys2Proof.Safety

/-! ## Helpers -/

/-- A field of the next state an outcome gives. -/
def got {α : Type} (f : State → α) : Host.Outcome State Fault Refusal → Option α
  | .next s => some (f s)
  | .fault _ => none
  | .refused _ => none

/-- CAP = 2, NODE_CAP = 511: the conventions of 95_test_vectors.md. -/
def start : State := State.powerUp { cap := 2, nodeCap := 511, base := 0x100 }

/-- A code operand that lies in CODE0. -/
def code0 (v : Word) : CodeWords := { CodeWords.zero with w0 := v }

/-- `s` with `i` in flight and these output writes of it answered. -/
def inFlight (i : Instr) (answered : List (OutputWrite × Answer)) (s : State) : State :=
  { s with flight := some { newLatch (encode i) s with answered := answered } }

/-- The BUF, OFF and STATUS a test looks at. -/
def packerView (s : State) : List Byte × Nat × Word := (bufBytes s.packer.buf s.params.cap, s.packer.off, statusWord s)

/-- CUR, REMAIN and STATUS. -/
def walkView (s : State) : Nat × Dword × Word := (s.decoder.cur, s.decoder.remain, statusWord s)

/-- NNODES, NCODES and STATUS. -/
def trieView (s : State) : Nat × Nat × Word := (s.decoder.nNodes, s.decoder.nCodes, statusWord s)

/-- The packer of PV2: OFF = 10, BUF = BF C0. -/
def pv2 : State := { start with packer := { start.packer with buf := [(0, 0xBF), (1, 0xC0)], off := 10 } }

/-- The packer of PV9: CT[0x41] = (1, `0`), OFF = 1, BUF = 00 00. -/
def pv9 : State :=
  { start with packer := { start.packer with ct := [(0x41, { len := 1, bits := CodeWords.zero })], off := 1 } }

/-- The trie of DV1 (`1` is 0x00, `0` is 0x01) with a number of symbols to emit. -/
def dv1 (n : Dword) : State :=
  { start with
    decoder :=
      { node := [(0, { child0 := 2, child1 := 1, leaf := false, sym := 0 }),
                 (1, { child0 := 0, child1 := 0, leaf := true, sym := 0 }),
                 (2, { child0 := 0, child1 := 0, leaf := true, sym := 1 })]
        nNodes := 3, nCodes := 2, cur := 0, remain := n, df := .none } }

/-- A trie with the one code `0` of symbol 0x01, the start of DV3 and DV5. -/
def oneCode : Decoder :=
  { node := [(0, { child0 := 1, child1 := 0, leaf := false, sym := 0 }),
             (1, { child0 := 0, child1 := 0, leaf := true, sym := 1 })]
    nNodes := 2, nCodes := 1, cur := 0, remain := 0, df := .none }

/-- `start` with that trie. -/
def oneCodeState : State := { start with decoder := oneCode }

/-! ## Ill-formed terms -/

/-- P_PACK_CODE with L = 0 is ill formed (30_encoding.md R100). -/
theorem test_illFormed_pPackCode : Instr.wellFormed (.pPackCode 0) = false := by decide

/-- CT_WRITE with L = 0 is ill formed. -/
theorem test_illFormed_ctWrite : Instr.wellFormed (.ctWrite 0x41 0) = false := by decide

/-- D_INSERT with L = 0 is ill formed. -/
theorem test_illFormed_dInsert : Instr.wellFormed (.dInsert 0x41 0) = false := by decide

/-- The words of the ill-formed terms are refused by name. -/
theorem test_illFormed_words :
    decode 0x00000011#32 = .error .badLen ∧ decode 0x00004114#32 = .error .badLen ∧
      decode 0x00004121#32 = .error .badLen := by decide

/-! ## Decoding (the words of 30_encoding.md R96) -/

/-- NOP and SOFT_RESET. -/
theorem test_decode_global : decode 0x00000000#32 = .ok .nop ∧ decode 0x00000001#32 = .ok .softReset := by decide

/-- P_RESET, P_PACK_CODE, P_PACK_SYM, P_FLUSH, CT_WRITE, CT_CLEAR: OP in bits 7..0, the symbol in bits 15..8, L in
bits 23..16. -/
theorem test_decode_packer :
    decode 0b00000000000000000000000000010000#32 = .ok .pReset ∧
    decode 0b00000000100000010000000000010001#32 = .ok (.pPackCode 0x81) ∧
    decode 0b00000000000000000101101000010010#32 = .ok (.pPackSym 0x5A) ∧
    decode 0b00000000000000000000000000010011#32 = .ok .pFlush ∧
    decode 0b00000000000001110101101000010100#32 = .ok (.ctWrite 0x5A 7) ∧
    decode 0b00000000000000000000000000010101#32 = .ok .ctClear := by decide

/-- D_RESET, D_INSERT, D_START, D_FEED_BIT, D_FEED_BYTE. -/
theorem test_decode_decoder :
    decode 0b00000000000000000000000000100000#32 = .ok .dReset ∧
    decode 0b00000000000001110101101000100001#32 = .ok (.dInsert 0x5A 7) ∧
    decode 0b00000000000000000000000000100010#32 = .ok .dStart ∧
    decode 0b00000000000000000000000000100011#32 = .ok (.dFeedBit false) ∧
    decode 0b00000000000000000000000100100011#32 = .ok (.dFeedBit true) ∧
    decode 0b00000000000000001110000000100100#32 = .ok (.dFeedByte 0xE0) := by decide

/-- GV3 to GV11: words that are no commands, with the check that refuses them. -/
theorem test_decode_illegal :
    decode 0x00000002#32 = .error .badOpcode ∧ decode 0x000000FF#32 = .error .badOpcode ∧
    decode 0x01000000#32 = .error .rsvdNonzero ∧ decode 0x80000099#32 = .error .rsvdNonzero ∧
    decode 0x00010010#32 = .error .rsvdNonzero ∧ decode 0x00000223#32 = .error .rsvdNonzero ∧
    decode 0x00010012#32 = .error .rsvdNonzero := by decide

/-- The opcode table's numbering: bit 0 of the table word is bit 0 of the command word. -/
theorem test_decodeTableWord : decodeTableWord 32 0x0001FF21 = some (.dInsert 0xFF 1) := by decide

/-- A placed word is what the next step runs. -/
theorem test_withFetchWord : got walkView (step (start.withFetchWord 32 0x22)) = some (0, 0, 0x00000002#32) := by decide

/-! ## The commands -/

/-- GV1. -/
theorem test_nop : got statusWord (step (State.reset.withFetchWord 32 0)) = some 0x00000002#32 := by decide

/-- GV20: SOFT_RESET clears CF. -/
theorem test_softReset : got statusWord (exec .softReset { pv2 with cf := .badOpcode }) = some 0x00000002#32 := by decide

/-- PV12. -/
theorem test_pReset : got packerView (exec .pReset pv2) = some ([0x00, 0x00], 0, 0x00000002#32) := by decide

/-- PV2, its second command: seven bits `1` from OFF = 3. -/
theorem test_pPackCode_splits :
    got packerView (exec (.pPackCode 7)
      { start with
        code := code0 0xFE000000#32
        packer := { start.packer with buf := [(0, 0xA0)], off := 3 } }) =
      some ([0xBF, 0xC0], 10, 0x00000002#32) := by decide

/-- PV6d: a code that crosses the end of the buffer. -/
theorem test_pPackCode_crosses :
    got (fun s => (packerView s, s.sinkLog))
      (exec (.pPackCode 15) (inFlight (.pPackCode 15) [(.sink [0xE0, 0x00], .ok)]
        { start with
          code := code0 0x00060000#32
          packer := { start.packer with buf := [(0, 0xE0)], off := 3 } })) =
      some (([0xC0, 0x00], 2, 0x00000002#32), [{ bytes := [0xE0, 0x00], answer := .given .ok }]) := by decide

/-- PV9d: the replaced entry `11` after one bit `0`. -/
theorem test_pPackSym :
    got packerView (exec (.pPackSym 0x41)
      { pv9 with packer := { pv9.packer with ct := [(0x41, { len := 2, bits := code0 0xC0000000#32 })] } }) =
      some ([0x60, 0x00], 3, 0x00000002#32) := by decide

/-- PV8. -/
theorem test_pPackSym_noCode : got packerView (exec (.pPackSym 0x05) start) = some ([0x00, 0x00], 0, 0x00000102#32) := by
  decide

/-- PV7c: the padded last byte. -/
theorem test_pFlush :
    got (fun s => (packerView s, s.sinkLog))
      (exec .pFlush (inFlight .pFlush [(.sink [0xAA, 0x80], .ok)]
        { start with packer := { start.packer with buf := [(0, 0xAA), (1, 0x80)], off := 9 } })) =
      some (([0x00, 0x00], 0, 0x00000002#32), [{ bytes := [0xAA, 0x80], answer := .given .ok }]) := by decide

/-- PV11: the flush the sink refuses. -/
theorem test_pFlush_err :
    got packerView (exec .pFlush (inFlight .pFlush [(.sink [0xA0], .err)]
        { start with packer := { start.packer with buf := [(0, 0xA0)], off := 3 } })) =
      some ([0xA0, 0x00], 3, 0x00000202#32) := by decide

/-- PV9d: CT_WRITE replaces the entry. -/
theorem test_ctWrite :
    got (fun s => ctEntry s.packer.ct 0x41) (exec (.ctWrite 0x41 2) { pv9 with code := code0 0xC0000000#32 }) =
      some { len := 2, bits := code0 0xC0000000#32 } := by decide

/-- PV9c: CT_CLEAR, with OFF unchanged. -/
theorem test_ctClear : got (fun s => (ctEntry s.packer.ct 0x41, s.packer.off)) (exec .ctClear pv9) =
    some (CtEntry.empty, 1) := by decide

/-- DV2c: D_RESET clears the cause. -/
theorem test_dReset :
    got trieView (exec .dReset { oneCodeState with decoder := { oneCode with remain := 3, df := .walkOff } }) =
      some (1, 0, 0x00000002#32) := by decide

/-- DV1: the second code is put below the root, in slot 2. -/
theorem test_dInsert :
    got (fun s => (trieView s, nodeAt s.decoder.node 0, nodeAt s.decoder.node 2))
      (exec (.dInsert 0x01 1)
        { start with
          decoder :=
            { node := [(0, { child0 := 0, child1 := 1, leaf := false, sym := 0 }),
                       (1, { child0 := 0, child1 := 0, leaf := true, sym := 0 })]
              nNodes := 2, nCodes := 1, cur := 0, remain := 0, df := .none } }) =
      some ((3, 2, 0x00000002#32), { child0 := 2, child1 := 1, leaf := false, sym := 0 },
        { child0 := 0, child1 := 0, leaf := true, sym := 1 }) := by decide

/-- DV3: a code that extends one of the trie. -/
theorem test_dInsert_conflict :
    got trieView (exec (.dInsert 0x02 2) { oneCodeState with code := code0 0x40000000#32 }) =
      some (2, 1, 0x00002002#32) := by decide

/-- DV17: LEN_HI is the upper half. -/
theorem test_dStart :
    got walkView (exec .dStart { start with lenHi := 1 }) = some (0, 0x100000000#64, 0x00000000#32) := by decide

/-- DV1b. -/
theorem test_dFeedBit :
    got (fun s => (walkView s, s.outLog)) (exec (.dFeedBit true) (inFlight (.dFeedBit true) [(.out 0, .ok)] (dv1 4))) =
      some ((0, 3, 0x00000000#32), [{ byte := 0, answer := .given .ok }]) := by decide

/-- DV2: the walk leaves the trie. -/
theorem test_dFeedBit_walkOff :
    got walkView (exec (.dFeedBit true) { oneCodeState with decoder := { oneCode with remain := 3 } }) =
      some (0, 3, 0x00001000#32) := by decide

/-- DV1: 0xE0 is `111` and a `0`; the rest is discarded. -/
theorem test_dFeedByte :
    got (fun s => (walkView s, s.outLog.map (fun e => e.byte)))
      (exec (.dFeedByte 0xE0) (inFlight (.dFeedByte 0xE0)
        [(.out 0, .ok), (.out 0, .ok), (.out 0, .ok), (.out 1, .ok)] (dv1 4))) =
      some ((0, 0, 0x00000002#32), [0, 0, 0, 1]) := by decide

/-- DV9: the second OutWrite is refused. -/
theorem test_dFeedByte_err :
    got (fun s => (walkView s, s.outLog))
      (exec (.dFeedByte 0xE0) (inFlight (.dFeedByte 0xE0) [(.out 0, .ok), (.out 0, .err)] (dv1 4))) =
      some ((0, 3, 0x00005000#32), [{ byte := 0, answer := .given .ok }, { byte := 0, answer := .given .err }]) := by
  decide

/-! ## The host's accesses -/

/-- GV3, GV5, GV10: the causes of illegal words. -/
theorem test_illegalWords :
    statusWord (accept 0x00000002#32 start) = 0x00000012#32 ∧ statusWord (accept 0x01000000#32 start) = 0x00000022#32 ∧
      statusWord (accept 0x00000011#32 start) = 0x00000032#32 := by decide

/-- GV12: the first cause is kept. -/
theorem test_firstCause : (accept 0x01000000#32 (accept 0x00000002#32 start)).cf = .badOpcode := by decide

/-- GV13: a CMD write while the sink has not answered. -/
theorem test_busyViolation :
    got (fun s => (busAccess (.write 0x100 4 0) s).cf) (exec .pFlush (inFlight .pFlush [] pv2)) = some .busyViolation := by
  decide

/-- GV14 to GV16. -/
theorem test_badAccess :
    statusWord (busAccess (.write 0x104 4 0xFFFFFFFF#32) start) = 0x00000052#32 ∧
    (busAccess (.read 0x150 4) start).readLog = [0] ∧ (busAccess (.read 0x150 4) start).cf = .badAccess ∧
    (busAccess (.read 0x104 1) start).readLog = [0] ∧ (busAccess (.read 0x104 1) start).cf = .badAccess := by decide

/-- GV17, GV18, GV19. -/
theorem test_registers :
    (busAccess (.write 0x112 4 7) start).code = CodeWords.zero ∧
    (busAccess (.read 0x11C 4) (busAccess (.write 0x11C 4 0xDEADBEEF#32) start)).readLog = [0xDEADBEEF#32] ∧
    (busAccess (.read 0x10C 4) start).readLog = [2#32] ∧ (busAccess (.read 0x14C 4) start).readLog = [0x1FF#32] := by
  decide

/-! ## Host sequences and the end of a run -/

/-- R214 with a table, a length and no byte of source: the sequence ends with D_START and the check of steps 7, 8. -/
theorem test_scriptDecompress_noSource :
    scriptDecompress start.params [(0x41, [false])] 1 [] =
      scriptCommand start.params .dReset ++ scriptIns start.params 0x41 [false] ++
        [.wait, scriptRd start.params .status] ++ scriptStart start.params 1 ++ [.wait, scriptRd start.params .status] := by
  decide

/-- R214 step 2 and R215: with N = 0, and with an empty source, the block is not used. -/
theorem test_scripts_empty : scriptDecompress start.params [] 0 [] = [] ∧ scriptCompress start.params [] [] = [] := by
  decide

/-- The STATUS words of the vectors: PV8 and DV2 are no valid results, DV8 is a truncated stream, DV1 is valid. -/
theorem test_statusChecks :
    compressionValid 0x00000102#32 = false ∧ compressionValid 0x00000002#32 = true ∧
    decompressionValid 0x00001000#32 = false ∧ feedingStops 0x00001000#32 = true ∧
    sourceTruncated 0x00000000#32 = true ∧ decompressionValid 0x00000002#32 = true ∧
    insertFailed 0x00002002#32 = true := by decide

/-- An idle state after these accesses of the host, a read of STATUS that returned 2, and then these. -/
def afterStatusRead (before later : List InputEvent) : State :=
  { start with inputLog := before ++ [.access (.read 0x104 4) (some 0x00000002#32)] ++ later }

/-- The host wrote the word of a command to CMD. -/
def issued (i : Instr) : InputEvent := .access (.write 0x100 4 (encode i)) none

/-- R223: DONE = 1 before D_START is no successful decode run, after it it is; nor is one whose D_START was undone. -/
theorem test_runSucceeded :
    runSucceeded (afterStatusRead [] []) true = false ∧
    runSucceeded (afterStatusRead [] []) false = true ∧
    runSucceeded (afterStatusRead [issued .dStart] []) true = true ∧
    runSucceeded (afterStatusRead [issued .dStart, issued .dReset] []) true = false := by decide

/-- R223, as P1 and P2 end: RD STATUS and then RD BP_OFF, still to come or made; a staging write changes nothing. -/
theorem test_runEnded :
    runEnded { afterStatusRead [issued .pFlush] [] with script := [.access (.read 0x108 4)] } = true ∧
    runEnded (afterStatusRead [issued .pFlush] [.access (.read 0x108 4) (some 0)]) = true ∧
    runEnded (afterStatusRead [issued .pFlush] [.access (.write 0x110 4 1) none]) = true := by decide

/-- R223: a run has not ended with a command left, with one issued after the read, before a read of STATUS, after a read
that returned BUSY = 1, or after a read of STATUS that was a BAD_ACCESS. -/
theorem test_runEnded_not :
    runEnded { afterStatusRead [] [] with script := [.wait, .access (.write 0x100 4 0)] } = false ∧
    runEnded (afterStatusRead [] [issued .nop]) = false ∧
    runEnded start = false ∧
    runEnded { start with inputLog := [.access (.read 0x104 4) (some 0x00000003#32)] } = false ∧
    runEnded { start with inputLog := [.access (.read 0x104 1) (some 0)] } = false := by decide

/-! ## Witnesses: states and operands that meet the hypotheses of each obligation that has any -/

theorem witness_DecodeOfEncodeIsTheCommand :
    Instr.wellFormed (.pPackCode 1) = true ∧ Instr.wellFormed (.dInsert 0xFF 255) = true ∧
      Instr.wellFormed (.dFeedByte 0xFF) = true := by decide

theorem witness_EncodeOfDecodeIsTheWord : decode 0x00FFFF21#32 = .ok (.dInsert 0xFF 255) := by decide

theorem witness_NoWordMatchesTwoRows :
    0x00FF0011#32 &&& opcodeMask .pPackCode = opcodeMatch .pPackCode := by decide

/-- A clause each: RSVD ≠ 0; no row; a bit the row's mask forbids; L = 0; accepted with L = 1; accepted without L. -/
theorem witness_IllegalWordsRaiseTheirCause :
    start.flight = none ∧
    BitVec.extractLsb' 24 8 0x01000000#32 ≠ 0 ∧
    (BitVec.extractLsb' 24 8 0x00000025#32 = 0 ∧ ∀ r ∈ opcodes, opcodeByte r ≠ BitVec.extractLsb' 0 8 0x00000025#32) ∧
    (opcodeByte .nop = BitVec.extractLsb' 0 8 0x00000100#32 ∧ 0x00000100#32 &&& opcodeMask .nop ≠ opcodeMatch .nop) ∧
    (0x00004114#32 &&& opcodeMask .ctWrite = opcodeMatch .ctWrite ∧ BitVec.extractLsb' 16 8 0x00004114#32 = 0) ∧
    (0x00014114#32 &&& opcodeMask .ctWrite = opcodeMatch .ctWrite ∧ BitVec.extractLsb' 16 8 0x00014114#32 ≠ 0) ∧
    0x00004112#32 &&& opcodeMask .pPackSym = opcodeMatch .pPackSym := by decide

/-- Every row is in the list of rows, so that the second clause of the witness above speaks of all. -/
theorem witness_opcodes_complete : ∀ r : Opcode, r ∈ opcodes := by
  intro r
  cases r <;> decide

theorem witness_CommandWriteWhileBusyIsDropped : (inFlight .pFlush [] pv2).flight ≠ none := by decide

theorem witness_ReadsReturnTheRegisters :
    (0 : Nat) < 8 ∧ 7 < 8 ∧ start.flight = none ∧ (inFlight .nop [] start).flight ≠ none ∧
      0x08 ∈ [0x08, 0x38, 0x3C, 0x40, 0x44, 0x48] ∧ (0x50 ≤ 0x50 ∧ 0x50 < 0x100) ∧ 0x50 ≤ 0xFF ∧ 0xFF < 0x100 := by
  decide

theorem witness_ReservedBitsReadZero :
    (0x4C, 0xFFFFFC00#32) ∈ [(0x04, 0xFFFF000C#32), (0x40, 0xFFFFFE00#32), (0x44, 0xFFFFFC00#32), (0x48, 0xFFFFFE00#32),
      (0x4C, 0xFFFFFC00#32)] := by decide

theorem witness_WritesStoreOrAreRefused : 0x4C ∈ [0x04, 0x08, 0x0C, 0x38, 0x3C, 0x40, 0x44, 0x48, 0x4C] := by decide

theorem witness_StagingRegistersReadBack :
    0x10 ∈ [0x10, 0x14, 0x18, 0x1C, 0x20, 0x24, 0x28, 0x2C, 0x30, 0x34] ∧
      0x34 ∈ [0x10, 0x14, 0x18, 0x1C, 0x20, 0x24, 0x28, 0x2C, 0x30, 0x34] := by decide

/-- A narrow access, an unaligned one, the first offset past the registers and the last of the window. -/
theorem witness_BadAccessRaisesOnlyCf :
    ((0x04 : Nat) < 0x100 ∧ (1 : Nat) ≠ 4) ∧ ((0x12 : Nat) < 0x100 ∧ 0x12 % 4 ≠ 0) ∧ (0x50 : Nat) < 0x100 ∧
      (0xFF : Nat) < 0x100 := by decide

/-- No bit, one, a whole word, one bit more, and the longest code. -/
theorem witness_LdcodeLoadsTheCode :
    ∀ n ∈ [0, 1, 32, 33, 255], (List.replicate n true).length ≤ 255 := by
  intro n hn
  simp only [List.length_replicate]
  revert n
  decide

theorem witness_NopHasNoEffect : (inFlight .nop [] start).flight ≠ none ∧ start.flight = none := by decide

theorem witness_RstKeepsTheWritesIssued :
    (∃ l, (inFlight .pFlush [] pv2).flight = some l ∧ l.outstanding = none) ∧
    got (fun s => s.flight.bind (fun l => l.outstanding)) (exec .pFlush (inFlight .pFlush [] pv2)) =
      some (some (.sink [0xBF, 0xC0])) ∧
    got (fun s => s.flight.bind (fun l => l.outstanding)) (exec (.dFeedBit true) (inFlight (.dFeedBit true) [] (dv1 4))) =
      some (some (.out 0)) := by
  refine ⟨⟨_, rfl, rfl⟩, ?_, ?_⟩ <;> decide

theorem witness_PackerFaultBlocksItsUnit :
    ({ pv2 with packer := { pv2.packer with pf := .noCode } } : State).packer.pf ≠ .none := by decide

/-- A code that ends inside a byte, and one that leaves a single free bit. -/
theorem witness_PackCodeWithinTheBuffer :
    pv2.packer.pf = .none ∧ Memory.wf (0 : Byte) pv2.packer.buf ∧ pv2.packer.off + (1#8).toNat < 8 * pv2.params.cap ∧
      pv2.packer.off + (5#8).toNat < 8 * pv2.params.cap := by decide

/-- A code that fills the buffer exactly, one that needs two flushes, and one that needs none. -/
theorem witness_PackCodePacksItsBits :
    (∃ l, (inFlight (.pPackCode 6) [(.sink [0xBF, 0xFF], .ok)] pv2).flight = some l ∧
      (pv2.packer.off + (6#8).toNat) / (8 * pv2.params.cap) ≤ l.answered.length ∧ ∀ x ∈ l.answered, x.2 = .ok) ∧
    (pv2.packer.off + (22#8).toNat) / (8 * pv2.params.cap) = 2 ∧ (pv2.packer.off + (5#8).toNat) / (8 * pv2.params.cap) = 0 ∧
    pv2.packer.pf = .none ∧ Memory.wf (0 : Byte) pv2.packer.buf ∧ pv2.packer.off < 8 * pv2.params.cap := by
  refine ⟨⟨_, rfl, ?_, ?_⟩, ?_⟩ <;> decide

theorem witness_PackSymPacksItsEntry :
    (∃ l, (inFlight (.pPackSym 0x41) [] pv9).flight = some l ∧
      (pv9.packer.off + (ctEntry pv9.packer.ct 0x41).len.toNat) / (8 * pv9.params.cap) ≤ l.answered.length ∧
      ∀ x ∈ l.answered, x.2 = .ok) ∧
    pv9.packer.pf = .none ∧ Memory.wf (0 : Byte) pv9.packer.buf ∧ pv9.packer.off < 8 * pv9.params.cap ∧
      (ctEntry pv9.packer.ct 0x41).len ≠ 0 := by
  refine ⟨⟨_, rfl, ?_, ?_⟩, ?_⟩ <;> decide

theorem witness_PackSymWithoutCodeRaisesNoCode :
    start.packer.pf = .none ∧ (ctEntry start.packer.ct 0x05).len = 0 := by decide

theorem witness_PackSymIsPackCodeOfTheEntry :
    (∃ l, (inFlight (.pPackSym 0x41) [] pv9).flight = some l) ∧ (ctEntry pv9.packer.ct 0x41).len ≠ 0 ∧
      got (fun s => s.flight) (exec (.pPackSym 0x41) (inFlight (.pPackSym 0x41) [] pv9)) = some none := by
  refine ⟨⟨_, rfl⟩, ?_, ?_⟩ <;> decide

/-- The first flush refused, and the second after one that was answered `ok`. -/
theorem witness_PackCodeSinkErrorIsPrecise :
    pv2.packer.pf = .none ∧ Memory.wf (0 : Byte) pv2.packer.buf ∧ pv2.packer.off < 8 * pv2.params.cap ∧
    (∃ l, (inFlight (.pPackCode 22) ([] ++ (OutputWrite.sink [0xBF, 0xFF], Answer.err) :: []) pv2).flight = some l ∧
      l.answered = [] ++ (.sink [0xBF, 0xFF], .err) :: []) ∧
    8 * pv2.params.cap * (0 + 1) ≤ pv2.packer.off + (6#8).toNat ∧
    8 * pv2.params.cap * (1 + 1) ≤ pv2.packer.off + (22#8).toNat := by
  refine ⟨?_, ?_, ?_, ⟨_, rfl, rfl⟩, ?_, ?_⟩ <;> decide

theorem witness_FlushWritesThePaddedBits :
    start.packer.pf = .none ∧ start.packer.off = 0 ∧ pv2.packer.pf = .none ∧ pv2.packer.off ≠ 0 ∧
      ∀ as ∈ [[], [(.sink [0xBF, 0xC0], .ok)], [(.sink [0xBF, 0xC0], .err)]],
        (inFlight .pFlush as pv2).flight = some { newLatch (encode .pFlush) pv2 with answered := as } := by decide

/-- The packer of PV2 meets the packer's invariant. -/
theorem witness_packerInv : PackerInv pv2.params.cap pv2.packer where
  bufWf := by decide
  bufRange := by decide
  ctWf := by decide
  ctRange := by decide
  offRange := by decide
  offFull := by decide
  clearTail := by decide

theorem witness_SinkWritesCarryOneToCapBytes :
    1 ≤ pv2.params.cap ∧ PackerInv pv2.params.cap pv2.packer ∧
      got (fun s => s.sinkLog.length) (exec .pFlush (inFlight .pFlush [(.sink [0xBF, 0xC0], .ok)] pv2)) = some 1 :=
  ⟨by decide, witness_packerInv, by decide⟩

theorem witness_CtWriteReplacesTheEntry : pv9.packer.pf = .none ∧ Memory.wf CtEntry.empty pv9.packer.ct := by decide

theorem witness_CtClearEmptiesTheTable : pv9.packer.pf = .none := by decide

theorem witness_DecoderFaultBlocksItsUnit :
    ({ oneCodeState with decoder := { oneCode with df := .walkOff } } : State).decoder.df ≠ .none := by decide

theorem witness_DStartLoadsTheLength :
    start.decoder.df = .none ∧ start.flight = none ∧ ∃ l, (inFlight .dStart [] start).flight = some l :=
  ⟨by decide, by decide, _, rfl⟩

/-- The trie with the one code `0` meets the trie's invariant. -/
theorem witness_trieInv : TrieInv 511 oneCode where
  nodeWf := by decide
  nodeRange := by decide
  nodesPos := by decide
  nodesCap := by decide
  codesCap := by decide
  childRange := by
    have : ∀ n, n < 2 → ∀ b, childOf (nodeAt oneCode.node n) b ≠ 0 →
        n < childOf (nodeAt oneCode.node n) b ∧ childOf (nodeAt oneCode.node n) b < 2 := by decide
    exact fun n b hn => this n hn b
  parent := by
    intro m h1 h2
    obtain rfl : m = 1 := by
      have : m < 2 := h2
      omega
    refine ⟨(0, false), ⟨by decide, by decide⟩, ?_⟩
    have : ∀ n, n < 2 → ∀ b, childOf (nodeAt oneCode.node n) b = 1 → (n, b) = (0, false) := by decide
    rintro ⟨n, b⟩ ⟨hn, hc⟩
    exact this n hn b hc
  rootInner := by decide
  leafIff := by decide
  leafCount := by decide

/-- No code that starts with `1` conflicts with the one code `0`. -/
theorem witness_noConflict : ¬ Conflicts oneCode.node (codeBits (code0 0x80000000#32) (1#8).toNat) := by
  rintro ⟨c, hc, h⟩
  have hb : codeBits (code0 0x80000000#32) (1#8).toNat = [true] := by decide
  rw [hb] at h
  match c with
  | [] => exact absurd hc (by decide)
  | false :: c => simp at h
  | true :: c =>
    have : codeSymbol oneCode.node (true :: c) = none := by
      unfold codeSymbol followPath
      rw [if_pos (by decide)]
    rw [this] at hc
    exact absurd hc (by decide)

/-- The code `1` beside the code `0`: one new node, and room for exactly it in a NODE_CAP of 3. -/
theorem witness_InsertAddsTheCode :
    let s : State := { oneCodeState with code := code0 0x80000000#32 }
    s.decoder.df = .none ∧ TrieInv s.params.nodeCap s.decoder ∧ s.decoder.nCodes ≠ 256 ∧ (1#8) ≠ 0 ∧
      ¬ Conflicts s.decoder.node (codeBits (latchedCode s) (1#8).toNat) ∧
      s.decoder.nNodes + ((1#8).toNat - sharedLength s.decoder.node 0 (codeBits (latchedCode s) (1#8).toNat)) = 3 ∧
      3 ≤ s.params.nodeCap :=
  ⟨by decide, witness_trieInv, by decide, by decide, witness_noConflict, by decide, by decide⟩

/-- TOO_MANY_CODES; a conflict of each kind (DV3, DV5); TRIE_FULL with NODE_CAP = 2. -/
theorem witness_InsertFaultsInOrder :
    ({ oneCode with nCodes := 256 } : Decoder).df = .none ∧ ({ oneCode with nCodes := 256 } : Decoder).nCodes = 256 ∧
    oneCode.df = .none ∧ oneCode.nCodes ≠ 256 ∧ TrieInv 511 oneCode ∧
    Conflicts oneCode.node (codeBits (code0 0x40000000#32) (2#8).toNat) ∧
    Conflicts oneCode.node (codeBits CodeWords.zero (1#8).toNat) ∧
    TrieInv 2 oneCode ∧ ¬ Conflicts oneCode.node (codeBits (code0 0x80000000#32) (1#8).toNat) ∧
    2 < oneCode.nNodes + ((1#8).toNat - sharedLength oneCode.node 0 (codeBits (code0 0x80000000#32) (1#8).toNat)) :=
  ⟨by decide, by decide, by decide, by decide, witness_trieInv, ⟨[false], by decide, .inl (by decide)⟩,
    ⟨[false], by decide, .inl (by decide)⟩, { witness_trieInv with nodesCap := by decide }, witness_noConflict, by decide⟩

/-- REMAIN = 0; an absent child; an inner child; a leaf with no answer, `ok` and `err`. -/
theorem witness_FeedBitStepsTheWalk :
    (dv1 0).decoder.df = .none ∧ (dv1 0).decoder.remain = 0 ∧
    (oneCode.df = .none ∧ ({ oneCode with remain := 3 } : Decoder).remain ≠ 0 ∧
      childOf (nodeAt oneCode.node 0) true = 0) ∧
    (childOf (nodeAt [(0, { child0 := 1, child1 := 0, leaf := false, sym := 0 }),
      (1, { child0 := 2, child1 := 0, leaf := false, sym := 0 }), (2, { child0 := 0, child1 := 0, leaf := true, sym := 1 })]
        0) false = 1) ∧
    ((dv1 4).decoder.df = .none ∧ (dv1 4).decoder.remain ≠ 0 ∧ childOf (nodeAt (dv1 4).decoder.node 0) true = 1 ∧
      (nodeAt (dv1 4).decoder.node 1).leaf = true) ∧
    ∀ as ∈ [[], [(.out 0, .ok)], [(.out 0, .err)]],
      (inFlight (.dFeedBit true) as (dv1 4)).flight =
        some { newLatch (encode (.dFeedBit true)) (dv1 4) with answered := as } := by decide

/-- DV1: with its four answers the byte completes bit by bit, with three of them it waits; and eight answers. -/
theorem witness_FeedByteIsEightFeedBits :
    let l := fun n => { newLatch (encode (.dFeedByte 0xE0)) (dv1 4) with answered := List.replicate n (.out 0, .ok) }
    (feedOneByOne (l 4) [true, true, true, false, false, false, false, false] (dv1 4)).isSome = true ∧
    (feedOneByOne (l 3) [true, true, true, false, false, false, false, false] (dv1 4)).isSome = false ∧
    8 ≤ (l 8).answered.length ∧ (inFlight (.dFeedByte 0xE0) (List.replicate 4 (.out 0, .ok)) (dv1 4)).flight =
      some (l 4) := by decide

/-- The frames: a command of each kind that answers a next state. -/
theorem witness_CommandsKeepTheSharedState : ∃ t, exec .nop start = .next t ∧ (Instr.nop ≠ .softReset) :=
  ⟨_, rfl, by decide⟩

theorem witness_UnitsAreIndependent : (∃ t, exec .pReset pv2 = .next t) ∧ ∃ t, exec .dReset oneCodeState = .next t :=
  ⟨⟨_, rfl⟩, _, rfl⟩

theorem witness_RunningKeepsTheTables :
    got (fun s => s.packer.off) (exec (.pPackCode 1) start) = some 1 ∧
    got (fun s => s.packer.off) (exec (.pPackSym 0x41) pv9) = some 2 ∧
    got (fun s => s.packer.off) (exec .pFlush start) = some 0 ∧
    got (fun s => s.decoder.cur) (exec .dStart oneCodeState) = some 0 ∧
    got (fun s => s.decoder.cur) (exec (.dFeedBit true) oneCodeState) = some 0 ∧
    got (fun s => s.decoder.cur) (exec (.dFeedByte 0) oneCodeState) = some 0 := by decide

theorem witness_CausesAreClearedOnlyByResets :
    (accept 0x00000002#32 start).cf ≠ .none ∧
    got (fun s => decide (s.packer.pf ≠ .none)) (exec (.pPackSym 0x05) start) = some true ∧
    got (fun s => decide (s.decoder.df ≠ .none)) (exec (.dInsert 0x02 2) { oneCodeState with code := code0 0x40000000#32 }) =
      some true := by decide

/-- A step that answers a next state from a state in which all three causes are recorded. -/
theorem witness_FirstCauseIsKept :
    let s : State := { pv2 with
      cf := .badLen
      packer := { pv2.packer with pf := .noCode }
      decoder := { oneCode with df := .walkOff }
      turns := [.host] }
    s.cf ≠ .none ∧ s.packer.pf ≠ .none ∧ s.decoder.df ≠ .none ∧ got (fun t => t.cf) (step s) = some .badLen := by decide

theorem witness_HistoriesOnlyGrow :
    got (fun t => t.readLog) (step { start with script := [.access (.read 0x104 4)] }) = some [0x00000002#32] := by decide

theorem witness_WaitingChangesOnlyTheLatch :
    got (fun t => decide (t.flight ≠ none)) (exec .pFlush (inFlight .pFlush [] pv2)) = some true := by decide

/-- A flush that waits, and completes once it is answered. -/
theorem witness_RecordedWriteIsTheOneIssued :
    got (fun t => t.flight.bind (fun l => l.outstanding)) (exec .pFlush (inFlight .pFlush [] pv2)) =
      some (some (.sink [0xBF, 0xC0])) ∧
    got (fun t => t.flight) (exec .pFlush (inFlight .pFlush ([] ++ [(.sink [0xBF, 0xC0], .ok)]) pv2)) = some none ∧
    got (fun t => t.flight.bind (fun l => l.outstanding)) (exec (.dFeedBit true) (inFlight (.dFeedBit true) [] (dv1 4))) =
      some (some (.out 0)) ∧
    got (fun t => t.flight) (exec (.dFeedBit true) (inFlight (.dFeedBit true) ([] ++ [(.out 0, .err)]) (dv1 4))) =
      some none := by decide

theorem witness_StagingWritesMissTheCommandInFlight :
    (Instr.dStart ≠ .softReset ∧ ∃ l t, (inFlight .dStart [] start).flight = some l ∧
      exec .dStart (inFlight .dStart [] start) = .next t) ∧
    ∃ l t, (inFlight .softReset [] start).flight = some l ∧ exec .softReset (inFlight .softReset [] start) = .next t :=
  ⟨⟨by decide, _, _, rfl, rfl⟩, _, _, rfl, rfl⟩

theorem witness_AnsweredCommandsComplete :
    ∃ l, (inFlight .pFlush (List.replicate 255 (.sink [0xBF, 0xC0], .ok)) pv2).flight = some l ∧ 255 ≤ l.answered.length := by
  refine ⟨_, rfl, ?_⟩
  show 255 ≤ (List.replicate 255 _).length
  rw [List.length_replicate]

theorem witness_BlockTurnRunsTheLatchedCommand :
    (∃ l, (inFlight .pFlush [] pv2).flight = some l ∧ l.outstanding = none ∧ decode l.word = .ok .pFlush) ∧
    got (fun t => t.flight.bind (fun l => l.outstanding)) (exec .pFlush (inFlight .pFlush [] pv2)) =
      some (some (.sink [0xBF, 0xC0])) ∧ start.flight = none := by
  refine ⟨⟨_, rfl, rfl, ?_⟩, ?_, ?_⟩ <;> decide

theorem witness_CommandWriteRunsTheDecodedCommand :
    let s : State := { start with script := [.access (.write start.params.base 4 0x00010011#32)] }
    s.flight = none ∧ s.turns = [] ∧ s.script = .access (.write s.params.base 4 0x00010011#32) :: [] ∧
      decode 0x00010011#32 = .ok (.pPackCode 1) ∧ decode 0x00000011#32 = .error .badLen := by decide

theorem witness_SinksAnswerTheWaitingWrite :
    ∃ l k, ({ pv2 with
      sinkAnswers := [.ok]
      outAnswers := [.err]
      flight := some { newLatch (encode .pFlush) pv2 with outstanding := some (.sink [0xBF, 0xC0]) } } : State).flight =
        some l ∧ l.outstanding = some (.sink [0xBF, 0xC0]) ∧
      ({ dv1 4 with
        outAnswers := [.err]
        flight := some { newLatch (encode (.dFeedBit true)) (dv1 4) with outstanding := some (.out 0) } } : State).flight =
        some k ∧ k.outstanding = some (.out 0) :=
  ⟨_, _, rfl, rfl, rfl, rfl⟩

theorem witness_InvariantHoldsAtReset : Params.default.wf := by decide

/-- The state of PV2 with the trie `0` meets the machine's invariant. -/
theorem witness_inv : Inv { pv2 with decoder := oneCode } where
  params := by decide
  packer := witness_packerInv
  trie := witness_trieInv
  walk := { curRange := by decide, curInner := by decide, curRoot := by decide }
  latch := by
    intro l h
    cases h

theorem witness_StepKeepsTheInvariant :
    Inv { pv2 with decoder := oneCode } ∧ ∃ t, step { pv2 with decoder := oneCode } = .next t :=
  ⟨witness_inv, _, rfl⟩

/-- No path of the trie `0` is longer than one bit. -/
theorem witness_StepKeepsTheDepthBound : DepthInv oneCode.node ∧ DepthInv start.decoder.node := by
  constructor
  · intro bits n h
    match bits with
    | [] => decide
    | [b] => simp
    | true :: b :: bs => simp [followPath, oneCode, nodeAt, Memory.read, childOf, Node.blank] at h
    | false :: b :: bs => cases b <;> simp [followPath, oneCode, nodeAt, Memory.read, childOf, Node.blank] at h
  · intro bits n h
    match bits with
    | [] => decide
    | b :: bs =>
      cases b <;> simp [followPath, start, State.powerUp, Decoder.reset, nodeAt, Memory.read, childOf, Node.blank] at h

theorem witness_EveryStepHasANextState : LatchInv (inFlight .pFlush [] pv2) := by
  intro l h
  cases h
  exact ⟨.pFlush, by decide⟩

/-- Nine bits and ten answers. -/
theorem witness_StreamLaw :
    (1 : Nat) ≤ 2 ∧ (∀ a ∈ List.replicate 10 Answer.ok, a = .ok) ∧
      [List.replicate 7 true, [true, false]].flatten.length < (List.replicate 10 Answer.ok).length := by decide

theorem witness_DecodeLaw :
    TrieInv 511 oneCode ∧ (∀ x ∈ [(1 : Byte), 1], codeSymbol oneCode.node [false] = some x) ∧
      [(1 : Byte), 1].length < 2 ^ 64 ∧ (∀ a ∈ [Answer.ok, .ok], a = .ok) ∧
      [(1 : Byte), 1].length ≤ [Answer.ok, .ok].length :=
  ⟨witness_trieInv, by decide, by decide, by decide, by decide⟩

theorem witness_PackThenDecodeGivesTheSymbols :
    let ct : List (Nat × CtEntry) := [(1, { len := 1, bits := CodeWords.zero })]
    (1 : Nat) ≤ 2 ∧ TrieInv 511 oneCode ∧
    (∀ x ∈ [(1 : Byte)], (ctEntry ct x).len ≠ 0 ∧
      codeSymbol oneCode.node (codeBits (ctEntry ct x).bits (ctEntry ct x).len.toNat) = some x) ∧
    [(1 : Byte)].length < 2 ^ 64 ∧ (∀ a ∈ [Answer.ok], a = .ok) ∧ (∃ oks : List Answer, (∀ a ∈ oks, a = .ok) ∧
      255 * [(1 : Byte)].length < oks.length) ∧ [(1 : Byte)].length ≤ [Answer.ok].length := by
  refine ⟨by decide, witness_trieInv, by decide, by decide, by decide, ⟨List.replicate 256 .ok, ?_, ?_⟩, by decide⟩
  · intro a h
    exact List.eq_of_mem_replicate h
  · rw [List.length_replicate]
    decide

/-- A read of STATUS, a WAIT, a read of BP_OFF after a confirmed STATUS, and a CMD write. -/
theorem witness_StatusReadEndsTheRun :
    start.flight = none ∧ start.turns = [] ∧ start.params.base + 0x04 = 0x104 ∧
    ({ start with script := [.access (.read 0x104 4)] } : State).script = .access (.read 0x104 4) :: [] ∧
    (∀ w, HostOp.access (.read 0x104 4) ≠ .access (.write start.params.base 4 w)) ∧
    (∀ w, HostOp.wait ≠ .access (.write start.params.base 4 w)) ∧
    (∀ w, HostOp.access (.read 0x108 4) ≠ .access (.write start.params.base 4 w)) ∧
    statusConfirmed (afterStatusRead [] []) = true ∧
    got runEnded (step { start with script := [.access (.write 0x100 4 0)] }) = some false :=
  ⟨by decide, by decide, by decide, rfl, fun _ => nofun, fun _ => nofun, fun _ => nofun, by decide, by decide⟩

end Sys2Proof.Tests
end

section
/-! The turns of the block and of the two sinks (00_scope.md R4): what a sink's turn does when it has an answer for
the write that waits, and the statements on the three turns. -/

namespace Sys2Proof.Machine

/-- A step of a machine whose schedule is put to begin with the turn `t`. -/
theorem step_scheduled (t : Turn) (rest : List Turn) (s : State) :
    step { s with turns := t :: rest } = takeTurn t { s with turns := rest } :=
  step_turn rfl

/-- The packer sink's turn with a SinkWrite waiting and an answer to give (20_memory.md R66). -/
theorem packerSinkTurn_answers {s : State} {l : Latch} {bytes : List Byte} {a : Answer} {more : List Answer}
    (hf : s.flight = some l) (ho : l.outstanding = some (.sink bytes)) (ha : s.sinkAnswers = a :: more) :
    packerSinkTurn s = answerWrite l (.sink bytes) a { s with sinkAnswers := more } := by
  unfold packerSinkTurn
  rw [hf, ha]
  simp only [ho]

/-- The output sink's turn with an OutWrite waiting and an answer to give (20_memory.md R67). -/
theorem outSinkTurn_answers {s : State} {l : Latch} {byte : Byte} {a : Answer} {more : List Answer}
    (hf : s.flight = some l) (ho : l.outstanding = some (.out byte)) (ha : s.outAnswers = a :: more) :
    outSinkTurn s = answerWrite l (.out byte) a { s with outAnswers := more } := by
  unfold outSinkTurn
  rw [hf, ha]
  simp only [ho]

/-- Settles O47: the scheduled step is the block's turn, in its three cases. -/
theorem blockTurnRunsTheLatchedCommand : Obligations.BlockTurnRunsTheLatchedCommand := by
  intro s rest
  have turn : step { s with turns := .block :: rest } = blockTurn { s with turns := rest } :=
    step_scheduled .block rest s
  refine ⟨fun l i hf ho hd => ?runs, fun l w hf ho => ?waits, fun hf => ?idle⟩
  case runs => exact turn.trans (blockTurn_runs hf ho hd)
  case waits => exact turn.trans (blockTurn_waits hf ho)
  case idle => exact turn.trans (blockTurn_idle hf)

/-- Settles O49: the scheduled step is the sink's turn, and that sink's write waits for its next answer. -/
theorem sinksAnswerTheWaitingWrite : Obligations.SinksAnswerTheWaitingWrite := by
  intro s l a more rest hf
  refine ⟨fun bytes ho ha => ?sink, fun byte ho ha => ?out⟩
  case sink =>
    rw [step_scheduled]
    exact congrArg Host.Outcome.next (packerSinkTurn_answers hf ho ha)
  case out =>
    rw [step_scheduled]
    exact congrArg Host.Outcome.next (outSinkTurn_answers hf ho ha)

end Sys2Proof.Machine
end

section
/-! What one access of the host can do, and how a property that every agent's move keeps is kept by a step
(00_scope.md R4): the inversion lemmas the whole-machine statements rest on. -/

namespace Sys2Proof.Machine

/-- The ways an access of the host can end (10_state.md R22, 42_global.md R172, R173). -/
inductive AccessResult (s : State) : State → Prop
  /-- An access outside the window. -/
  | outside : AccessResult s s
  /-- An admitted read; `n` is the count of drawn values after it. -/
  | returns (v : Word) (n : Nat) : AccessResult s { returnValue v s with draws := n }
  /-- A read that is BAD_ACCESS (20_memory.md R68). -/
  | badRead (c : CfCause) : AccessResult s (returnValue 0 (raiseCf c s))
  /-- A write that is refused, or a command word that is dropped (30_encoding.md R102). -/
  | refused (c : CfCause) : AccessResult s (raiseCf c s)
  /-- A write to a staging register (10_state.md R27, R28). -/
  | stages (code : CodeWords) (lo hi : Word) : AccessResult s { s with code := code, lenLo := lo, lenHi := hi }
  /-- A command word that is accepted (30_encoding.md R102). -/
  | latches (w : Word) (i : Instr) (hf : s.flight = none) (hd : decode w = .ok i) : AccessResult s (latchCommand w s)

/-- An admitted read returns a value. -/
theorem readRegister_result (r : Reg) (s : State) : AccessResult s (readRegister r s) := by
  unfold readRegister
  split
  · exact .returns _ _
  · exact .returns _ s.draws

/-- An admitted write is a command word, is staged, or is refused. -/
theorem writeRegister_result (r : Reg) (v : Word) (s : State) : AccessResult s (writeRegister r v s) := by
  cases r with
  | cmd =>
    rcases accept_cases v s with ⟨c, e⟩ | ⟨hf, i, hd, e⟩ <;> rw [writeRegister, e]
    · exact .refused c
    · exact .latches v i hf hd
  | code k => exact .stages _ _ _
  | lenLo => exact .stages _ _ _
  | lenHi => exact .stages _ _ _
  | _ => exact .refused .badAccess

/-- What an access of the host can do. -/
theorem busAccess_result (a : Access) (s : State) : AccessResult s (busAccess a s) := by
  cases a with
  | read addr width =>
    simp only [busAccess, readWindow]
    split
    · split
      · exact readRegister_result _ s
      · exact .badRead .badAccess
    · exact .outside
  | write addr width v =>
    simp only [busAccess, writeWindow]
    split
    · split
      · exact writeRegister_result _ v s
      · exact .refused .badAccess
    · exact .outside

/-- The packer sink's turn: nothing, or the answer to the SinkWrite that waits (20_memory.md R66). -/
theorem packerSinkTurn_cases (s : State) :
    packerSinkTurn s = s ∨
    ∃ l w a more, s.flight = some l ∧ l.outstanding = some w ∧
      packerSinkTurn s = answerWrite l w a { s with sinkAnswers := more } := by
  unfold packerSinkTurn
  split
  · split
    · exact .inr ⟨_, _, _, _, ‹_›, ‹_›, rfl⟩
    · exact .inl rfl
    · exact .inl rfl
  · exact .inl rfl

/-- The output sink's turn: nothing, or the answer to the OutWrite that waits (20_memory.md R67). -/
theorem outSinkTurn_cases (s : State) :
    outSinkTurn s = s ∨
    ∃ l w a more, s.flight = some l ∧ l.outstanding = some w ∧
      outSinkTurn s = answerWrite l w a { s with outAnswers := more } := by
  unfold outSinkTurn
  split
  · split
    · exact .inr ⟨_, _, _, _, ‹_›, ‹_›, rfl⟩
    · exact .inl rfl
    · exact .inl rfl
  · exact .inl rfl

/-- The block's turn: nothing, or the execution of the command in flight (30_encoding.md R102). -/
theorem blockTurn_cases {s t : State} (h : blockTurn s = .next t) :
    t = s ∨ ∃ l i, s.flight = some l ∧ l.outstanding = none ∧ decode l.word = .ok i ∧ exec i s = .next t := by
  unfold blockTurn at h
  split at h
  · cases h; exact .inl rfl
  · split at h
    · cases h; exact .inl rfl
    · split at h
      · exact .inr ⟨_, _, ‹_›, ‹_›, ‹_›, h⟩
      · cases h

/-- Abandoning a command only adds to the two histories, and counts drawn values (70_reset_and_hazards.md R211). -/
theorem abandonWrites_frame (s : State) :
    ∃ sinks outs draws, abandonWrites s =
      { s with sinkLog := s.sinkLog ++ sinks, outLog := s.outLog ++ outs, draws := draws } := by
  unfold abandonWrites
  split
  · exact ⟨[], [], s.draws, by simp⟩
  · split
    · exact ⟨_, _, s.draws, rfl⟩
    · exact ⟨_, _, _, by rw [List.append_assoc]⟩
    · exact ⟨_, _, _, by rw [List.append_assoc]⟩

/-- Every move of an agent keeps `P`: the move of the schedule, an access with its record, the execution of the command
in flight, a sink's answer, and `rst`. -/
structure KeptByMoves (P : State → Prop) : Prop where
  schedule : ∀ s rest, P s → P { s with turns := rest }
  access : ∀ s ops a, P s → P (hostAccess a { s with script := ops })
  exec : ∀ s t l i, s.flight = some l → exec i s = .next t → P s → P t
  sinkAnswer : ∀ s l w a more, s.flight = some l → P s → P (answerWrite l w a { s with sinkAnswers := more })
  outAnswer : ∀ s l w a more, s.flight = some l → P s → P (answerWrite l w a { s with outAnswers := more })
  rst : ∀ s, P s → P (rstTurn s)

namespace KeptByMoves

variable {P : State → Prop} (k : KeptByMoves P) {s t : State}
include k

/-- The host's turn keeps what every move keeps. -/
theorem hostTurn (h : P s) : P (hostTurn s) := by
  rcases hostTurn_cases s with ⟨-, e⟩ | ⟨a, rest, -, e⟩ | ⟨rest, more, -, -, e⟩ <;> rw [e]
  · exact h
  · exact k.access s rest a h
  · exact k.access s more _ h

/-- The block's turn keeps what every move keeps. -/
theorem blockTurn (e : blockTurn s = .next t) (h : P s) : P t := by
  rcases blockTurn_cases e with rfl | ⟨l, i, hf, -, -, e⟩
  · exact h
  · exact k.exec s t l i hf e h

/-- The packer sink's turn keeps what every move keeps. -/
theorem packerSinkTurn (h : P s) : P (packerSinkTurn s) := by
  rcases packerSinkTurn_cases s with e | ⟨l, w, a, more, hf, -, e⟩ <;> rw [e]
  · exact h
  · exact k.sinkAnswer s l w a more hf h

/-- The output sink's turn keeps what every move keeps. -/
theorem outSinkTurn (h : P s) : P (outSinkTurn s) := by
  rcases outSinkTurn_cases s with e | ⟨l, w, a, more, hf, -, e⟩ <;> rw [e]
  · exact h
  · exact k.outAnswer s l w a more hf h

/-- The synchronous turn keeps what every move keeps (log entry 3). -/
theorem syncTurn (e : syncTurn s = .next t) (h : P s) : P t := by
  unfold Machine.syncTurn at e
  split at e
  · exact k.blockTurn e (k.hostTurn h)
  · split at e
    · exact k.blockTurn e h
    · cases e
      split
      · exact k.hostTurn h
      · exact k.packerSinkTurn h
    · cases e
      split
      · exact k.hostTurn h
      · exact k.outSinkTurn h

/-- One agent's move keeps what every move keeps. -/
theorem takeTurn {turn : Turn} (e : takeTurn turn s = .next t) (h : P s) : P t := by
  cases turn with
  | sync => exact k.syncTurn e h
  | host => cases e; exact k.hostTurn h
  | block => exact k.blockTurn e h
  | packerSink => cases e; exact k.packerSinkTurn h
  | outSink => cases e; exact k.outSinkTurn h
  | rst => cases e; exact k.rst s h

/-- A step keeps what every move keeps. -/
theorem step (e : step s = .next t) (h : P s) : P t := by
  cases hs : s.turns with
  | nil => exact k.syncTurn (step_sync hs ▸ e) h
  | cons turn rest => exact k.takeTurn (step_turn hs ▸ e) (k.schedule s rest h)

end KeptByMoves

end Sys2Proof.Machine
end

section
/-! The packer's invariant (10_state.md R36, 40_packer.md R120) through each operation of the packer unit, and through
every command. -/

namespace Sys2Proof.Safety

open Sys2Proof.Machine

variable {cap : Nat} {p : Packer}

/-- The bound on OFF in the form the packing loop needs: with PF = 0 there is room for a bit (10_state.md R36). -/
theorem PackerInv.off_lt (h : PackerInv cap p) (hp : p.pf = .none) : p.off < 8 * cap :=
  lt_of_le_of_ne h.offRange (fun e => absurd (h.offFull e) (by simp [hp]))

/-- Raising PF keeps the invariant: a cause recorded before stays (60_exceptions.md R184). -/
theorem PackerInv.raise (h : PackerInv cap p) (c : PfCause) : PackerInv cap (raisePf c p) where
  bufWf := h.bufWf
  bufRange := h.bufRange
  ctWf := h.ctWf
  ctRange := h.ctRange
  offRange := h.offRange
  offFull e := by simp [h.offFull e]
  clearTail := h.clearTail

/-- A cleared buffer meets the invariant, whatever PF is. -/
theorem PackerInv.cleared (h : PackerInv cap p) (hc : 1 ≤ cap) (c : PfCause) :
    PackerInv cap { p with buf := [], off := 0, pf := c } where
  bufWf := Memory.wf_nil
  bufRange := by simp
  ctWf := h.ctWf
  ctRange := h.ctRange
  offRange := Nat.zero_le _
  offFull (e : 0 = 8 * cap) := by omega
  clearTail := by simp

/-- A code table in canonical form may take the place of CT (10_state.md R38). -/
theorem PackerInv.withCt (h : PackerInv cap p) {ct : List (Nat × CtEntry)} (hw : Memory.wf CtEntry.empty ct)
    (hr : ∀ c ∈ ct, c.1 < 256) : PackerInv cap { p with ct := ct } :=
  { h with ctWf := hw, ctRange := hr }

/-- The bit placed at OFF (40_packer.md R111): the invariant holds with OFF one higher, if PF is SINK_ERROR in case the
buffer is now full. -/
theorem PackerInv.placed (h : PackerInv cap p) (hlt : p.off < 8 * cap) (b : Bool) {c : PfCause}
    (hc : p.off + 1 = 8 * cap → c = .sinkError) :
    PackerInv cap { p with buf := setBufBit p.buf p.off b, off := p.off + 1, pf := c } where
  bufWf := wf_setBufBit h.bufWf _ _
  bufRange := range_setBufBit h.bufRange hlt _
  ctWf := h.ctWf
  ctRange := h.ctRange
  offRange := hlt
  offFull := hc
  clearTail q (hq : p.off + 1 ≤ q) hq8 :=
    (bufBit_setBufBit_other h.bufWf (by omega) b).trans (h.clearTail q (by omega) hq8)

/-- The unit `p` with the BUF and OFF of a run. -/
def packerOfRun (p : Packer) (r : PackRun) : Packer := { p with buf := r.buf, off := r.off }

/-- A command that gets as far as this leaves the unit, which was `p` before it, within the invariant. -/
def PackKeepsInv (cap : Nat) (p : Packer) : Progress PackRun PfCause → Prop
  | .running r => PackerInv cap (packerOfRun p r)
  | .raised r c => PackerInv cap (raisePf c (packerOfRun p r))
  | .waiting _ => True

/-- One part of a command after another. -/
theorem PackKeepsInv.andThen {q : Progress PackRun PfCause} {f : PackRun → Progress PackRun PfCause}
    (hq : PackKeepsInv cap p q) (hf : ∀ r, PackerInv cap (packerOfRun p r) → PackKeepsInv cap p (f r)) :
    PackKeepsInv cap p (q.andThen f) := by
  cases q with
  | running r => exact hf r hq
  | raised r c => exact hq
  | waiting w => trivial

/-- PackBit (40_packer.md R111, R112): the bit has room, and a full buffer is flushed or held with SINK_ERROR. -/
theorem packBit_keepsInv (hc : 1 ≤ cap) (hp : p.pf = .none) (b : Bool) {r : PackRun}
    (h : PackerInv cap (packerOfRun p r)) : PackKeepsInv cap p (packBit cap b r) := by
  have hlt : r.off < 8 * cap := h.off_lt hp
  by_cases hfull : r.off + 1 = 8 * cap
  · rw [packBit_fill b hfull]
    rcases fillFlush_cases cap (placeBit b r) with ⟨-, e⟩ | ⟨rest, -, e⟩ | ⟨rest, -, e⟩ <;> rw [e]
    · trivial
    · exact h.cleared hc p.pf
    · have held := h.placed hlt b (c := .sinkError) (fun _ => rfl)
      simpa [PackKeepsInv, raisePf, packerOfRun, placeBit, hp] using held
  · rw [packBit_place b hfull]
    exact h.placed hlt b (fun e => absurd e hfull)

/-- PackBit of each bit in turn (40_packer.md R114). -/
theorem packBits_keepsInv (hc : 1 ≤ cap) (hp : p.pf = .none) (bits : List Bool) {r : PackRun}
    (h : PackerInv cap (packerOfRun p r)) : PackKeepsInv cap p (packBits cap bits r) := by
  induction bits generalizing r with
  | nil => exact h
  | cons b bs ih => exact (packBit_keepsInv hc hp b h).andThen (fun _ hr => ih hr)

/-- The run of P_PACK_SYM (40_packer.md R115). -/
theorem packEntry_keepsInv (hc : 1 ≤ cap) (hp : p.pf = .none) (e : CtEntry) {r : PackRun}
    (h : PackerInv cap (packerOfRun p r)) : PackKeepsInv cap p (packEntry cap e r) := by
  unfold packEntry
  split
  · exact h.raise .noCode
  · exact packBits_keepsInv hc hp _ h

/-- The final flush (40_packer.md R116): the buffer is cleared, or held as it was. -/
theorem finalFlush_keepsInv (hc : 1 ≤ cap) {r : PackRun} (h : PackerInv cap (packerOfRun p r)) :
    PackKeepsInv cap p (finalFlush r) := by
  by_cases h0 : (r.off + 7) / 8 = 0
  · rw [finalFlush, if_pos h0]
    exact h.cleared hc p.pf
  · rcases finalFlush_cases h0 with ⟨-, e⟩ | ⟨rest, -, e⟩ | ⟨rest, -, e⟩ <;> rw [e]
    · trivial
    · exact h.cleared hc p.pf
    · exact h.raise .sinkError

/-- A command that packs or flushes, from its run to the state it leaves. -/
theorem PackKeepsInv.settle {i : Instr} {s t : State} {q : PackRun → Progress PackRun PfCause}
    (hq : s.packer.pf = .none → PackerInv cap s.packer → PackKeepsInv cap s.packer (q (startPack s)))
    (inv : PackerInv cap s.packer) (e : unlessPackerFault s (settlePack i s (q (startPack s))) = .next t) :
    PackerInv cap t.packer := by
  rcases unlessPackerFault_cases e with ⟨hp, e⟩ | ⟨-, rfl⟩
  · have run := hq hp inv
    rcases settlePack_cases i s (q (startPack s)) with ⟨r, hr, e'⟩ | ⟨r, c, hr, e'⟩ | ⟨w, -, e'⟩ <;>
      rw [e'] at e <;> cases e
    · rw [hr] at run; exact run
    · rw [hr] at run; exact run
    · exact inv
  · exact inv

/-- A packer command that writes the packer unit at once. -/
theorem PackerInv.ofWrite {s t : State} {k : Packer} (hk : PackerInv cap k) (inv : PackerInv cap s.packer)
    (e : unlessPackerFault s (.next (complete { s with packer := k })) = .next t) : PackerInv cap t.packer := by
  rcases unlessPackerFault_cases e with ⟨-, e⟩ | ⟨-, rfl⟩
  · cases e; exact hk
  · exact inv

/-- Every packer command keeps the packer's invariant. -/
theorem exec_packerCommand_keepsInv {i : Instr} {s t : State} (hi : IsPackerCommand i) (hc : 1 ≤ s.params.cap)
    (inv : PackerInv s.params.cap s.packer) (e : exec i s = .next t) : PackerInv s.params.cap t.packer := by
  rcases hi with rfl | ⟨len, rfl⟩ | ⟨sym, rfl⟩ | rfl | ⟨sym, len, rfl⟩ | rfl
  · cases e
    exact inv.cleared hc .none
  · exact PackKeepsInv.settle (fun hp h => packBits_keepsInv hc hp _ h) inv e
  · exact PackKeepsInv.settle (fun hp h => packEntry_keepsInv hc hp _ h) inv e
  · exact PackKeepsInv.settle (fun _ h => finalFlush_keepsInv hc h) inv e
  · exact .ofWrite (inv.withCt (Memory.wf_write inv.ctWf _ _) (Memory.range_write inv.ctRange sym.isLt _)) inv e
  · exact .ofWrite (inv.withCt Memory.wf_nil (by simp)) inv e

end Sys2Proof.Safety
end

section
/-! The trie through an insertion (41_decoder.md R142, R146). While D_INSERT allocates, one node breaks R142 (c): the
node it stands at, which is to get a child or to become the leaf. `GrowingTrie` is the invariant without that node. -/

namespace Sys2Proof.Machine

variable {d : Decoder} {n m : Nat}

/-- A slot from NNODES up reads as a blank node (10_state.md R39). -/
theorem nodeAt_unallocated (hr : ∀ c ∈ d.node, c.1 < d.nNodes) (hm : d.nNodes ≤ m) : nodeAt d.node m = Node.blank :=
  Memory.read_unlisted (fun c hc => by have := hr c hc; omega)

/-- A blank node has no child. -/
@[simp] theorem childOf_blank (b : Bool) : childOf Node.blank b = 0 := by cases b <;> rfl

/-- A blank node is no leaf. -/
@[simp] theorem blank_leaf : Node.blank.leaf = false := rfl

/-- A node with both children absent, in the form that speaks of either child (41_decoder.md R141). -/
theorem childOf_eq_zero_iff (x : Node) : (∀ b, childOf x b = 0) ↔ x.child0 = 0 ∧ x.child1 = 0 := by
  simp [childOf]

/-- Setting child `b` and no other. -/
theorem childOf_setChild (x : Node) (b c : Bool) (k : Nat) :
    childOf (setChild x b k) c = if c = b then k else childOf x c := by
  cases b <;> cases c <;> rfl

/-- The nodes after one turn of the allocating loop: node `n` has the new child, every other slot reads as before. -/
theorem nodeAt_allocChild (hw : Memory.wf Node.blank d.node) (hr : ∀ c ∈ d.node, c.1 < d.nNodes)
    (b : Bool) (m : Nat) :
    nodeAt (allocChild n b d).node m = if m = n then setChild (nodeAt d.node n) b d.nNodes else nodeAt d.node m := by
  have fresh : ∀ k, nodeAt (setNodeAt d.node d.nNodes Node.blank) k = nodeAt d.node k := by
    intro k
    by_cases hk : k = d.nNodes
    · rw [hk, nodeAt_unallocated hr le_rfl]
      exact Memory.read_write_same hw _ _
    · exact Memory.read_write_other _ hk _
  by_cases hm : m = n
  · rw [if_pos hm, hm, ← fresh n]
    exact Memory.read_write_same (Memory.wf_write hw _ _) _ _
  · rw [if_neg hm, ← fresh m]
    exact Memory.read_write_other _ hm _

/-- The children after one turn of the allocating loop. -/
theorem childOf_allocChild (hw : Memory.wf Node.blank d.node) (hr : ∀ c ∈ d.node, c.1 < d.nNodes)
    (b : Bool) (m : Nat) (c : Bool) :
    childOf (nodeAt (allocChild n b d).node m) c =
      if m = n ∧ c = b then d.nNodes else childOf (nodeAt d.node m) c := by
  rw [nodeAt_allocChild hw hr]
  by_cases hm : m = n <;> simp [hm, childOf_setChild]

/-- One turn of the allocating loop makes no leaf. -/
theorem leaf_allocChild (hw : Memory.wf Node.blank d.node) (hr : ∀ c ∈ d.node, c.1 < d.nNodes)
    (b : Bool) (m : Nat) : (nodeAt (allocChild n b d).node m).leaf = (nodeAt d.node m).leaf := by
  rw [nodeAt_allocChild hw hr]
  by_cases hm : m = n <;> simp [hm]

/-- The nodes after the leaf is placed. -/
theorem nodeAt_placeLeaf (hw : Memory.wf Node.blank d.node) (sym : Byte) (n m : Nat) :
    nodeAt (placeLeaf sym n d).node m =
      if m = n then { nodeAt d.node n with leaf := true, sym := sym } else nodeAt d.node m := by
  by_cases hm : m = n
  · rw [if_pos hm, hm]
    exact Memory.read_write_same hw _ _
  · rw [if_neg hm]
    exact Memory.read_write_other _ hm _

/-- Placing the leaf changes no child. -/
theorem childOf_placeLeaf (hw : Memory.wf Node.blank d.node) (sym : Byte) (n m : Nat) (c : Bool) :
    childOf (nodeAt (placeLeaf sym n d).node m) c = childOf (nodeAt d.node m) c := by
  rw [nodeAt_placeLeaf hw]
  by_cases hm : m = n <;> simp [hm, childOf]

/-- The one leaf that placing makes. -/
theorem leaf_placeLeaf (hw : Memory.wf Node.blank d.node) (sym : Byte) (n m : Nat) :
    (nodeAt (placeLeaf sym n d).node m).leaf = if m = n then true else (nodeAt d.node m).leaf := by
  rw [nodeAt_placeLeaf hw]
  by_cases hm : m = n <;> simp [hm]

/-- Allocating leaves everything of the decoder but NODE and NNODES, which grows by the bits placed. -/
theorem allocPath_frame (n : Nat) (bits : List Bool) (d : Decoder) :
    (allocPath n bits d).1 =
      { d with node := (allocPath n bits d).1.node, nNodes := d.nNodes + bits.length } := by
  induction bits generalizing n d with
  | nil => rfl
  | cons b bs ih =>
    have step := ih d.nNodes (allocChild n b d)
    rw [show allocPath n (b :: bs) d = allocPath d.nNodes bs (allocChild n b d) from rfl, step]
    simp [allocChild, Nat.add_comm bs.length, Nat.add_assoc]

@[simp] theorem allocPath_nNodes (n : Nat) (bits : List Bool) (d : Decoder) :
    (allocPath n bits d).1.nNodes = d.nNodes + bits.length := by rw [allocPath_frame]

@[simp] theorem allocPath_nCodes (n : Nat) (bits : List Bool) (d : Decoder) :
    (allocPath n bits d).1.nCodes = d.nCodes := by rw [allocPath_frame]

@[simp] theorem allocPath_cur (n : Nat) (bits : List Bool) (d : Decoder) :
    (allocPath n bits d).1.cur = d.cur := by rw [allocPath_frame]

@[simp] theorem allocPath_remain (n : Nat) (bits : List Bool) (d : Decoder) :
    (allocPath n bits d).1.remain = d.remain := by rw [allocPath_frame]

end Sys2Proof.Machine

namespace Sys2Proof.Safety

open Sys2Proof.Machine

variable {d : Decoder} {n m nodeCap : Nat}

/-- The trie's invariant while D_INSERT stands at the inner node `n`: `TrieInv` with nothing said of the children of
`n`, and without the bounds that D_INSERT checks beforehand (41_decoder.md R142, R146). -/
structure GrowingTrie (d : Decoder) (n : Nat) : Prop where
  nodeWf : Memory.wf Node.blank d.node
  nodeRange : ∀ c ∈ d.node, c.1 < d.nNodes
  childRange : ∀ m b, m < d.nNodes → childOf (nodeAt d.node m) b ≠ 0 →
    m < childOf (nodeAt d.node m) b ∧ childOf (nodeAt d.node m) b < d.nNodes
  parent : ∀ m, 1 ≤ m → m < d.nNodes → ∃! x : Nat × Bool, x.1 < d.nNodes ∧ childOf (nodeAt d.node x.1) x.2 = m
  rootInner : (nodeAt d.node 0).leaf = false
  leafIff : ∀ m, 1 ≤ m → m < d.nNodes → m ≠ n →
    ((nodeAt d.node m).leaf = true ↔ (nodeAt d.node m).child0 = 0 ∧ (nodeAt d.node m).child1 = 0)
  leafCount : leafCount d = d.nCodes
  allocated : n < d.nNodes
  inner : (nodeAt d.node n).leaf = false

/-- A growing trie whose node `n` is the last allocated one and still blank. -/
structure FreshTip (d : Decoder) (n : Nat) : Prop extends GrowingTrie d n where
  last : n + 1 = d.nNodes
  notRoot : 1 ≤ n
  blank : nodeAt d.node n = Node.blank

/-- A trie under its invariant may grow at any of its inner nodes. -/
theorem TrieInv.growing (h : TrieInv nodeCap d) (hn : n < d.nNodes) (hl : (nodeAt d.node n).leaf = false) :
    GrowingTrie d n :=
  { h with leafIff := fun m h1 h2 _ => h.leafIff m h1 h2, allocated := hn, inner := hl }

/-- The trie's invariant speaks of NODE, NNODES and NCODES only. -/
theorem TrieInv.congr {d' : Decoder} (h : TrieInv nodeCap d) (hnode : d'.node = d.node) (hn : d'.nNodes = d.nNodes)
    (hc : d'.nCodes = d.nCodes) : TrieInv nodeCap d' := by
  obtain ⟨node, nNodes, nCodes, cur, remain, df⟩ := d'
  obtain rfl : node = d.node := hnode
  obtain rfl : nNodes = d.nNodes := hn
  obtain rfl : nCodes = d.nCodes := hc
  exact { h with }

/-- One more slot that is no leaf leaves the number of leaves. -/
theorem leafCount_allocChild (h : GrowingTrie d n) (b : Bool) : leafCount (allocChild n b d) = leafCount d := by
  have same := leaf_allocChild h.nodeWf h.nodeRange (n := n) b
  unfold leafCount
  simp only [same]
  rw [show (allocChild n b d).nNodes = d.nNodes + 1 from rfl, List.range_succ]
  simp [nodeAt_unallocated h.nodeRange le_rfl]

/-- One turn of the allocating loop, from a node whose child `b` is absent: the new node is the tip. -/
theorem GrowingTrie.allocChild (h : GrowingTrie d n) {b : Bool} (hb : childOf (nodeAt d.node n) b = 0) :
    FreshTip (allocChild n b d) d.nNodes := by
  have nodes := nodeAt_allocChild h.nodeWf h.nodeRange (n := n) b
  have children := childOf_allocChild h.nodeWf h.nodeRange (n := n) b
  have leaves := leaf_allocChild h.nodeWf h.nodeRange (n := n) b
  have new : nodeAt d.node d.nNodes = Node.blank := nodeAt_unallocated h.nodeRange le_rfl
  have hn := h.allocated
  exact {
    nodeWf := wf_allocChild h.nodeWf n b
    nodeRange := Memory.range_write
      (Memory.range_write (fun c hc => Nat.lt_succ_of_lt (h.nodeRange c hc)) (Nat.lt_succ_self _) _)
      (Nat.lt_succ_of_lt hn) _
    childRange := by
      intro m c (hm : m < d.nNodes + 1)
      show _ → _ ∧ _ < d.nNodes + 1
      rw [children]
      split
      · omega
      · intro hc
        rcases Nat.lt_succ_iff_lt_or_eq.1 hm with hm | rfl
        · have := h.childRange m c hm hc
          omega
        · simp [new] at hc
    parent := by
      intro m h1 (hm : m < d.nNodes + 1)
      show ∃! x : Nat × Bool, x.1 < d.nNodes + 1 ∧ _
      simp only [children]
      rcases Nat.lt_succ_iff_lt_or_eq.1 hm with hm | rfl
      · obtain ⟨x, ⟨hx, hxm⟩, only⟩ := h.parent m h1 hm
        refine ⟨x, ⟨by omega, ?_⟩, ?_⟩
        · rw [if_neg, hxm]
          rintro ⟨e1, e2⟩
          rw [e1, e2, hb] at hxm
          omega
        · rintro y ⟨hy, hym⟩
          split at hym
          · omega
          · refine only y ⟨lt_of_le_of_ne (Nat.le_of_lt_succ hy) (fun e => ?_), hym⟩
            simp [e, new] at hym
            omega
      · refine ⟨(n, b), ⟨by simp; omega, by simp⟩, ?_⟩
        rintro ⟨x, c⟩ ⟨hx, hxc⟩
        simp only at hx hxc
        split at hxc
        · rename_i e
          rw [e.1, e.2]
        · rcases Nat.lt_succ_iff_lt_or_eq.1 hx with hx | rfl
          · have := h.childRange x c hx (by omega)
            omega
          · simp [new] at hxc
            omega
    rootInner := (leaves 0).trans h.rootInner
    leafIff := by
      intro m h1 (hm : m < d.nNodes + 1) hne
      rw [leaves, ← childOf_eq_zero_iff]
      simp only [children]
      by_cases hmn : m = n
      · rw [hmn, h.inner]
        simp only [Bool.false_eq_true, false_iff]
        intro all
        have := all b
        simp at this
        omega
      · simpa [hmn, childOf] using h.leafIff m h1 (by omega) hmn
    leafCount := (leafCount_allocChild h b).trans h.leafCount
    allocated := Nat.lt_succ_self _
    inner := by rw [leaves, new]; rfl
    last := rfl
    notRoot := by omega
    blank := by rw [nodes, if_neg (by omega), new] }

/-- The allocating loop from a blank tip ends at a blank tip. -/
theorem FreshTip.allocPath (bits : List Bool) (h : FreshTip d n) :
    FreshTip (allocPath n bits d).1 (allocPath n bits d).2 := by
  induction bits generalizing d n with
  | nil => exact h
  | cons b bs ih => exact ih (h.toGrowingTrie.allocChild (by rw [h.blank, childOf_blank]))

/-- Making the last slot a leaf adds one to the number of leaves. -/
theorem FreshTip.leafCount_placeLeaf (h : FreshTip d n) (sym : Byte) :
    Safety.leafCount (placeLeaf sym n d) = Safety.leafCount d + 1 := by
  have before : ∀ k ∈ List.range n, (nodeAt (placeLeaf sym n d).node k).leaf = (nodeAt d.node k).leaf := by
    intro k hk
    rw [leaf_placeLeaf h.nodeWf, if_neg (by have := List.mem_range.1 hk; omega)]
  have at_n : (nodeAt (placeLeaf sym n d).node n).leaf = true := by simp [leaf_placeLeaf h.nodeWf]
  unfold Safety.leafCount
  rw [show (placeLeaf sym n d).nNodes = n + 1 from h.last.symm, ← h.last, List.range_succ]
  simp [at_n, h.inner, List.filter_congr before]

/-- The tip of a growing trie made the leaf of a symbol: the trie's invariant again. -/
theorem FreshTip.placeLeaf (h : FreshTip d n) (sym : Byte) (hcap : d.nNodes ≤ nodeCap) (hcodes : d.nCodes < 256) :
    TrieInv nodeCap (placeLeaf sym n d) := by
  have children := childOf_placeLeaf h.nodeWf sym n
  have leaves := leaf_placeLeaf h.nodeWf sym n
  have tip := h.notRoot
  have hn := h.allocated
  exact {
    nodeWf := Memory.wf_write h.nodeWf _ _
    nodeRange := Memory.range_write h.nodeRange hn _
    nodesPos := Nat.one_le_of_lt hn
    nodesCap := hcap
    codesCap := hcodes
    childRange := by
      intro m b
      rw [children]
      exact h.childRange m b
    parent := by
      intro m
      simp only [children]
      exact h.parent m
    rootInner := by rw [leaves, if_neg (by omega), h.rootInner]
    leafIff := by
      intro m h1 hm
      rw [leaves, ← childOf_eq_zero_iff]
      simp only [children]
      by_cases hmn : m = n
      · simp [hmn, h.blank]
      · simpa [hmn, childOf] using h.leafIff m h1 hm hmn
    leafCount := by rw [h.leafCount_placeLeaf, h.leafCount]; rfl }

/-- Where the walk along existing nodes ends with a bit to place: at an allocated inner node whose child for that bit is
absent (41_decoder.md R146). -/
theorem TrieInv.walkPath_absent (h : TrieInv nodeCap d) {bits rest : List Bool} {k : Nat} (hk : k < d.nNodes)
    (hl : (nodeAt d.node k).leaf = false) (e : walkPath d.node k bits = .absent n rest) :
    n < d.nNodes ∧ (nodeAt d.node n).leaf = false ∧ ∃ b bs, rest = b :: bs ∧ childOf (nodeAt d.node n) b = 0 := by
  induction bits generalizing k with
  | nil => cases e
  | cons b bs ih =>
    unfold walkPath at e
    split at e
    · rename_i hc
      cases e
      exact ⟨hk, hl, b, bs, rfl, hc⟩
    · rename_i hc
      split at e
      · cases e
      · rename_i hcl
        exact ih (h.childRange k b hk hc).2 (by simpa using hcl) e

/-- What a D_INSERT that does not fail does (41_decoder.md R146): from an inner node with an absent child it allocates a
path and makes its end the leaf, within NODE_CAP and 256 codes. -/
theorem TrieInv.insertCode_ok (h : TrieInv nodeCap d) {sym : Byte} {bits : List Bool} {d' : Decoder}
    (e : insertCode nodeCap sym bits d = .ok d') :
    ∃ n b bs, n < d.nNodes ∧ (nodeAt d.node n).leaf = false ∧ childOf (nodeAt d.node n) b = 0 ∧ d.nCodes ≠ 256 ∧
      d.nNodes + (b :: bs).length ≤ nodeCap ∧
      d' = Machine.placeLeaf sym (Machine.allocPath n (b :: bs) d).2 (Machine.allocPath n (b :: bs) d).1 := by
  unfold insertCode at e
  split at e
  · cases e
  · rename_i hcodes
    split at e
    · cases e
    · rename_i n rest hw
      split at e
      · cases e
      · rename_i hroom
        cases e
        obtain ⟨hn, hl, b, bs, rfl, hb⟩ := h.walkPath_absent h.nodesPos h.rootInner hw
        exact ⟨n, b, bs, hn, hl, hb, hcodes, by omega, rfl⟩

/-- The allocating loop from a blank tip makes no leaf. -/
theorem FreshTip.leaf_allocPath (bits : List Bool) (h : FreshTip d n) (m : Nat) :
    (nodeAt (Machine.allocPath n bits d).1.node m).leaf = (nodeAt d.node m).leaf := by
  induction bits generalizing d n with
  | nil => rfl
  | cons b bs ih =>
    exact (ih (h.toGrowingTrie.allocChild (by rw [h.blank, childOf_blank]))).trans
      (leaf_allocChild h.nodeWf h.nodeRange b m)

/-- The whole path that D_INSERT allocates, and the leaves it leaves as they were. -/
theorem GrowingTrie.allocPath (h : GrowingTrie d n) {b : Bool} (hb : childOf (nodeAt d.node n) b = 0)
    (bs : List Bool) :
    FreshTip (allocPath n (b :: bs) d).1 (allocPath n (b :: bs) d).2 ∧
      ∀ m, (nodeAt (allocPath n (b :: bs) d).1.node m).leaf = (nodeAt d.node m).leaf :=
  ⟨(h.allocChild hb).allocPath bs, fun m =>
    ((h.allocChild hb).leaf_allocPath bs m).trans (leaf_allocChild h.nodeWf h.nodeRange b m)⟩

/-- A D_INSERT that does not fail keeps the trie's invariant. -/
theorem TrieInv.insertCode (h : TrieInv nodeCap d) {sym : Byte} {bits : List Bool} {d' : Decoder}
    (e : insertCode nodeCap sym bits d = .ok d') : TrieInv nodeCap d' := by
  obtain ⟨n, b, bs, hn, hl, hb, hcodes, hroom, rfl⟩ := h.insertCode_ok e
  obtain ⟨tip, -⟩ := (h.growing hn hl).allocPath hb bs
  have hc := h.codesCap
  refine tip.placeLeaf sym ?_ ?_
  · rw [allocPath_nNodes]
    exact hroom
  · rw [allocPath_nCodes]
    omega

/-- A D_INSERT that does not fail keeps the walk's invariant: CUR and REMAIN stay, and CUR's node stays an inner one
(41_decoder.md R152). -/
theorem WalkInv.insertCode (w : WalkInv d) (h : TrieInv nodeCap d) {sym : Byte} {bits : List Bool} {d' : Decoder}
    (e : insertCode nodeCap sym bits d = .ok d') : WalkInv d' := by
  obtain ⟨n, b, bs, hn, hl, hb, -, -, rfl⟩ := h.insertCode_ok e
  obtain ⟨tip, leaves⟩ := (h.growing hn hl).allocPath hb bs
  have hw := w.curRange
  have hlast := tip.last
  rw [allocPath_nNodes, List.length_cons] at hlast
  constructor <;> simp only [placeLeaf, allocPath_nNodes, allocPath_cur, allocPath_remain]
  case curRange => omega
  case curInner =>
    have other : d.cur ≠ (Machine.allocPath n (b :: bs) d).2 := by omega
    exact (congrArg Node.leaf (Memory.read_write_other _ other _)).trans ((leaves d.cur).trans w.curInner)
  case curRoot => exact w.curRoot

end Sys2Proof.Safety
end

section
/-! The walk's invariant (41_decoder.md R152) through each StepBit, and the invariants of the decoder unit through every
command. -/

namespace Sys2Proof.Safety

open Sys2Proof.Machine

variable {d : Decoder} {nodeCap : Nat}

/-- The decoder `d` with the CUR and REMAIN of a run. -/
def decoderOfRun (d : Decoder) (r : WalkRun) : Decoder := { d with cur := r.cur, remain := r.remain }

/-- The walk's invariant does not speak of DF. -/
theorem WalkInv.raise (w : WalkInv d) (c : DfCause) : WalkInv (raiseDf c d) := { w with }

/-- The trie's invariant does not speak of the walk or of DF. -/
theorem TrieInv.raise (h : TrieInv nodeCap d) (c : DfCause) : TrieInv nodeCap (raiseDf c d) := { h with }

/-- A walk at the root meets the invariant (41_decoder.md R147). -/
theorem WalkInv.atRoot (h : TrieInv nodeCap d) (remain : Dword) : WalkInv { d with cur := 0, remain := remain } where
  curRange := h.nodesPos
  curInner := h.rootInner
  curRoot _ := rfl

/-- A feed that gets as far as this leaves the walk within the invariant. -/
def WalkKeepsInv (d : Decoder) : Progress WalkRun DfCause → Prop
  | .running r => WalkInv (decoderOfRun d r)
  | .raised r _ => WalkInv (decoderOfRun d r)
  | .waiting _ => True

/-- One part of a feed after another. -/
theorem WalkKeepsInv.andThen {q : Progress WalkRun DfCause} {f : WalkRun → Progress WalkRun DfCause}
    (hq : WalkKeepsInv d q) (hf : ∀ r, WalkInv (decoderOfRun d r) → WalkKeepsInv d (f r)) :
    WalkKeepsInv d (q.andThen f) := by
  cases q with
  | running r => exact hf r hq
  | raised r c => exact hq
  | waiting w => trivial

/-- StepBit (41_decoder.md R148): an inner child becomes CUR, a leaf sends the walk to the root, and a fault leaves it. -/
theorem stepBit_keepsInv (h : TrieInv nodeCap d) (b : Bool) {r : WalkRun} (w : WalkInv (decoderOfRun d r)) :
    WalkKeepsInv d (stepBit d.node b r) := by
  rcases stepBit_cases d.node b r with ⟨-, e⟩ | ⟨-, -, e⟩ | ⟨-, -, -, e⟩ | ⟨hr, hc, hl, e⟩ <;> rw [e]
  · exact w
  · exact w
  · rcases emit_cases (nodeAt d.node (childOf (nodeAt d.node r.cur) b)).sym r with
      ⟨-, e⟩ | ⟨rest, -, e⟩ | ⟨rest, -, e⟩ <;> rw [e]
    · trivial
    · exact .atRoot h (r.remain - 1)
    · exact w
  · exact {
      curRange := (h.childRange r.cur b w.curRange hc).2
      curInner := hl
      curRoot := fun h0 => absurd h0 hr }

/-- StepBit of each bit in turn (41_decoder.md R150). -/
theorem feedBits_keepsInv (h : TrieInv nodeCap d) (bits : List Bool) {r : WalkRun} (w : WalkInv (decoderOfRun d r)) :
    WalkKeepsInv d (feedBits d.node bits r) := by
  induction bits generalizing r with
  | nil => exact w
  | cons b bs ih =>
    unfold feedBits
    split
    · exact w
    · exact (stepBit_keepsInv h b w).andThen (fun _ hr => ih hr)

/-- The two invariants of the decoder unit. -/
def DecoderInv (nodeCap : Nat) (d : Decoder) : Prop := TrieInv nodeCap d ∧ WalkInv d

/-- An empty trie with the walk at the root (41_decoder.md R143, 70_reset_and_hazards.md R210). -/
theorem decoderInv_reset (hcap : 1 ≤ nodeCap) : DecoderInv nodeCap Decoder.reset where
  left := {
    nodeWf := Memory.wf_nil
    nodeRange := by simp [Decoder.reset]
    nodesPos := le_rfl
    nodesCap := hcap
    codesCap := Nat.zero_le _
    childRange := fun n b _ hc => absurd (childOf_blank b) hc
    parent := fun m h1 (h2 : m < 1) => by omega
    rootInner := rfl
    leafIff := fun n h1 (h2 : n < 1) => by omega
    leafCount := rfl }
  right := { curRange := Nat.zero_lt_one, curInner := rfl, curRoot := fun _ => rfl }

/-- A feed, from its run to the state it leaves. -/
theorem WalkKeepsInv.settle {i : Instr} {s t : State} {q : WalkRun → Progress WalkRun DfCause}
    (hq : WalkInv s.decoder → WalkKeepsInv s.decoder (q (startWalk s))) (inv : DecoderInv nodeCap s.decoder)
    (e : unlessDecoderFault s (settleWalk i s (q (startWalk s))) = .next t) : DecoderInv nodeCap t.decoder := by
  rcases unlessDecoderFault_cases e with ⟨-, e⟩ | ⟨-, rfl⟩
  · obtain ⟨trie, walk⟩ := inv
    have run := hq walk
    rcases settleWalk_cases i s (q (startWalk s)) with ⟨r, hr, e'⟩ | ⟨r, c, hr, e'⟩ | ⟨w, -, e'⟩ <;>
      rw [e'] at e <;> cases e
    · rw [hr] at run
      exact ⟨trie.congr rfl rfl rfl, run⟩
    · rw [hr] at run
      exact ⟨trie.congr rfl rfl rfl, run.raise c⟩
    · exact ⟨trie, walk⟩
  · exact inv

/-- Every decoder command keeps the invariants of the decoder unit. -/
theorem exec_decoderCommand_keepsInv {i : Instr} {s t : State} (hi : IsDecoderCommand i) (hcap : 1 ≤ s.params.nodeCap)
    (inv : DecoderInv s.params.nodeCap s.decoder) (e : exec i s = .next t) :
    DecoderInv s.params.nodeCap t.decoder := by
  have ⟨trie, walk⟩ := inv
  rcases hi with rfl | ⟨sym, len, rfl⟩ | rfl | ⟨b, rfl⟩ | ⟨byte, rfl⟩
  · cases e
    exact decoderInv_reset hcap
  · rcases unlessDecoderFault_cases e with ⟨-, e⟩ | ⟨-, rfl⟩
    · split at e <;> cases e
      · exact ⟨trie.insertCode ‹_›, walk.insertCode trie ‹_›⟩
      · exact ⟨trie.raise _, walk.raise _⟩
    · exact inv
  · rcases unlessDecoderFault_cases e with ⟨-, e⟩ | ⟨-, rfl⟩
    · cases e
      exact ⟨trie.congr rfl rfl rfl, .atRoot trie _⟩
    · exact inv
  · exact WalkKeepsInv.settle (fun w => stepBit_keepsInv trie b w) inv e
  · exact WalkKeepsInv.settle (fun w => feedBits_keepsInv trie _ w) inv e

/-! ## The machine's invariant -/

/-- Changing what the invariant does not speak of, with the latch seen to. -/
theorem Inv.frame {s t : State} (h : Inv s) (hparams : t.params = s.params) (hpacker : t.packer = s.packer)
    (hdecoder : t.decoder = s.decoder) (hlatch : LatchInv t) : Inv t where
  params := hparams ▸ h.params
  packer := hparams ▸ hpacker ▸ h.packer
  trie := hparams ▸ hdecoder ▸ h.trie
  walk := hdecoder ▸ h.walk
  latch := hlatch

/-- With no command in flight nothing is latched. -/
theorem latchInv_idle {s : State} (h : s.flight = none) : LatchInv s := by
  intro l hl
  rw [h] at hl
  cases hl

/-- The reset values meet the invariant, whatever the parameters (70_reset_and_hazards.md R210). -/
theorem inv_of_reset {t : State} (hp : t.params.wf) (hpacker : t.packer = Packer.reset)
    (hdecoder : t.decoder = Decoder.reset) (hf : t.flight = none) : Inv t := by
  obtain ⟨cap1, capMax, node2, nodeMax, hbase⟩ := hp
  have ⟨trie, walk⟩ := decoderInv_reset (nodeCap := t.params.nodeCap) (by omega)
  exact {
    params := ⟨cap1, capMax, node2, nodeMax, hbase⟩
    packer := hpacker ▸ {
      bufWf := Memory.wf_nil
      bufRange := by simp [Packer.reset]
      ctWf := Memory.wf_nil
      ctRange := by simp [Packer.reset]
      offRange := Nat.zero_le _
      offFull := fun (e : 0 = _) => by omega
      clearTail := by simp [Packer.reset] }
    trie := hdecoder ▸ trie
    walk := hdecoder ▸ walk
    latch := latchInv_idle hf }

/-- The wait for an answer keeps the latched word (10_state.md R43). -/
theorem latchInv_answer {s t : State} {l l' : Latch} (h : LatchInv s) (hs : s.flight = some l)
    (ht : t.flight = some l') (hw : l'.word = l.word) : LatchInv t := by
  intro k hk
  rw [ht] at hk
  cases hk
  rw [hw]
  exact h l hs

/-- Executing the command in flight keeps the invariant. -/
theorem Inv.exec {s t : State} {l : Latch} {i : Instr} (h : Inv s) (hf : s.flight = some l)
    (e : exec i s = .next t) : Inv t := by
  have ⟨cap1, capMax, node2, nodeMax, hbase⟩ := h.params
  cases exec_result e with
  | reset _ e => exact inv_of_reset (e ▸ h.params) (e ▸ rfl) (e ▸ rfl) (e ▸ rfl)
  | packer hi p log e' =>
    have inv := exec_packerCommand_keepsInv hi cap1 h.packer e
    subst e'
    exact { h with packer := inv, latch := latchInv_idle rfl }
  | decoder hi d log e' =>
    have ⟨trie, walk⟩ := exec_decoderCommand_keepsInv hi (by omega) ⟨h.trie, h.walk⟩ e
    subst e'
    exact { h with trie := trie, walk := walk, latch := latchInv_idle rfl }
  | nop _ e' => subst e'; exact h.frame rfl rfl rfl (latchInv_idle rfl)
  | waits w e' =>
    subst e'
    exact h.frame rfl rfl rfl (latchInv_answer h.latch hf rfl (by simp [latchOf, hf]))

/-- An access of the host keeps the invariant: it latches nothing but a command (30_encoding.md R102). -/
theorem Inv.access {s t : State} (h : Inv s) (a : AccessResult s t) : Inv t := by
  cases a with
  | outside => exact h
  | returns v n => exact h.frame rfl rfl rfl h.latch
  | badRead c => exact h.frame rfl rfl rfl h.latch
  | refused c => exact h.frame rfl rfl rfl h.latch
  | stages code lo hi => exact h.frame rfl rfl rfl h.latch
  | latches w i _ hd =>
    refine h.frame rfl rfl rfl ?_
    rintro l ⟨rfl⟩
    exact ⟨i, hd⟩

/-- `rst` sets the block to its reset values and changes no parameter (70_reset_and_hazards.md R211). -/
theorem Inv.rst {s : State} (h : Inv s) : Inv (rstTurn s) := by
  obtain ⟨sinks, outs, draws, e⟩ := abandonWrites_frame { s with inputLog := s.inputLog ++ [.rst] }
  rw [rstTurn, assertRst, e]
  exact inv_of_reset h.params rfl rfl rfl

/-- Every move of an agent keeps the invariant. -/
theorem inv_keptByMoves : KeptByMoves Inv where
  schedule _ _ h := h.frame rfl rfl rfl h.latch
  access s ops a h :=
    have before : Inv { s with script := ops } := h.frame rfl rfl rfl h.latch
    have after := before.access (busAccess_result a _)
    after.frame rfl rfl rfl after.latch
  exec _ _ _ _ hf e h := h.exec hf e
  sinkAnswer _ _ _ _ _ hf h := h.frame rfl rfl rfl (latchInv_answer h.latch hf rfl rfl)
  outAnswer _ _ _ _ _ hf h := h.frame rfl rfl rfl (latchInv_answer h.latch hf rfl rfl)
  rst _ h := h.rst

/-- Settles O51: every agent's move keeps the invariant. -/
theorem stepKeepsTheInvariant : Obligations.StepKeepsTheInvariant :=
  fun _ _ h e => inv_keptByMoves.step e h

/-- Settles O50: the reset values meet the invariant for parameters in range, those of `State.reset` among them. -/
theorem invariantHoldsAtReset : Obligations.InvariantHoldsAtReset :=
  ⟨fun _ hp => inv_of_reset hp rfl rfl rfl, inv_of_reset (by decide) rfl rfl rfl⟩

end Sys2Proof.Safety
end

section
/-! The register window: what an access to each register does, said by register (42_global.md R172, R173), the fields of
STATUS (10_state.md R24), and the statements on reads. -/

namespace Sys2Proof.Machine

/-- A read of a register at its offset. -/
theorem busAccess_readRegister (r : Reg) (s : State) :
    busAccess (.read (s.params.base + regOffset r) 4) s = readRegister r s := by
  have hr := regOffset_range r
  rw [busAccess_read s (by omega)]
  simp only [readWindow, registerAt_regOffset]

/-- A write to a register at its offset. -/
theorem busAccess_writeRegister (r : Reg) (v : Word) (s : State) :
    busAccess (.write (s.params.base + regOffset r) 4 v) s = writeRegister r v s := by
  have hr := regOffset_range r
  rw [busAccess_write s (by omega)]
  simp only [writeWindow, registerAt_regOffset]

/-- A read of a register that is exact now returns its value. -/
theorem busAccess_read_exact {r : Reg} {s : State} (h : s.flight = none ∨ unspecifiedWhileBusy r = false) :
    busAccess (.read (s.params.base + regOffset r) 4) s = returnValue (registerValue r s) s :=
  (busAccess_readRegister r s).trans (readRegister_exact h)

/-- A read of a unit register while BUSY = 1 returns some value. -/
theorem busAccess_read_unspecified {r : Reg} {s : State} (hf : s.flight ≠ none) (h : unspecifiedWhileBusy r = true) :
    ∃ v, busAccess (.read (s.params.base + regOffset r) 4) s =
      { s with readLog := s.readLog ++ [v], draws := s.draws + 1 } :=
  ⟨_, (busAccess_readRegister r s).trans (readRegister_unspecified hf h)⟩

/-- A read past the last register returns 0 and raises BAD_ACCESS (20_memory.md R68). -/
theorem busAccess_read_bad {off : Nat} (h : 0x50 ≤ off) (h' : off < 0x100) (s : State) :
    busAccess (.read (s.params.base + off) 4) s = returnValue 0 (raiseCf .badAccess s) := by
  rw [busAccess_read s h', readWindow, registerAt_none (.inr (.inr h))]

/-- Settles O7: register by register, exact or drawn; from 0x50 up there is no register. -/
theorem readsReturnTheRegisters : Obligations.ReadsReturnTheRegisters := by
  intro s
  have always : ∀ r, unspecifiedWhileBusy r = false →
      busAccess (.read (s.params.base + regOffset r) 4) s = returnValue (registerValue r s) s :=
    fun r h => busAccess_read_exact (.inr h)
  refine ⟨always .cmd rfl, always .status rfl, always .bpCap rfl, fun k hk => always (.code ⟨k, hk⟩) rfl,
    always .lenLo rfl, always .lenHi rfl, always .dCap rfl, fun hf => ?idle, fun hf off hoff => ?busy,
    fun off h h' => ?bad⟩
  case idle =>
    have idle : ∀ r, busAccess (.read (s.params.base + regOffset r) 4) s = returnValue (registerValue r s) s :=
      fun r => busAccess_read_exact (.inl hf)
    exact ⟨idle .bpOff, idle .remainLo, idle .remainHi, idle .dCur, idle .dNodes, idle .dCodes⟩
  case busy =>
    have drawn : ∀ r, unspecifiedWhileBusy r = true → off = regOffset r →
        ∃ v, busAccess (.read (s.params.base + off) 4) s =
          { s with readLog := s.readLog ++ [v], draws := s.draws + 1 } :=
      fun r h e => e ▸ busAccess_read_unspecified hf h
    simp only [List.mem_cons, List.not_mem_nil, or_false] at hoff
    rcases hoff with e | e | e | e | e | e
    · exact drawn .bpOff rfl e
    · exact drawn .remainLo rfl e
    · exact drawn .remainHi rfl e
    · exact drawn .dCur rfl e
    · exact drawn .dNodes rfl e
    · exact drawn .dCodes rfl e
  case bad => exact busAccess_read_bad h h' s

/-! ## The fields of STATUS and the reserved bits -/

/-- The fields of a word packed as STATUS is (10_state.md R24). -/
theorem statusFields (df pf cf : BitVec 4) (done busy : Bool) :
    let w := 0#16 ++ df ++ pf ++ cf ++ 0#2 ++ BitVec.ofBool done ++ BitVec.ofBool busy
    w.getLsbD 0 = busy ∧ w.getLsbD 1 = done ∧ w.extractLsb' 2 2 = 0 ∧ w.extractLsb' 4 4 = cf ∧
      w.extractLsb' 8 4 = pf ∧ w.extractLsb' 12 4 = df ∧ w.extractLsb' 16 16 = 0 := by
  refine ⟨?_, ?_, ?_, ?_, ?_, ?_, ?_⟩
  all_goals
    simp only [BitVec.getLsbD_append, BitVec.extractLsb'_append_eq_ite]
    simp

/-- Settles O8: STATUS is its fields side by side, and the numbers of the causes are those of R181 to R183. -/
theorem statusHoldsItsFields : Obligations.StatusHoldsItsFields := by
  intro s
  obtain ⟨busy, done, low, cf, pf, df, high⟩ :=
    statusFields (dfCode s.decoder.df) (pfCode s.packer.pf) (cfCode s.cf) s.done s.busy
  have hdone : s.done = true ↔ s.decoder.remain = 0 := by simp [State.done]
  exact ⟨busy, (iff_of_eq (congrArg (· = true) done)).trans hdone, low, cf, pf, df, high, by decide, by decide, by decide⟩

/-- A field of `k` bits, zero-extended, has no bit above them. -/
theorem setWidth_reserved {k : Nat} (x : BitVec k) :
    x.setWidth 32 &&& ~~~((BitVec.allOnes k).setWidth 32) = 0 := by
  ext i hi
  by_cases h : i < k
  · simp [h]
  · simp [BitVec.getLsbD_of_ge x i (Nat.le_of_not_lt h)]

/-- The value of a register is 0 in the register's reserved bits (10_state.md R34). -/
theorem registerValue_reserved (r : Reg) (s : State) : registerValue r s &&& ~~~registerBits r = 0 := by
  have whole : ∀ x : Word, x &&& ~~~0xFFFFFFFF#32 = 0 := fun x => BitVec.and_zero
  cases r with
  | cmd => exact BitVec.zero_and
  | status =>
    show statusWord s &&& (0xFFFF#16 ++ 0#4 ++ 0#4 ++ 0#4 ++ 3#2 ++ 0#1 ++ 0#1 : BitVec (16 + 4 + 4 + 4 + 2 + 1 + 1)) = 0
    unfold statusWord
    iterate 6 rw [BitVec.and_append]
    simp only [BitVec.and_zero]
    rfl
  | dCur => exact setWidth_reserved (BitVec.ofNat 9 s.decoder.cur)
  | dNodes => exact setWidth_reserved (BitVec.ofNat 10 s.decoder.nNodes)
  | dCodes => exact setWidth_reserved (BitVec.ofNat 9 s.decoder.nCodes)
  | dCap => exact setWidth_reserved (BitVec.ofNat 10 s.params.nodeCap)
  | _ => exact whole _

/-- What a read of a register returns: its value, or a free one in its unreserved bits (log entry 4). -/
theorem readRegister_value (r : Reg) (s : State) :
    ∃ v, (readRegister r s).readLog = s.readLog ++ [v] ∧ v &&& ~~~registerBits r = 0 := by
  unfold readRegister
  split
  · exact ⟨_, rfl, by rw [BitVec.and_assoc, BitVec.and_not_self]; exact BitVec.and_zero⟩
  · exact ⟨_, rfl, registerValue_reserved r s⟩

/-- Settles O9: the mask of each of the five registers is what its unreserved bits leave. -/
theorem reservedBitsReadZero : Obligations.ReservedBitsReadZero := by
  intro s off mask h
  have reads : ∀ r, off = regOffset r → mask = ~~~registerBits r →
      ∃ v, (busAccess (.read (s.params.base + off) 4) s).readLog = s.readLog ++ [v] ∧ v &&& mask = 0 := by
    rintro r rfl rfl
    rw [busAccess_readRegister]
    exact readRegister_value r s
  simp only [List.mem_cons, List.not_mem_nil, or_false, Prod.mk.injEq] at h
  rcases h with ⟨ho, hm⟩ | ⟨ho, hm⟩ | ⟨ho, hm⟩ | ⟨ho, hm⟩ | ⟨ho, hm⟩
  · exact reads .status ho hm
  · exact reads .dCur ho hm
  · exact reads .dNodes ho hm
  · exact reads .dCodes ho hm
  · exact reads .dCap ho hm

/-! ## The staging registers -/

/-- The registers a host stages operands in (10_state.md R27, R28). -/
def IsStaging (r : Reg) : Prop := (∃ k, r = .code k) ∨ r = .lenLo ∨ r = .lenHi

/-- A staging register is exact in every state (42_global.md R173). -/
theorem IsStaging.exact {r : Reg} (h : IsStaging r) : unspecifiedWhileBusy r = false := by
  rcases h with ⟨k, rfl⟩ | rfl | rfl <;> rfl

/-- A write to a staging register returns nothing and leaves the parameters. -/
theorem IsStaging.write_frame {r : Reg} (h : IsStaging r) (v : Word) (s : State) :
    (writeRegister r v s).readLog = s.readLog ∧ (writeRegister r v s).params = s.params := by
  rcases h with ⟨k, rfl⟩ | rfl | rfl <;> exact ⟨rfl, rfl⟩

/-- Reading a word of CODE after a write to one. -/
theorem codeWord_setCodeWord (c : CodeWords) (k j : Fin 8) (v : Word) :
    codeWord (setCodeWord c k v) j.val = if k = j then v else codeWord c j.val := by
  fin_cases k <;> fin_cases j <;> rfl

/-- A write to a staging register sets it and leaves the others (42_global.md R172). -/
theorem registerValue_write {a b : Reg} (ha : IsStaging a) (hb : IsStaging b) (v : Word) (s : State) :
    registerValue b (writeRegister a v s) = if a = b then v else registerValue b s := by
  rcases ha with ⟨k, rfl⟩ | rfl | rfl <;> rcases hb with ⟨j, rfl⟩ | rfl | rfl <;>
    simp [registerValue, writeRegister, codeWord_setCodeWord]

/-- The ten offsets are those of the staging registers. -/
theorem isStaging_of_offset {off : Nat} (h : off ∈ [0x10, 0x14, 0x18, 0x1C, 0x20, 0x24, 0x28, 0x2C, 0x30, 0x34]) :
    ∃ r, IsStaging r ∧ regOffset r = off := by
  simp only [List.mem_cons, List.not_mem_nil, or_false] at h
  rcases h with rfl | rfl | rfl | rfl | rfl | rfl | rfl | rfl | rfl | rfl
  · exact ⟨.code 0, .inl ⟨0, rfl⟩, rfl⟩
  · exact ⟨.code 1, .inl ⟨1, rfl⟩, rfl⟩
  · exact ⟨.code 2, .inl ⟨2, rfl⟩, rfl⟩
  · exact ⟨.code 3, .inl ⟨3, rfl⟩, rfl⟩
  · exact ⟨.code 4, .inl ⟨4, rfl⟩, rfl⟩
  · exact ⟨.code 5, .inl ⟨5, rfl⟩, rfl⟩
  · exact ⟨.code 6, .inl ⟨6, rfl⟩, rfl⟩
  · exact ⟨.code 7, .inl ⟨7, rfl⟩, rfl⟩
  · exact ⟨.lenLo, .inr (.inl rfl), rfl⟩
  · exact ⟨.lenHi, .inr (.inr rfl), rfl⟩

/-- Registers at one offset are one register. -/
theorem regOffset_inj {a b : Reg} : regOffset a = regOffset b ↔ a = b := by
  refine ⟨fun h => ?_, congrArg regOffset⟩
  have ha := registerAt_regOffset a
  rw [h, registerAt_regOffset b] at ha
  exact (Option.some.inj ha).symm

/-- Settles O11: a staging register is exact, and a write to one sets its value and no other's. -/
theorem stagingRegistersReadBack : Obligations.StagingRegistersReadBack := by
  intro s oa ob v ha hb
  obtain ⟨a, sa, rfl⟩ := isStaging_of_offset ha
  obtain ⟨b, sb, rfl⟩ := isStaging_of_offset hb
  obtain ⟨hlog, hparams⟩ := sa.write_frame v s
  refine ⟨registerValue b s, congrArg State.readLog (busAccess_read_exact (.inr sb.exact)), ?_⟩
  rw [busAccess_writeRegister, ← hparams, busAccess_read_exact (.inr sb.exact), returnValue_readLog, hlog,
    registerValue_write sa sb]
  simp only [regOffset_inj]

end Sys2Proof.Machine
end

section
/-! Reset: power-up, SOFT_RESET and `rst` (70_reset_and_hazards.md R210, R211), and what `rst` records of the command it
abandons. -/

namespace Sys2Proof.Machine

open Sys2Proof.Safety

/-- ResetAll leaves every element of the block at its reset value (70_reset_and_hazards.md R210). -/
theorem isResetBlock_resetAll {s : State} {p : Params} (h : s.params = p) : IsResetBlock p (resetAll s) where
  params := h
  code k := by
    show codeWord CodeWords.zero k = 0
    unfold codeWord
    split <;> rfl
  lenLo := rfl
  lenHi := rfl
  cf := rfl
  pf := rfl
  df := rfl
  busy := rfl
  buf _ := rfl
  off := rfl
  ct _ := rfl
  root := rfl
  nNodes := rfl
  nCodes := rfl
  cur := rfl
  remain := rfl
  status := by
    show (0#16 ++ 0#4 ++ 0#4 ++ 0#4 ++ 0#2 ++ 1#1 ++ 0#1 : BitVec (16 + 4 + 4 + 4 + 2 + 1 + 1)) = 2#32
    rfl

/-- The histories after `rst` (70_reset_and_hazards.md R211): those before it with the answered writes of the command in
flight, and its waiting write marked abandoned. -/
theorem abandonWrites_outstanding {s : State} {l : Latch} (hf : s.flight = some l) (ho : l.outstanding = none) :
    (abandonWrites s).sinkLog = s.sinkLog ++ sinkEntries l.answered ∧
      (abandonWrites s).outLog = s.outLog ++ outEntries l.answered := by
  simp [abandonWrites, hf, ho]

/-- The same, with a SinkWrite waiting. -/
theorem abandonWrites_sink {s : State} {l : Latch} {bytes : List Byte} (hf : s.flight = some l)
    (ho : l.outstanding = some (.sink bytes)) :
    (abandonWrites s).sinkLog = s.sinkLog ++ sinkEntries l.answered ++
        [{ bytes := bytes, answer := .abandoned (Config.freeReached s.draws) }] ∧
      (abandonWrites s).outLog = s.outLog ++ outEntries l.answered := by
  simp [abandonWrites, hf, ho]

/-- The same, with an OutWrite waiting. -/
theorem abandonWrites_out {s : State} {l : Latch} {byte : Byte} (hf : s.flight = some l)
    (ho : l.outstanding = some (.out byte)) :
    (abandonWrites s).sinkLog = s.sinkLog ++ sinkEntries l.answered ∧
      (abandonWrites s).outLog = s.outLog ++ outEntries l.answered ++
        [{ byte := byte, answer := .abandoned (Config.freeReached s.draws) }] := by
  simp [abandonWrites, hf, ho]

/-- A scheduled `rst` is ResetAll with the command in flight abandoned. -/
theorem step_rst (s : State) (rest : List Turn) :
    step { s with turns := .rst :: rest } =
      .next (resetAll (abandonWrites { s with turns := rest, inputLog := s.inputLog ++ [.rst] })) :=
  step_scheduled .rst rest s

/-- Settles O15: both are ResetAll, and `rst` only adds to the histories before it. -/
theorem resetSetsEveryElement : Obligations.ResetSetsEveryElement := by
  intro s
  refine ⟨⟨resetAll s, rfl, isResetBlock_resetAll rfl, rfl, rfl, rfl, rfl, rfl, rfl, rfl, rfl, rfl⟩, fun rest => ?rst⟩
  case rst =>
    refine ⟨_, step_rst s rest, ?_⟩
    obtain ⟨sinks, outs, draws, e⟩ := abandonWrites_frame { s with turns := rest, inputLog := s.inputLog ++ [.rst] }
    rw [e]
    exact ⟨isResetBlock_resetAll rfl, ⟨sinks, rfl⟩, ⟨outs, rfl⟩, rfl⟩

/-- Settles O16: the three cases of what the abandoned command has waiting. -/
theorem rstKeepsTheWritesIssued : Obligations.RstKeepsTheWritesIssued := by
  intro s l rest hf
  exact ⟨_, step_rst s rest, fun ho => abandonWrites_outstanding (by exact hf) ho,
    fun _ ho => ⟨_, abandonWrites_sink (by exact hf) ho⟩, fun _ ho => ⟨_, abandonWrites_out (by exact hf) ho⟩⟩

/-- Settles O17: the state after power-up is one that ResetAll leaves. -/
theorem powerUpIsTheResetState : Obligations.PowerUpIsTheResetState :=
  fun p => ⟨isResetBlock_resetAll (s := State.powerUp p) rfl, rfl, rfl, rfl⟩

end Sys2Proof.Machine
end

section
/-! A command word written in the synchronous schedule (30_encoding.md R102, log entry 3). -/

namespace Sys2Proof.Machine

/-- The host's turn when its next operation is an access. -/
theorem hostTurn_access {s : State} {a : Access} {rest : List HostOp} (h : s.script = .access a :: rest) :
    hostTurn s = hostAccess a { s with script := rest } := by
  unfold hostTurn
  rw [h]

/-- With no command in flight the synchronous turn is the host's move, and the block's on what it latched. -/
theorem syncTurn_idle {s : State} (h : s.flight = none) : syncTurn s = blockTurn (hostTurn s) := by
  unfold syncTurn
  rw [h]

/-- A write to CMD is the acceptance of its word, and returns nothing. -/
theorem hostAccess_commandWrite (w : Word) (s : State) :
    hostAccess (.write s.params.base 4 w) s =
      { accept w s with inputLog := s.inputLog ++ [.access (.write s.params.base 4 w) none] } := by
  have write : busAccess (.write s.params.base 4 w) s = accept w s := busAccess_writeRegister .cmd w s
  have silent : (accept w s).readLog[s.readLog.length]? = none := by
    rcases accept_cases w s with ⟨c, e⟩ | ⟨-, i, -, e⟩ <;> simp [e]
  rw [hostAccess, write, silent]

/-- An idle block latches a word that decodes. -/
theorem accept_ok {w : Word} {s : State} {i : Instr} (hf : s.flight = none) (hd : decode w = .ok i) :
    accept w s = latchCommand w s := by
  simp [accept, State.busy, hf, hd]

/-- An idle block drops a word that does not decode, with its cause. -/
theorem accept_error {w : Word} {s : State} {e : Reject} (hf : s.flight = none) (hd : decode w = .error e) :
    accept w s = raiseCf (rejectCause e) s := by
  simp [accept, State.busy, hf, hd]

/-- Settles O48: the host's write is accepted or dropped, and the block's turn in the same step runs what was latched. -/
theorem commandWriteRunsTheDecodedCommand : Obligations.CommandWriteRunsTheDecodedCommand := by
  intro s w rest hf ht hs
  have step_eq : step s = blockTurn
      { accept w { s with script := rest } with
        inputLog := s.inputLog ++ [.access (.write s.params.base 4 w) none] } := by
    rw [step_sync ht, syncTurn_idle hf, hostTurn_access hs]
    exact congrArg blockTurn (hostAccess_commandWrite w { s with script := rest })
  refine ⟨fun i hd => ?accepted, fun e hd => ?dropped⟩
  case accepted =>
    rw [step_eq, accept_ok (by exact hf) hd]
    exact blockTurn_runs rfl rfl hd
  case dropped =>
    rw [step_eq, accept_error (by exact hf) hd]
    exact blockTurn_idle hf

end Sys2Proof.Machine
end

section
/-! What commands and steps leave unchanged (60_exceptions.md R188, R189, 10_state.md R43, R44), read off the ways a
command, an access and a move can end. -/

namespace Sys2Proof.Machine

/-- Settles O37: of the five ways a command can end, only the reset touches the staging registers or CF. -/
theorem commandsKeepTheSharedState : Obligations.CommandsKeepTheSharedState := by
  intro i s t e
  cases exec_result e with
  | reset hi e => subst e; exact ⟨fun hne => absurd hi hne, rfl, rfl, rfl, rfl, rfl, rfl, rfl, rfl⟩
  | packer _ p log e => subst e; exact ⟨fun _ => ⟨rfl, rfl, rfl, rfl⟩, rfl, rfl, rfl, rfl, rfl, rfl, rfl, rfl⟩
  | decoder _ d log e => subst e; exact ⟨fun _ => ⟨rfl, rfl, rfl, rfl⟩, rfl, rfl, rfl, rfl, rfl, rfl, rfl, rfl⟩
  | nop _ e => subst e; exact ⟨fun _ => ⟨rfl, rfl, rfl, rfl⟩, rfl, rfl, rfl, rfl, rfl, rfl, rfl, rfl⟩
  | waits w e => subst e; exact ⟨fun _ => ⟨rfl, rfl, rfl, rfl⟩, rfl, rfl, rfl, rfl, rfl, rfl, rfl, rfl⟩

/-- Settles O43: a command that has not completed is one that waits. -/
theorem waitingChangesOnlyTheLatch : Obligations.WaitingChangesOnlyTheLatch := by
  intro i s t e hf
  cases exec_result e with
  | waits w e => exact ⟨w, e⟩
  | reset _ e => exact absurd (e ▸ rfl) hf
  | packer _ p log e => exact absurd (e ▸ rfl) hf
  | decoder _ d log e => exact absurd (e ▸ rfl) hf
  | nop _ e => exact absurd (e ▸ rfl) hf

/-! ## The code table and the trie while the units run -/

/-- A command that packs or flushes leaves CT (10_state.md R38). -/
theorem ct_of_settlePack {i : Instr} {s t : State} {p : Progress PackRun PfCause}
    (e : unlessPackerFault s (settlePack i s p) = .next t) : t.packer.ct = s.packer.ct := by
  rcases unlessPackerFault_cases e with ⟨-, e⟩ | ⟨-, rfl⟩
  · rcases settlePack_form e with ⟨k, log, rfl, hct⟩ | ⟨w, rfl⟩
    · exact hct
    · rfl
  · rfl

/-- A feed leaves the trie (41_decoder.md R149, R150). -/
theorem trie_of_settleWalk {i : Instr} {s t : State} {p : Progress WalkRun DfCause}
    (e : unlessDecoderFault s (settleWalk i s p) = .next t) :
    t.decoder.node = s.decoder.node ∧ t.decoder.nNodes = s.decoder.nNodes ∧ t.decoder.nCodes = s.decoder.nCodes := by
  rcases unlessDecoderFault_cases e with ⟨-, e⟩ | ⟨-, rfl⟩
  · rcases settleWalk_form e with ⟨d, log, rfl, htrie⟩ | ⟨w, rfl⟩
    · exact htrie
    · exact ⟨rfl, rfl, rfl⟩
  · exact ⟨rfl, rfl, rfl⟩

/-- D_START leaves the trie (41_decoder.md R147). -/
theorem trie_of_dStart {s t : State} (e : exec .dStart s = .next t) :
    t.decoder.node = s.decoder.node ∧ t.decoder.nNodes = s.decoder.nNodes ∧ t.decoder.nCodes = s.decoder.nCodes := by
  rcases unlessDecoderFault_cases e with ⟨-, e⟩ | ⟨-, rfl⟩
  · cases e; exact ⟨rfl, rfl, rfl⟩
  · exact ⟨rfl, rfl, rfl⟩

/-- Settles O39: each of the six commands settles a run, or is D_START. -/
theorem runningKeepsTheTables : Obligations.RunningKeepsTheTables := by
  intro s t len sym byte b
  refine ⟨?packer, ?decoder⟩
  case packer =>
    rintro (e | e | e)
    · exact ct_of_settlePack e
    · exact ct_of_settlePack e
    · exact ct_of_settlePack e
  case decoder =>
    rintro (e | e | e)
    · exact trie_of_dStart e
    · exact trie_of_settleWalk e
    · exact trie_of_settleWalk e

/-! ## The causes -/

/-- While PF ≠ 0 every packer command but P_RESET has no effect (40_packer.md R110). -/
theorem exec_packerCommand_blocked {i : Instr} {s : State} (hi : IsPackerCommand i) (hne : i ≠ .pReset)
    (hp : s.packer.pf ≠ .none) : exec i s = .next (complete s) := by
  rcases hi with rfl | ⟨len, rfl⟩ | ⟨sym, rfl⟩ | rfl | ⟨sym, len, rfl⟩ | rfl
  · exact absurd rfl hne
  all_goals exact unlessPackerFault_blocked hp _

/-- While DF ≠ 0 every decoder command but D_RESET has no effect (41_decoder.md R140). -/
theorem exec_decoderCommand_blocked {i : Instr} {s : State} (hi : IsDecoderCommand i) (hne : i ≠ .dReset)
    (hd : s.decoder.df ≠ .none) : exec i s = .next (complete s) := by
  rcases hi with rfl | ⟨sym, len, rfl⟩ | rfl | ⟨b, rfl⟩ | ⟨byte, rfl⟩
  · exact absurd rfl hne
  all_goals exact unlessDecoderFault_blocked hd _

/-- A recorded PF survives every command but its resets (60_exceptions.md R188). -/
theorem exec_keeps_pf {i : Instr} {s t : State} (e : exec i s = .next t) (hp : s.packer.pf ≠ .none) :
    t.packer.pf = s.packer.pf ∨ i = .pReset ∨ i = .softReset := by
  cases exec_result e with
  | reset hi _ => exact .inr (.inr hi)
  | packer hi p log _ =>
    by_cases hr : i = .pReset
    · exact .inr (.inl hr)
    · rw [exec_packerCommand_blocked hi hr hp] at e
      cases e
      exact .inl rfl
  | decoder _ d log e' => exact .inl (e' ▸ rfl)
  | nop _ e' => exact .inl (e' ▸ rfl)
  | waits w e' => exact .inl (e' ▸ rfl)

/-- A recorded DF survives every command but its resets (60_exceptions.md R188). -/
theorem exec_keeps_df {i : Instr} {s t : State} (e : exec i s = .next t) (hd : s.decoder.df ≠ .none) :
    t.decoder.df = s.decoder.df ∨ i = .dReset ∨ i = .softReset := by
  cases exec_result e with
  | reset hi _ => exact .inr (.inr hi)
  | packer _ p log e' => exact .inl (e' ▸ rfl)
  | decoder hi d log _ =>
    by_cases hr : i = .dReset
    · exact .inr (.inl hr)
    · rw [exec_decoderCommand_blocked hi hr hd] at e
      cases e
      exact .inl rfl
  | nop _ e' => exact .inl (e' ▸ rfl)
  | waits w e' => exact .inl (e' ▸ rfl)

/-- Raising CF keeps a cause recorded before (60_exceptions.md R184). -/
theorem raiseCf_kept {s : State} (h : s.cf ≠ .none) (c : CfCause) : (raiseCf c s).cf = s.cf := if_neg h

/-- No access touches the two units or clears CF (60_exceptions.md R188). -/
theorem AccessResult.keeps_causes {s t : State} (a : AccessResult s t) :
    (s.cf ≠ .none → t.cf = s.cf) ∧ t.packer = s.packer ∧ t.decoder = s.decoder := by
  cases a with
  | outside => exact ⟨fun _ => rfl, rfl, rfl⟩
  | returns v n => exact ⟨fun _ => rfl, rfl, rfl⟩
  | badRead c => exact ⟨fun h => raiseCf_kept h c, rfl, rfl⟩
  | refused c => exact ⟨fun h => raiseCf_kept h c, rfl, rfl⟩
  | stages code lo hi => exact ⟨fun _ => rfl, rfl, rfl⟩
  | latches w i _ _ => exact ⟨fun _ => rfl, rfl, rfl⟩

/-- Settles O40: CF by the shared state that commands keep, PF and DF by what their faults block. -/
theorem causesAreClearedOnlyByResets : Obligations.CausesAreClearedOnlyByResets := by
  refine ⟨fun i s t e => ⟨fun _ => ?cf, exec_keeps_pf e, exec_keeps_df e⟩,
    fun a s => (busAccess_result a s).keeps_causes⟩
  case cf =>
    by_cases hi : i = .softReset
    · exact .inr hi
    · obtain ⟨-, -, -, hcf⟩ := (commandsKeepTheSharedState i s t e).1 hi
      exact .inl hcf

/-! ## The histories -/

/-- The histories of `t` go on from those of `s`, under the same parameters (10_state.md R44). -/
structure GrowsFrom (s t : State) : Prop where
  sinkLog : s.sinkLog <+: t.sinkLog
  outLog : s.outLog <+: t.outLog
  readLog : s.readLog <+: t.readLog
  inputLog : s.inputLog <+: t.inputLog
  params : t.params = s.params

/-- Histories go on from themselves. -/
theorem GrowsFrom.refl (s : State) : GrowsFrom s s :=
  ⟨List.prefix_rfl, List.prefix_rfl, List.prefix_rfl, List.prefix_rfl, rfl⟩

/-- Histories that go on from ones that go on. -/
theorem GrowsFrom.trans {s t u : State} (h : GrowsFrom s t) (k : GrowsFrom t u) : GrowsFrom s u :=
  ⟨h.sinkLog.trans k.sinkLog, h.outLog.trans k.outLog, h.readLog.trans k.readLog, h.inputLog.trans k.inputLog,
    k.params.trans h.params⟩

/-- A command adds to the histories of its unit only. -/
theorem exec_grows {i : Instr} {s t : State} (e : exec i s = .next t) : GrowsFrom s t := by
  have same := GrowsFrom.refl s
  cases exec_result e with
  | reset _ e => subst e; exact { same with }
  | packer _ p log e => subst e; exact { same with sinkLog := List.prefix_append _ _ }
  | decoder _ d log e => subst e; exact { same with outLog := List.prefix_append _ _ }
  | nop _ e => subst e; exact { same with }
  | waits w e => subst e; exact { same with }

/-- An access adds to the values read only. -/
theorem AccessResult.grows {s t : State} (a : AccessResult s t) : GrowsFrom s t := by
  have same := GrowsFrom.refl s
  cases a with
  | outside => exact same
  | returns v n => exact { same with readLog := List.prefix_append _ _ }
  | badRead c => exact { same with readLog := List.prefix_append _ _ }
  | refused c => exact { same with }
  | stages code lo hi => exact { same with }
  | latches w i _ _ => exact { same with }

/-- An access of the host with its record. -/
theorem hostAccess_grows (a : Access) (s : State) : GrowsFrom s (hostAccess a s) :=
  { (busAccess_result a s).grows with inputLog := List.prefix_append _ _ }

/-- `rst` adds its own record, and what the abandoned command had issued (70_reset_and_hazards.md R211). -/
theorem rstTurn_grows (s : State) : GrowsFrom s (rstTurn s) := by
  obtain ⟨sinks, outs, draws, e⟩ := abandonWrites_frame { s with inputLog := s.inputLog ++ [.rst] }
  rw [rstTurn, assertRst, e]
  exact ⟨List.prefix_append _ _, List.prefix_append _ _, List.prefix_rfl, List.prefix_append _ _, rfl⟩

/-- Every move of an agent lets the histories go on. -/
theorem growsFrom_keptByMoves (s : State) : KeptByMoves (GrowsFrom s) where
  schedule _ _ h := { h with }
  access t ops a h :=
    have before : GrowsFrom s { t with script := ops } := { h with }
    before.trans (hostAccess_grows a _)
  exec _ _ _ _ _ e h := h.trans (exec_grows e)
  sinkAnswer _ _ _ _ _ _ h := { h with }
  outAnswer _ _ _ _ _ _ h := { h with }
  rst _ h := h.trans (rstTurn_grows _)

/-- Settles O42: the histories of a state go on from themselves, and every move keeps that. -/
theorem historiesOnlyGrow : Obligations.HistoriesOnlyGrow := by
  intro s t e
  obtain ⟨hsink, hout, hread, hinput, hparams⟩ := (growsFrom_keptByMoves s).step e (.refl s)
  exact ⟨hsink, hout, hread, hinput, hparams⟩

end Sys2Proof.Machine
end

section
/-! Answers and history entries (10_state.md R43, R44, 20_memory.md R66, R67): a command's run meets the answers it is given
one by one, leaves an entry for each, and with one answer more gets past the write it had to wait for. This is shown of
the runs of both units at once, for a run seen by its history and its answers. -/

namespace Sys2Proof.Machine

/-- The run a command has reached, if it does not wait. -/
def Progress.reached {ρ κ : Type} : Progress ρ κ → Option ρ
  | .running r => some r
  | .raised r _ => some r
  | .waiting _ => none

/-- What is seen of a unit's runs: the history, the answers not yet met, one answer given more, and the history entries
of answered output writes. -/
structure RunView (ρ ε : Type) where
  log : ρ → List ε
  answers : ρ → List Answer
  give : Answer → ρ → ρ
  entries : List (OutputWrite × Answer) → List ε

/-- A part of a command's run that keeps its history by the answers: it leaves one entry for each answer it meets; an
answer it does not need stays; and where it waits, one answer more is recorded with the waiting write, as the last. -/
structure Transcribes {ρ ε κ : Type} (V : RunView ρ ε) (f : ρ → Progress ρ κ) : Prop where
  meets : ∀ {r r'}, (f r).reached = some r' →
    ∃ new, V.log r' = V.log r ++ new ∧ new.length + (V.answers r').length = (V.answers r).length
  spare : ∀ {r r'} a, f r = .running r' → f (V.give a r) = .running (V.give a r')
  records : ∀ {r r' w} a, f r = .waiting w → (f (V.give a r)).reached = some r' →
    V.answers r' = [] ∧ ∃ new e, V.entries [(w, a)] = [e] ∧ V.log r' = V.log r ++ new ++ [e] ∧
      new.length = (V.answers r).length

namespace Transcribes

variable {ρ ε κ : Type} {V : RunView ρ ε} {f g : ρ → Progress ρ κ}

/-- A part that meets no answer and writes no history. -/
theorem silent {h : ρ → ρ} (hl : ∀ r, V.log (h r) = V.log r) (ha : ∀ r, V.answers (h r) = V.answers r)
    (hg : ∀ a r, h (V.give a r) = V.give a (h r)) : Transcribes V (fun r => (.running (h r) : Progress ρ κ)) where
  meets := by
    rintro r r' ⟨⟩
    exact ⟨[], by simp [hl], by simp [ha]⟩
  spare := by
    rintro r r' a ⟨⟩
    exact congrArg Progress.running (hg a r)
  records a e := nomatch e

/-- A part that goes on as it is. -/
theorem skip : Transcribes V (fun r => (.running r : Progress ρ κ)) :=
  silent (h := fun r => r) (fun _ => rfl) (fun _ => rfl) (fun _ _ => rfl)

/-- A part that raises a fault at once. -/
theorem raise (c : κ) : Transcribes V (fun r => (.raised r c : Progress ρ κ)) where
  meets := by
    rintro r r' ⟨⟩
    exact ⟨[], by simp, by simp⟩
  spare a e := nomatch e
  records a e := nomatch e

/-- A choice that does not look at the answers. -/
theorem ite {c : ρ → Prop} [DecidablePred c] (hc : ∀ a r, c (V.give a r) ↔ c r) (hf : Transcribes V f)
    (hg : Transcribes V g) : Transcribes V (fun r => if c r then f r else g r) where
  meets {r r'} := by
    split
    · exact hf.meets
    · exact hg.meets
  spare {r r'} a := by
    simp only [hc]
    split
    · exact hf.spare a
    · exact hg.spare a
  records {r r' w} a := by
    simp only [hc]
    split
    · exact hf.records a
    · exact hg.records a

/-- One part after another. -/
theorem andThen (hf : Transcribes V f) (hg : Transcribes V g) : Transcribes V (fun r => (f r).andThen g) where
  meets {r r'} e := by
    cases h : f r with
    | running r₁ =>
      obtain ⟨new₁, log₁, len₁⟩ := hf.meets (congrArg Progress.reached h)
      simp only [h] at e
      obtain ⟨new₂, log₂, len₂⟩ := hg.meets e
      exact ⟨new₁ ++ new₂, by rw [log₂, log₁, List.append_assoc], by rw [List.length_append]; omega⟩
    | raised r₁ c =>
      simp only [h] at e
      exact hf.meets ((congrArg Progress.reached h).trans e)
    | waiting w => simp only [h] at e; cases e
  spare {r r'} a e := by
    obtain ⟨r₁, h₁, h₂⟩ := Progress.andThen_running.1 e
    exact Progress.andThen_running.2 ⟨V.give a r₁, hf.spare a h₁, hg.spare a h₂⟩
  records {r r' w} a ew e := by
    cases h : f r with
    | running r₁ =>
      obtain ⟨new₁, log₁, len₁⟩ := hf.meets (congrArg Progress.reached h)
      simp only [h] at ew
      simp only [hf.spare a h] at e
      obtain ⟨done, new₂, x, hx, log₂, len₂⟩ := hg.records a ew e
      exact ⟨done, new₁ ++ new₂, x, hx, by rw [log₂, log₁, List.append_assoc (V.log r)],
        by rw [List.length_append]; omega⟩
    | raised r₁ c => simp only [h] at ew; cases ew
    | waiting w' =>
      simp only [h] at ew
      cases ew
      cases h₁ : f (V.give a r) with
      | running r₁ =>
        simp only [h₁] at e
        obtain ⟨done, new, x, hx, log, len⟩ := hf.records a h (congrArg Progress.reached h₁)
        obtain ⟨more, log', len'⟩ := hg.meets e
        obtain ⟨rfl, done'⟩ : more = [] ∧ V.answers r' = [] := by simpa [done] using len'
        exact ⟨done', new, x, hx, by rw [log', log, List.append_nil], len⟩
      | raised r₁ c =>
        simp only [h₁] at e
        exact hf.records a h ((congrArg Progress.reached h₁).trans e)
      | waiting w'' => simp only [h₁] at e; cases e

end Transcribes

/-! ## The packer's runs -/

/-- A packer command's run by its SinkWrites. -/
def sinkView : RunView PackRun SinkEntry where
  log r := r.log
  answers r := r.answers
  give a r := { r with answers := r.answers ++ [a] }
  entries := sinkEntries

/-- A SinkWrite of bytes that do not depend on the answers (20_memory.md R66). -/
theorem transcribes_sinkWrite {bytes : PackRun → List Byte}
    (hb : ∀ a r, bytes (sinkView.give a r) = bytes r) : Transcribes sinkView (fun r => sinkWrite (bytes r) r) where
  meets {r r'} e := by
    rcases sinkWrite_cases (bytes r) r with ⟨-, h⟩ | ⟨rest, ha, h⟩ | ⟨rest, ha, h⟩ <;> simp only [h] at e <;> cases e
    · exact ⟨_, rfl, by simp [sinkView, ha, Nat.add_comm]⟩
    · exact ⟨_, rfl, by simp [sinkView, ha, Nat.add_comm]⟩
  spare {r r'} a e := by
    rcases sinkWrite_cases (bytes r) r with ⟨-, h⟩ | ⟨rest, ha, h⟩ | ⟨rest, ha, h⟩ <;> simp only [h] at e <;> cases e
    rw [hb]
    simp [sinkWrite, sinkView, ha]
  records {r r' w} a ew e := by
    rcases sinkWrite_cases (bytes r) r with ⟨ha, h⟩ | ⟨rest, ha, h⟩ | ⟨rest, ha, h⟩ <;> simp only [h] at ew <;> cases ew
    rw [hb] at e
    cases a <;> simp [sinkWrite, sinkView, ha] at e <;> cases e
    · exact ⟨rfl, [], _, rfl, by simp [sinkView], by simp [sinkView, ha]⟩
    · exact ⟨rfl, [], _, rfl, by simp [sinkView], by simp [sinkView, ha]⟩

/-- Clearing the buffer. -/
theorem transcribes_clearBuf : Transcribes sinkView clearBuf :=
  .silent (fun _ => rfl) (fun _ => rfl) (fun _ _ => rfl)

/-- PackBit (40_packer.md R111, R112). -/
theorem transcribes_packBit (cap : Nat) (b : Bool) : Transcribes sinkView (packBit cap b) := by
  have flush : Transcribes sinkView (fillFlush cap) :=
    (transcribes_sinkWrite (bytes := fun r => bufBytes r.buf cap) (fun _ _ => rfl)).andThen transcribes_clearBuf
  have place : Transcribes sinkView (fun r => (.running (placeBit b r) : Progress PackRun PfCause)) :=
    .silent (fun _ => rfl) (fun _ => rfl) (fun _ _ => rfl)
  have placeThen : Transcribes sinkView (fun r => (Progress.running (placeBit b r)).andThen
      (fun r => if r.off = 8 * cap then fillFlush cap r else .running r)) :=
    place.andThen (.ite (c := fun r : PackRun => r.off = 8 * cap) (fun _ _ => Iff.rfl) flush .skip)
  exact placeThen

/-- PackBit of each bit in turn (40_packer.md R114). -/
theorem transcribes_packBits (cap : Nat) (bits : List Bool) : Transcribes sinkView (packBits cap bits) := by
  induction bits with
  | nil => exact .skip
  | cons b bs ih => exact (transcribes_packBit cap b).andThen ih

/-- The run of P_PACK_SYM (40_packer.md R115). -/
theorem transcribes_packEntry (cap : Nat) (e : CtEntry) : Transcribes sinkView (packEntry cap e) :=
  .ite (c := fun _ : PackRun => e.len = 0) (fun _ _ => Iff.rfl) (.raise PfCause.noCode) (transcribes_packBits cap _)

/-- The final flush (40_packer.md R116). -/
theorem transcribes_finalFlush : Transcribes sinkView finalFlush :=
  .ite (c := fun r : PackRun => (r.off + 7) / 8 = 0) (fun _ _ => Iff.rfl) transcribes_clearBuf
    ((transcribes_sinkWrite (bytes := flushBytes) (fun _ _ => rfl)).andThen transcribes_clearBuf)

/-! ## The decoder's runs -/

/-- A feed's run by its OutWrites. -/
def outView : RunView WalkRun OutEntry where
  log r := r.log
  answers r := r.answers
  give a r := { r with answers := r.answers ++ [a] }
  entries := outEntries

/-- An emission of a symbol that does not depend on the answers (20_memory.md R67). -/
theorem transcribes_emit {sym : WalkRun → Byte} (hs : ∀ a r, sym (outView.give a r) = sym r) :
    Transcribes outView (fun r => emit (sym r) r) where
  meets {r r'} e := by
    rcases emit_cases (sym r) r with ⟨-, h⟩ | ⟨rest, ha, h⟩ | ⟨rest, ha, h⟩ <;> simp only [h] at e <;> cases e
    · exact ⟨_, rfl, by simp [outView, ha, Nat.add_comm]⟩
    · exact ⟨_, rfl, by simp [outView, ha, Nat.add_comm]⟩
  spare {r r'} a e := by
    rcases emit_cases (sym r) r with ⟨-, h⟩ | ⟨rest, ha, h⟩ | ⟨rest, ha, h⟩ <;> simp only [h] at e <;> cases e
    rw [hs]
    simp [emit, outView, ha]
  records {r r' w} a ew e := by
    rcases emit_cases (sym r) r with ⟨ha, h⟩ | ⟨rest, ha, h⟩ | ⟨rest, ha, h⟩ <;> simp only [h] at ew <;> cases ew
    rw [hs] at e
    cases a <;> simp [emit, outView, ha] at e <;> cases e
    · exact ⟨rfl, [], _, rfl, by simp [outView], by simp [outView, ha]⟩
    · exact ⟨rfl, [], _, rfl, by simp [outView], by simp [outView, ha]⟩

/-- StepBit (41_decoder.md R148). -/
theorem transcribes_stepBit (node : List (Nat × Node)) (b : Bool) : Transcribes outView (stepBit node b) :=
  .ite (c := fun r : WalkRun => r.remain = 0) (fun _ _ => Iff.rfl) .skip
    (.ite (c := fun r : WalkRun => childOf (nodeAt node r.cur) b = 0) (fun _ _ => Iff.rfl) (.raise DfCause.walkOff)
      (.ite (c := fun r : WalkRun => (nodeAt node (childOf (nodeAt node r.cur) b)).leaf = true) (fun _ _ => Iff.rfl)
        (transcribes_emit (sym := fun r => (nodeAt node (childOf (nodeAt node r.cur) b)).sym) (fun _ _ => rfl))
        (.silent (fun _ => rfl) (fun _ => rfl) (fun _ _ => rfl))))

/-- StepBit of each bit in turn (41_decoder.md R150). -/
theorem transcribes_feedBits (node : List (Nat × Node)) (bits : List Bool) :
    Transcribes outView (feedBits node bits) := by
  induction bits with
  | nil => exact .skip
  | cons b bs ih =>
    exact .ite (c := fun r : WalkRun => r.remain = 0) (fun _ _ => Iff.rfl) .skip ((transcribes_stepBit node b).andThen ih)

/-! ## From the runs to the commands -/

section

variable {s s' t t' : State} {i : Instr} {w : OutputWrite} {a : Answer} {l' : Latch}

/-- A packing command that waits: its run waits for that write. -/
theorem settlePack_waiting {p : Progress PackRun PfCause} (e : unlessPackerFault s (settlePack i s p) = .next t)
    (hf : t.flight = some l') (hw : l'.outstanding = some w) : s.packer.pf = .none ∧ p = .waiting w := by
  rcases unlessPackerFault_cases e with ⟨hp, e⟩ | ⟨-, rfl⟩
  · rcases settlePack_cases i s p with ⟨r, -, e'⟩ | ⟨r, c, -, e'⟩ | ⟨w', hp', e'⟩ <;> rw [e'] at e <;> cases e <;>
      cases hf
    cases hw
    exact ⟨hp, hp'⟩
  · cases hf

/-- A packing command that runs and completes: the history of its run is recorded. -/
theorem settlePack_completed {p : Progress PackRun PfCause} (hp : s.packer.pf = .none)
    (e : unlessPackerFault s (settlePack i s p) = .next t) (hf : t.flight = none) :
    ∃ r, p.reached = some r ∧ t.sinkLog = s.sinkLog ++ r.log := by
  rw [unlessPackerFault_ready hp] at e
  rcases settlePack_cases i s p with ⟨r, rfl, e'⟩ | ⟨r, c, rfl, e'⟩ | ⟨w', -, e'⟩ <;> rw [e'] at e <;> cases e
  · exact ⟨r, rfl, rfl⟩
  · exact ⟨r, rfl, rfl⟩
  · cases hf

/-- A feed that waits: its run waits for that write. -/
theorem settleWalk_waiting {p : Progress WalkRun DfCause} (e : unlessDecoderFault s (settleWalk i s p) = .next t)
    (hf : t.flight = some l') (hw : l'.outstanding = some w) : s.decoder.df = .none ∧ p = .waiting w := by
  rcases unlessDecoderFault_cases e with ⟨hd, e⟩ | ⟨-, rfl⟩
  · rcases settleWalk_cases i s p with ⟨r, -, e'⟩ | ⟨r, c, -, e'⟩ | ⟨w', hp', e'⟩ <;> rw [e'] at e <;> cases e <;>
      cases hf
    cases hw
    exact ⟨hd, hp'⟩
  · cases hf

/-- A feed that runs and completes: the history of its run is recorded. -/
theorem settleWalk_completed {p : Progress WalkRun DfCause} (hd : s.decoder.df = .none)
    (e : unlessDecoderFault s (settleWalk i s p) = .next t) (hf : t.flight = none) :
    ∃ r, p.reached = some r ∧ t.outLog = s.outLog ++ r.log := by
  rw [unlessDecoderFault_ready hd] at e
  rcases settleWalk_cases i s p with ⟨r, rfl, e'⟩ | ⟨r, c, rfl, e'⟩ | ⟨w', -, e'⟩ <;> rw [e'] at e <;> cases e
  · exact ⟨r, rfl, rfl⟩
  · exact ⟨r, rfl, rfl⟩
  · cases hf

/-- The history that ends with the write `w` answered `a`, after `n` other entries of the command. -/
def RecordsLast (s t : State) (n : Nat) (w : OutputWrite) (a : Answer) : Prop :=
  (∀ bytes, w = .sink bytes → ∃ log,
    t.sinkLog = s.sinkLog ++ log ++ [{ bytes := bytes, answer := .given a }] ∧ log.length = n) ∧
  (∀ byte, w = .out byte → ∃ log,
    t.outLog = s.outLog ++ log ++ [{ byte := byte, answer := .given a }] ∧ log.length = n)

/-- A packing command that waits for `w` with the answers of `s`, and completes with the answer `a` more. -/
theorem settlePack_recordsLast {q : PackRun → Progress PackRun PfCause} (hq : Transcribes sinkView q)
    (e : unlessPackerFault s (settlePack i s (q (startPack s))) = .next t) (hf : t.flight = some l')
    (hw : l'.outstanding = some w) (hstart : startPack s' = sinkView.give a (startPack s))
    (hpacker : s'.packer = s.packer) (hlog : s'.sinkLog = s.sinkLog)
    (e' : unlessPackerFault s' (settlePack i s' (q (startPack s'))) = .next t') (hf' : t'.flight = none) :
    RecordsLast s t' (givenAnswers s).length w a := by
  obtain ⟨hp, waits⟩ := settlePack_waiting e hf hw
  obtain ⟨r, reached, log⟩ := settlePack_completed (hpacker ▸ hp) e' hf'
  obtain ⟨-, new, x, hx, hr, len⟩ := hq.records a waits (hstart ▸ reached)
  refine ⟨?sink, ?out⟩
  case sink =>
    rintro bytes rfl
    cases hx
    exact ⟨new, by rw [log, hlog, List.append_assoc]; exact congrArg (s.sinkLog ++ ·) hr, len⟩
  case out =>
    rintro byte rfl
    cases hx

/-- A feed that waits for `w` with the answers of `s`, and completes with the answer `a` more. -/
theorem settleWalk_recordsLast {q : WalkRun → Progress WalkRun DfCause} (hq : Transcribes outView q)
    (e : unlessDecoderFault s (settleWalk i s (q (startWalk s))) = .next t) (hf : t.flight = some l')
    (hw : l'.outstanding = some w) (hstart : startWalk s' = outView.give a (startWalk s))
    (hdecoder : s'.decoder = s.decoder) (hlog : s'.outLog = s.outLog)
    (e' : unlessDecoderFault s' (settleWalk i s' (q (startWalk s'))) = .next t') (hf' : t'.flight = none) :
    RecordsLast s t' (givenAnswers s).length w a := by
  obtain ⟨hd, waits⟩ := settleWalk_waiting e hf hw
  obtain ⟨r, reached, log⟩ := settleWalk_completed (hdecoder ▸ hd) e' hf'
  obtain ⟨-, new, x, hx, hr, len⟩ := hq.records a waits (hstart ▸ reached)
  refine ⟨?sink, ?out⟩
  case sink =>
    rintro bytes rfl
    cases hx
  case out =>
    rintro byte rfl
    cases hx
    exact ⟨new, by rw [log, hlog, List.append_assoc]; exact congrArg (s.outLog ++ ·) hr, len⟩

/-- The commands that may wait are those that pack, flush or feed. -/
theorem exec_waiting_command (e : exec i s = .next t) (hf : t.flight ≠ none) :
    (∃ len, i = .pPackCode len) ∨ (∃ sym, i = .pPackSym sym) ∨ i = .pFlush ∨ (∃ b, i = .dFeedBit b) ∨
      ∃ byte, i = .dFeedByte byte := by
  have done : ∀ {u : State}, u.flight = none → .next u = (.next t : Host.Outcome State Fault Refusal) → False := by
    rintro u hu ⟨⟩
    exact hf hu
  cases i with
  | pPackCode len => exact .inl ⟨len, rfl⟩
  | pPackSym sym => exact .inr (.inl ⟨sym, rfl⟩)
  | pFlush => exact .inr (.inr (.inl rfl))
  | dFeedBit b => exact .inr (.inr (.inr (.inl ⟨b, rfl⟩)))
  | dFeedByte byte => exact .inr (.inr (.inr (.inr ⟨byte, rfl⟩)))
  | nop => exact (done rfl e).elim
  | softReset => exact (done rfl e).elim
  | pReset => exact (done rfl e).elim
  | dReset => exact (done rfl e).elim
  | ctWrite sym len =>
    rcases unlessPackerFault_cases e with ⟨-, e⟩ | ⟨-, rfl⟩
    · exact (done rfl e).elim
    · exact absurd rfl hf
  | ctClear =>
    rcases unlessPackerFault_cases e with ⟨-, e⟩ | ⟨-, rfl⟩
    · exact (done rfl e).elim
    · exact absurd rfl hf
  | dStart =>
    rcases unlessDecoderFault_cases e with ⟨-, e⟩ | ⟨-, rfl⟩
    · exact (done rfl e).elim
    · exact absurd rfl hf
  | dInsert sym len =>
    rcases unlessDecoderFault_cases e with ⟨-, e⟩ | ⟨-, rfl⟩
    · split at e
      · exact (done rfl e).elim
      · exact (done rfl e).elim
    · exact absurd rfl hf

end

/-- Settles O44: the command is one that packs, flushes or feeds, and its run transcribes its answers. -/
theorem recordedWriteIsTheOneIssued : Obligations.RecordedWriteIsTheOneIssued := by
  intro i s t t' l l' w a e hf hw e' hf'
  have last : RecordsLast s t' (l.answered.map (fun x => x.2)).length w a := by
    have pack : startPack { s with flight := some { l with answered := l.answered ++ [(w, a)], outstanding := none } } =
        sinkView.give a (startPack { s with flight := some { l with outstanding := none } }) := by
      simp [startPack, givenAnswers, sinkView]
    have walk : startWalk { s with flight := some { l with answered := l.answered ++ [(w, a)], outstanding := none } } =
        outView.give a (startWalk { s with flight := some { l with outstanding := none } }) := by
      simp [startWalk, givenAnswers, outView]
    rcases exec_waiting_command e (by simp [hf]) with ⟨len, rfl⟩ | ⟨sym, rfl⟩ | rfl | ⟨b, rfl⟩ | ⟨byte, rfl⟩
    · exact settlePack_recordsLast (transcribes_packBits _ _) e hf hw pack rfl rfl e' hf'
    · exact settlePack_recordsLast (transcribes_packEntry _ _) e hf hw pack rfl rfl e' hf'
    · exact settlePack_recordsLast transcribes_finalFlush e hf hw pack rfl rfl e' hf'
    · exact settleWalk_recordsLast (transcribes_stepBit _ b) e hf hw walk rfl rfl e' hf'
    · exact settleWalk_recordsLast (transcribes_feedBits _ _) e hf hw walk rfl rfl e' hf'
  rwa [List.length_map] at last

end Sys2Proof.Machine
end

section
/-! An access of the window that no register admits (20_memory.md R68), and the size of every SinkWrite
(20_memory.md R66), which is followed through a packer command's run. -/

namespace Sys2Proof.Machine

/-- Settles O12: no register admits such an access. -/
theorem badAccessRaisesOnlyCf : Obligations.BadAccessRaisesOnlyCf := by
  intro s off width v hoff hbad
  have noRegister := registerAt_none hbad
  refine ⟨?read, ?write⟩
  case read =>
    rw [busAccess_read s hoff, readWindow, noRegister]
    rfl
  case write =>
    rw [busAccess_write s hoff, writeWindow, noRegister]
    rfl

/-! ## The size of a SinkWrite -/

/-- Bytes that one SinkWrite may carry (20_memory.md R66). -/
def FitsSinkWrite (cap : Nat) (bytes : List Byte) : Prop := 1 ≤ bytes.length ∧ bytes.length ≤ cap

/-- Each SinkWrite of a run, answered or waiting, is of a size R66 admits. -/
def SinkWritesFit (cap : Nat) : Progress PackRun PfCause → Prop
  | .running r => ∀ e ∈ r.log, FitsSinkWrite cap e.bytes
  | .raised r _ => ∀ e ∈ r.log, FitsSinkWrite cap e.bytes
  | .waiting w => ∀ bytes, w = .sink bytes → FitsSinkWrite cap bytes

/-- The entries and the waiting SinkWrite that a command leaves in `t`, started in `s`, are of a size R66 admits. -/
def LeavesFittingWrites (cap : Nat) (s t : State) : Prop :=
  (∃ log, t.sinkLog = s.sinkLog ++ log ∧ ∀ e ∈ log, FitsSinkWrite cap e.bytes) ∧
  (∀ l bytes, t.flight = some l → l.outstanding = some (.sink bytes) → FitsSinkWrite cap bytes)

section

variable {cap : Nat} {r : PackRun} {s t : State} {i : Instr}

/-- One part of a command after another. -/
theorem SinkWritesFit.andThen {p : Progress PackRun PfCause} {f : PackRun → Progress PackRun PfCause}
    (hp : SinkWritesFit cap p) (hf : ∀ r, (∀ e ∈ r.log, FitsSinkWrite cap e.bytes) → SinkWritesFit cap (f r)) :
    SinkWritesFit cap (p.andThen f) := by
  cases p with
  | running r => exact hf r hp
  | raised r c => exact hp
  | waiting w => exact hp

/-- One more entry of a size R66 admits. -/
theorem fit_append_entry {log : List SinkEntry} {e : SinkEntry} (h : ∀ e ∈ log, FitsSinkWrite cap e.bytes)
    (he : FitsSinkWrite cap e.bytes) : ∀ x ∈ log ++ [e], FitsSinkWrite cap x.bytes := by
  intro x hx
  rcases List.mem_append.1 hx with hx | hx
  · exact h x hx
  · exact List.mem_singleton.1 hx ▸ he

/-- A SinkWrite of fitting bytes (20_memory.md R66). -/
theorem sinkWrite_fits {bytes : List Byte} (hb : FitsSinkWrite cap bytes)
    (h : ∀ e ∈ r.log, FitsSinkWrite cap e.bytes) : SinkWritesFit cap (sinkWrite bytes r) := by
  rcases sinkWrite_cases bytes r with ⟨-, e⟩ | ⟨rest, -, e⟩ | ⟨rest, -, e⟩ <;> rw [e]
  · rintro _ ⟨⟩
    exact hb
  · exact fit_append_entry h hb
  · exact fit_append_entry h hb

/-- PackBit: a fill flush carries exactly CAP bytes (40_packer.md R112). -/
theorem packBit_fits (hc : 1 ≤ cap) (b : Bool) (h : ∀ e ∈ r.log, FitsSinkWrite cap e.bytes) :
    SinkWritesFit cap (packBit cap b r) := by
  by_cases hfull : r.off + 1 = 8 * cap
  · have full : FitsSinkWrite cap (bufBytes (placeBit b r).buf cap) := by simp [FitsSinkWrite, bufBytes, hc]
    rw [packBit_fill b hfull]
    exact (sinkWrite_fits (r := placeBit b r) full h).andThen (fun _ hr => hr)
  · rw [packBit_place b hfull]
    exact h

/-- PackBit of each bit in turn (40_packer.md R114). -/
theorem packBits_fits (hc : 1 ≤ cap) (bits : List Bool) (h : ∀ e ∈ r.log, FitsSinkWrite cap e.bytes) :
    SinkWritesFit cap (packBits cap bits r) := by
  induction bits generalizing r with
  | nil => exact h
  | cons b bs ih => exact (packBit_fits hc b h).andThen (fun _ hr => ih hr)

/-- The run of P_PACK_SYM (40_packer.md R115). -/
theorem packEntry_fits (hc : 1 ≤ cap) (x : CtEntry) (h : ∀ e ∈ r.log, FitsSinkWrite cap e.bytes) :
    SinkWritesFit cap (packEntry cap x r) := by
  unfold packEntry
  split
  · exact h
  · exact packBits_fits hc _ h

/-- The final flush carries ceil(OFF/8) bytes, and OFF ≤ 8·CAP (40_packer.md R116, 10_state.md R36). -/
theorem finalFlush_fits (hoff : r.off ≤ 8 * cap) (h : ∀ e ∈ r.log, FitsSinkWrite cap e.bytes) :
    SinkWritesFit cap (finalFlush r) := by
  by_cases h0 : (r.off + 7) / 8 = 0
  · rw [finalFlush, if_pos h0]
    exact h
  · have part : FitsSinkWrite cap (flushBytes r) := by
      simp only [FitsSinkWrite, flushBytes, List.length_map, List.length_range]
      omega
    rw [finalFlush, if_neg h0]
    exact (sinkWrite_fits part h).andThen (fun _ hr => hr)

/-- A command that completes and leaves SINKLOG. -/
theorem LeavesFittingWrites.quiet (hlog : t.sinkLog = s.sinkLog) (hf : t.flight = none) :
    LeavesFittingWrites cap s t := by
  refine ⟨⟨[], by simp [hlog], by simp⟩, fun l bytes hl => ?_⟩
  rw [hf] at hl
  cases hl

/-- A command that packs or flushes, from its run to the state it leaves. -/
theorem SinkWritesFit.settle {p : Progress PackRun PfCause} (hp : SinkWritesFit cap p)
    (e : unlessPackerFault s (settlePack i s p) = .next t) : LeavesFittingWrites cap s t := by
  rcases unlessPackerFault_cases e with ⟨-, e⟩ | ⟨-, rfl⟩
  · rcases settlePack_cases i s p with ⟨r, rfl, e'⟩ | ⟨r, c, rfl, e'⟩ | ⟨w, rfl, e'⟩ <;> rw [e'] at e <;> cases e
    · exact ⟨⟨r.log, rfl, hp⟩, nofun⟩
    · exact ⟨⟨r.log, rfl, hp⟩, nofun⟩
    · refine ⟨⟨[], by simp, by simp⟩, ?_⟩
      rintro l bytes ⟨⟩ ⟨⟩
      exact hp bytes rfl
  · exact .quiet rfl rfl

/-- A packer command that writes the packer unit at once. -/
theorem LeavesFittingWrites.ofWrite {k : Packer}
    (e : unlessPackerFault s (.next (complete { s with packer := k })) = .next t) : LeavesFittingWrites cap s t := by
  rcases unlessPackerFault_cases e with ⟨-, e⟩ | ⟨-, rfl⟩
  · cases e
    exact .quiet rfl rfl
  · exact .quiet rfl rfl

/-- Every SinkWrite of a packer command. -/
theorem exec_packerCommand_fits (hi : IsPackerCommand i) (hc : 1 ≤ s.params.cap)
    (hoff : s.packer.off ≤ 8 * s.params.cap) (e : exec i s = .next t) : LeavesFittingWrites s.params.cap s t := by
  have start : ∀ e ∈ (startPack s).log, FitsSinkWrite s.params.cap e.bytes := nofun
  rcases hi with rfl | ⟨len, rfl⟩ | ⟨sym, rfl⟩ | rfl | ⟨sym, len, rfl⟩ | rfl
  · cases e
    exact .quiet rfl rfl
  · exact (packBits_fits hc _ start).settle e
  · exact (packEntry_fits hc _ start).settle e
  · exact (finalFlush_fits hoff start).settle e
  · exact .ofWrite e
  · exact .ofWrite e

/-- A feed's part that waits, waits for an OutWrite (20_memory.md R67). -/
def WaitsForOut (p : Progress WalkRun DfCause) : Prop := ∀ bytes, p ≠ .waiting (.sink bytes)

/-- One part of a feed after another. -/
theorem WaitsForOut.andThen {p : Progress WalkRun DfCause} {f : WalkRun → Progress WalkRun DfCause}
    (hp : WaitsForOut p) (hf : ∀ r, WaitsForOut (f r)) : WaitsForOut (p.andThen f) := by
  cases p with
  | running r => exact hf r
  | raised r c => exact nofun
  | waiting w => rintro bytes ⟨⟩; exact hp bytes rfl

/-- StepBit issues no SinkWrite (41_decoder.md R148). -/
theorem stepBit_waitsForOut (node : List (Nat × Node)) (b : Bool) (r : WalkRun) : WaitsForOut (stepBit node b r) := by
  rcases stepBit_cases node b r with ⟨-, e⟩ | ⟨-, -, e⟩ | ⟨-, -, -, e⟩ | ⟨-, -, -, e⟩ <;> rw [e]
  · exact nofun
  · exact nofun
  · rcases emit_cases (nodeAt node (childOf (nodeAt node r.cur) b)).sym r with
      ⟨-, e⟩ | ⟨rest, -, e⟩ | ⟨rest, -, e⟩ <;> rw [e] <;> exact nofun
  · exact nofun

/-- A feed issues no SinkWrite (41_decoder.md R150). -/
theorem feedBits_waitsForOut (node : List (Nat × Node)) (bits : List Bool) (r : WalkRun) :
    WaitsForOut (feedBits node bits r) := by
  induction bits generalizing r with
  | nil => exact nofun
  | cons b bs ih =>
    unfold feedBits
    split
    · exact nofun
    · exact (stepBit_waitsForOut node b r).andThen ih

/-- Only a packer command waits for the answer to a SinkWrite (60_exceptions.md R189). -/
theorem exec_waiting_sink {l : Latch} {bytes : List Byte} (e : exec i s = .next t) (hf : t.flight = some l)
    (hw : l.outstanding = some (.sink bytes)) : IsPackerCommand i := by
  rcases exec_waiting_command e (by simp [hf]) with ⟨len, rfl⟩ | ⟨sym, rfl⟩ | rfl | ⟨b, rfl⟩ | ⟨byte, rfl⟩
  · exact .inr (.inl ⟨len, rfl⟩)
  · exact .inr (.inr (.inl ⟨sym, rfl⟩))
  · exact .inr (.inr (.inr (.inl rfl)))
  · exact absurd (settleWalk_waiting e hf hw).2 (stepBit_waitsForOut _ _ _ _)
  · exact absurd (settleWalk_waiting e hf hw).2 (feedBits_waitsForOut _ _ _ _)

end

/-- Settles O27: a packer command by its run; every other command leaves SINKLOG and waits for no SinkWrite. -/
theorem sinkWritesCarryOneToCapBytes : Obligations.SinkWritesCarryOneToCapBytes := by
  intro i s t hc inv e
  by_cases hi : IsPackerCommand i
  · exact exec_packerCommand_fits hi hc inv.offRange e
  · refine ⟨⟨[], ?log, by simp⟩, fun l bytes hf hw => absurd (exec_waiting_sink e hf hw) hi⟩
    cases exec_result e with
    | packer hi' => exact absurd hi' hi
    | reset _ e => simp [e]
    | decoder _ d log e => simp [e]
    | nop _ e => simp [e]
    | waits w e => simp [e]

end Sys2Proof.Machine
end

section
/-! The staging registers while a command is in flight (70_reset_and_hazards.md R217): a command works from its latch, so
it commutes with any change of CODE0..7, LEN_LO and LEN_HI. -/

namespace Sys2Proof.Machine

/-- The machine with other contents of CODE0..7, LEN_LO and LEN_HI (10_state.md R27, R28). -/
def withStaging (c : CodeWords) (lo hi : Word) (s : State) : State := { s with code := c, lenLo := lo, lenHi := hi }

/-- An outcome with its next state changed. -/
def mapNext (f : State → State) : Host.Outcome State Fault Refusal → Host.Outcome State Fault Refusal
  | .next s => .next (f s)
  | .fault r => .fault r
  | .refused r => .refused r

section

variable {s : State} {l : Latch} (c : CodeWords) (lo hi : Word)

/-- What blocks a packer command is not staged. -/
theorem unlessPackerFault_withStaging {k k' : Host.Outcome State Fault Refusal}
    (hk : k' = mapNext (withStaging c lo hi) k) :
    unlessPackerFault (withStaging c lo hi s) k' = mapNext (withStaging c lo hi) (unlessPackerFault s k) := by
  by_cases hp : s.packer.pf = .none
  · rw [unlessPackerFault_ready hp, ← hk]
    exact unlessPackerFault_ready (s := withStaging c lo hi s) hp k'
  · rw [unlessPackerFault_blocked hp]
    exact unlessPackerFault_blocked (s := withStaging c lo hi s) hp k'

/-- What blocks a decoder command is not staged. -/
theorem unlessDecoderFault_withStaging {k k' : Host.Outcome State Fault Refusal}
    (hk : k' = mapNext (withStaging c lo hi) k) :
    unlessDecoderFault (withStaging c lo hi s) k' = mapNext (withStaging c lo hi) (unlessDecoderFault s k) := by
  by_cases hd : s.decoder.df = .none
  · rw [unlessDecoderFault_ready hd, ← hk]
    exact unlessDecoderFault_ready (s := withStaging c lo hi s) hd k'
  · rw [unlessDecoderFault_blocked hd]
    exact unlessDecoderFault_blocked (s := withStaging c lo hi s) hd k'

section

variable (hf : s.flight = some l)
include hf

/-- The code operand of a command in flight is the latched one (70_reset_and_hazards.md R217). -/
theorem latchedCode_withStaging : latchedCode (withStaging c lo hi s) = latchedCode s := by
  simp [latchedCode, withStaging, hf]

/-- The original length of a command in flight is the latched one (70_reset_and_hazards.md R217). -/
theorem latchedLen_withStaging : latchedLen (withStaging c lo hi s) = latchedLen s := by
  simp [latchedLen, withStaging, hf]

/-- The wait of a command in flight keeps its latch. -/
theorem awaitAnswer_withStaging (i : Instr) (w : OutputWrite) :
    awaitAnswer i w (withStaging c lo hi s) = withStaging c lo hi (awaitAnswer i w s) := by
  simp [awaitAnswer, latchOf, withStaging, hf]

/-- The end of a packing command keeps what is staged. -/
theorem settlePack_withStaging (i : Instr) (p : Progress PackRun PfCause) :
    settlePack i (withStaging c lo hi s) p = mapNext (withStaging c lo hi) (settlePack i s p) := by
  cases p with
  | running r => rfl
  | raised r cause => rfl
  | waiting w => exact congrArg Host.Outcome.next (awaitAnswer_withStaging c lo hi hf i w)

/-- The end of a feed keeps what is staged. -/
theorem settleWalk_withStaging (i : Instr) (p : Progress WalkRun DfCause) :
    settleWalk i (withStaging c lo hi s) p = mapNext (withStaging c lo hi) (settleWalk i s p) := by
  cases p with
  | running r => rfl
  | raised r cause => rfl
  | waiting w => exact congrArg Host.Outcome.next (awaitAnswer_withStaging c lo hi hf i w)

/-- A command in flight that is no SOFT_RESET neither sees nor changes what is staged (70_reset_and_hazards.md R217). -/
theorem exec_withStaging {i : Instr} (hne : i ≠ .softReset) :
    exec i (withStaging c lo hi s) = mapNext (withStaging c lo hi) (exec i s) := by
  have code := latchedCode_withStaging c lo hi hf
  cases i with
  | softReset => exact absurd rfl hne
  | nop => rfl
  | pReset => rfl
  | dReset => rfl
  | pPackCode len =>
    rw [exec, execPPackCode, code]
    exact unlessPackerFault_withStaging c lo hi (settlePack_withStaging c lo hi hf _ _)
  | pPackSym sym => exact unlessPackerFault_withStaging c lo hi (settlePack_withStaging c lo hi hf _ _)
  | pFlush => exact unlessPackerFault_withStaging c lo hi (settlePack_withStaging c lo hi hf _ _)
  | ctWrite sym len =>
    rw [exec, execCtWrite, code]
    exact unlessPackerFault_withStaging c lo hi rfl
  | ctClear => exact unlessPackerFault_withStaging c lo hi rfl
  | dInsert sym len =>
    rw [exec, execDInsert, code]
    refine unlessDecoderFault_withStaging c lo hi ?_
    cases h : insertCode s.params.nodeCap sym (codeBits (latchedCode s) len.toNat) s.decoder <;>
      simp only [withStaging, h] <;> rfl
  | dStart =>
    rw [exec, execDStart, latchedLen_withStaging c lo hi hf]
    exact unlessDecoderFault_withStaging c lo hi rfl
  | dFeedBit b => exact unlessDecoderFault_withStaging c lo hi (settleWalk_withStaging c lo hi hf _ _)
  | dFeedByte byte => exact unlessDecoderFault_withStaging c lo hi (settleWalk_withStaging c lo hi hf _ _)

end

end

/-- Settles O45: every command but SOFT_RESET works from its latch, and ResetAll sets what is staged. -/
theorem stagingWritesMissTheCommandInFlight : Obligations.StagingWritesMissTheCommandInFlight := by
  intro i s t l c lo hi hf e
  refine ⟨fun hne => ?runs, ?resets⟩
  case runs =>
    have run := exec_withStaging c lo hi hf hne
    rw [e] at run
    exact run
  case resets =>
    rintro rfl
    exact e

end Sys2Proof.Machine
end

section
/-! The packed stream with every SinkWrite answered `ok` (40_packer.md R121): packing appends to the bits taken, and the
final flush sends the bits held, zero-padded. -/

namespace Sys2Proof.Safety

open Sys2Proof.Machine

/-! ## The bytes of a final flush -/

/-- The stream bits of a list of bytes given bit by bit. -/
theorem streamBits_map_range {f : Nat → Byte} {g : Nat → Bool} (n : Nat)
    (h : ∀ k < n, ∀ j < 8, byteStreamBit (f k) j = g (8 * k + j)) :
    streamBits ((List.range n).map f) = (List.range (8 * n)).map g := by
  induction n with
  | zero => rfl
  | succ n ih =>
    have last : byteBits (f n) = (List.range 8).map (fun j => g (8 * n + j)) :=
      List.map_congr_left (fun j hj => h n (by omega) j (List.mem_range.1 hj))
    rw [List.range_succ, List.map_append, streamBits_append, ih (fun k hk => h k (by omega)),
      show 8 * (n + 1) = 8 * n + 8 by omega, List.range_add, List.map_append, List.map_map]
    exact congrArg _ ((List.append_nil _).trans last)

/-- The padding keeps the bits before OFF mod 8 and clears the others (40_packer.md R116). -/
theorem byteStreamBit_padMask (off : Nat) (b : Byte) {j : Nat} (hj : j < 8) :
    byteStreamBit (padMask off b) j = (decide (off % 8 = 0 ∨ j < off % 8) && byteStreamBit b j) := by
  unfold padMask byteStreamBit
  split
  · simp [*]
  · have mask : ∀ m j : Fin 8, (0xFF#8 <<< (8 - m.val)).getLsbD (7 - j.val) = decide (j.val < m.val) := by decide
    have hm := mask ⟨off % 8, Nat.mod_lt _ (by decide)⟩ ⟨j, hj⟩
    rw [BitVec.getLsbD_and, hm]
    simp [*, Bool.and_comm]

/-- Byte `k` of a final flush (40_packer.md R116). -/
def flushByte (r : PackRun) (k : Nat) : Byte :=
  if k + 1 = (r.off + 7) / 8 then padMask r.off (bufByte r.buf k) else bufByte r.buf k

/-- The bytes of a final flush one by one. -/
theorem flushBytes_eq (r : PackRun) : flushBytes r = (List.range ((r.off + 7) / 8)).map (flushByte r) := rfl

/-- A byte of a final flush holds the bits of BUF before OFF, and zeros after them. -/
theorem byteStreamBit_flushByte (r : PackRun) {k j : Nat} (hk : k < (r.off + 7) / 8) (hj : j < 8) :
    byteStreamBit (flushByte r k) j = (decide (8 * k + j < r.off) && bufBit r.buf (8 * k + j)) := by
  have held : bufBit r.buf (8 * k + j) = byteStreamBit (bufByte r.buf k) j := by
    simp only [bufBit, show (8 * k + j) / 8 = k by omega, show (8 * k + j) % 8 = j by omega]
  rw [held]
  unfold flushByte
  split
  · have padded : (r.off % 8 = 0 ∨ j < r.off % 8) ↔ 8 * k + j < r.off := by omega
    rw [byteStreamBit_padMask r.off _ hj, decide_eq_decide.2 padded]
  · simp [show 8 * k + j < r.off by omega]

/-- A final flush sends pack of the bits held (40_packer.md R116). -/
theorem isPackOf_flushBytes (r : PackRun) : IsPackOf (heldBits r.buf r.off) (flushBytes r) := by
  have len : (flushBytes r).length = (r.off + 7) / 8 := by simp [flushBytes_eq]
  have cut : 8 * ((r.off + 7) / 8) = r.off + (8 * ((r.off + 7) / 8) - r.off) := by omega
  refine ⟨by rw [len, heldBits_length], ?_⟩
  rw [len, heldBits_length, flushBytes_eq,
    streamBits_map_range (g := fun q => decide (q < r.off) && bufBit r.buf q) _
      (fun k hk j hj => byteStreamBit_flushByte r hk hj),
    cut, List.range_add, List.map_append, Nat.add_sub_cancel_left, List.map_map]
  congr 1
  · exact List.map_congr_left (fun q hq => by simp [List.mem_range.1 hq])
  · simp [Function.comp_def]

/-- Whole bytes before packed bits. -/
theorem IsPackOf.prepend {bits : List Bool} {bytes : List Byte} (h : IsPackOf bits bytes) (before : List Byte) :
    IsPackOf (streamBits before ++ bits) (before ++ bytes) := by
  obtain ⟨len, packed⟩ := h
  constructor
  · rw [List.length_append, List.length_append, streamBits_length]
    omega
  · rw [streamBits_append, packed, List.length_append, List.length_append, streamBits_length, List.append_assoc,
      show 8 * (before.length + bytes.length) - (8 * before.length + bits.length) = 8 * bytes.length - bits.length by omega]

/-! ## Packing with every answer `ok` -/

/-- `r'` is `r` with `bits` packed: the bits taken, and of the answers at most one met for each bit. -/
structure Packed (bits : List Bool) (r r' : PackRun) : Prop where
  taken : takenBits r'.log r'.buf r'.off = takenBits r.log r.buf r.off ++ bits
  answers : r'.answers <:+ r.answers
  used : r.answers.length ≤ r'.answers.length + bits.length

/-- No bits packed. -/
theorem Packed.refl (r : PackRun) : Packed [] r r := ⟨by simp, List.suffix_rfl, Nat.le_add_right _ _⟩

/-- Bits packed one list after another. -/
theorem Packed.trans {xs ys : List Bool} {r r₁ r₂ : PackRun} (h : Packed xs r r₁) (k : Packed ys r₁ r₂) :
    Packed (xs ++ ys) r r₂ where
  taken := by rw [k.taken, h.taken, List.append_assoc]
  answers := k.answers.trans h.answers
  used := by
    have := h.used
    have := k.used
    rw [List.length_append]
    omega

section

variable {cap : Nat} {p : Packer} {r : PackRun}

/-- PackBit with an `ok` at hand (40_packer.md R111, R112). -/
theorem packBit_packed (b : Bool) (hw : Memory.wf (0 : Byte) r.buf) (hok : ∀ a ∈ r.answers, a = .ok)
    (hne : r.answers ≠ []) : ∃ r', packBit cap b r = .running r' ∧ Packed [b] r r' := by
  have placed : heldBits (setBufBit r.buf r.off b) (r.off + 1) = heldBits r.buf r.off ++ [b] :=
    heldBits_setBufBit hw r.off b
  by_cases hfull : r.off + 1 = 8 * cap
  · obtain ⟨a, rest, ha⟩ := List.exists_cons_of_ne_nil hne
    obtain rfl : a = .ok := hok a (by simp [ha])
    refine ⟨_, packBit_fill_ok b hfull ha, ?taken, ?answers, ?used⟩
    case taken =>
      have sent : streamBits (bufBytes (setBufBit r.buf r.off b) cap) = heldBits r.buf r.off ++ [b] := by
        rw [streamBits_bufBytes, ← hfull, placed]
      show streamBits (sunkBytes (r.log ++ [_])) ++ [] = streamBits (sunkBytes r.log) ++ heldBits r.buf r.off ++ [b]
      rw [List.append_nil, sunkBytes_append, streamBits_append, List.append_assoc, ← sent]
      simp [sunkBytes]
    case answers => exact ha ▸ List.suffix_cons _ _
    case used => simp [ha]
  · refine ⟨_, packBit_place b hfull, ?taken, List.suffix_rfl, Nat.le_add_right _ _⟩
    case taken => simp only [takenBits, placeBit, placed, List.append_assoc]

/-- PackBit of each bit in turn, with an `ok` at hand for each (40_packer.md R114). -/
theorem packBits_packed (hc : 1 ≤ cap) (hp : p.pf = .none) (bits : List Bool) (inv : PackerInv cap (packerOfRun p r))
    (hok : ∀ a ∈ r.answers, a = .ok) (hlen : bits.length ≤ r.answers.length) :
    ∃ r', packBits cap bits r = .running r' ∧ Packed bits r r' := by
  induction bits generalizing r with
  | nil => exact ⟨r, rfl, .refl r⟩
  | cons b bs ih =>
    rw [List.length_cons] at hlen
    obtain ⟨r₁, h₁, k₁⟩ := packBit_packed (cap := cap) b inv.bufWf hok (List.ne_nil_of_length_pos (by omega))
    have inv₁ : PackKeepsInv cap p (.running r₁) := h₁ ▸ packBit_keepsInv hc hp b inv
    have used : r.answers.length ≤ r₁.answers.length + 1 := k₁.used
    obtain ⟨r₂, h₂, k₂⟩ := ih inv₁ (fun a ha => hok a (k₁.answers.subset ha)) (by omega)
    exact ⟨r₂, Progress.andThen_running.2 ⟨r₁, h₁, h₂⟩, k₁.trans k₂⟩

/-- The final flush with an `ok` at hand: the bytes held go to the sink, and the buffer is clear (40_packer.md R116). -/
theorem finalFlush_ok (hok : ∀ a ∈ r.answers, a = .ok) (hne : r.answers ≠ []) :
    ∃ r', finalFlush r = .running r' ∧ sunkBytes r'.log = sunkBytes r.log ++ flushBytes r ∧ r'.buf = [] ∧ r'.off = 0 := by
  by_cases h0 : (r.off + 7) / 8 = 0
  · refine ⟨_, if_pos h0, ?_, rfl, rfl⟩
    simp [flushBytes, h0]
  · rcases finalFlush_cases h0 with ⟨ha, -⟩ | ⟨rest, -, e⟩ | ⟨rest, ha, -⟩
    · exact absurd ha hne
    · refine ⟨_, e, ?_, rfl, rfl⟩
      simp [sunkBytes]
    · exact absurd (hok .err (by simp [ha])) (by decide)

end

/-- A stream of codes packs their bits joined (40_packer.md R121). -/
theorem foldl_packBits (cap : Nat) (codes : List (List Bool)) (q : Progress PackRun PfCause) :
    codes.foldl (fun q bits => q.andThen (packBits cap bits)) q = q.andThen (packBits cap codes.flatten) := by
  induction codes generalizing q with
  | nil => cases q <;> rfl
  | cons c cs ih =>
    have joined : packBits cap (c ++ cs.flatten) = fun r => (packBits cap c r).andThen (packBits cap cs.flatten) :=
      funext (packBits_append cap c cs.flatten)
    rw [List.foldl_cons, ih, Progress.andThen_assoc, List.flatten_cons, joined]

/-- The packer unit after reset meets its invariant (70_reset_and_hazards.md R210). -/
theorem packerInv_reset {cap : Nat} (hc : 1 ≤ cap) : PackerInv cap Packer.reset where
  bufWf := Memory.wf_nil
  bufRange := nofun
  ctWf := Memory.wf_nil
  ctRange := nofun
  offRange := Nat.zero_le _
  offFull (e : 0 = 8 * cap) := by omega
  clearTail q _ _ := bufBit_nil q

/-- Settles O54: the bits taken are B, and the final flush sends those still held after the whole bytes sent before. -/
theorem streamLaw : Obligations.StreamLaw := by
  intro cap codes answers hc hok hlen
  obtain ⟨r, packs, h⟩ := packBits_packed (r := { buf := [], off := 0, log := [], answers := answers })
    (p := Packer.reset) hc rfl codes.flatten (packerInv_reset hc) hok hlen.le
  have taken : takenBits r.log r.buf r.off = codes.flatten := h.taken
  have used : answers.length ≤ r.answers.length + codes.flatten.length := h.used
  obtain ⟨r', flush, sunk, hbuf, hoff⟩ := finalFlush_ok (fun a ha => hok a (h.answers.subset ha))
    (List.ne_nil_of_length_pos (by omega : 0 < r.answers.length))
  refine ⟨r', ?runs, ?packed, hoff, fun q => hbuf ▸ bufBit_nil q⟩
  case runs =>
    rw [packStream, foldl_packBits]
    exact Progress.andThen_running.2 ⟨r, packs, flush⟩
  case packed =>
    rw [sunk, ← taken]
    exact (isPackOf_flushBytes r).prepend (sunkBytes r.log)

end Sys2Proof.Safety
end

section
/-! The encoder against the decoder (30_encoding.md R96, R97): the fields of a command word, what a word that matches a
row has in its fields, the branches of `decode`, and the statements on command words. -/

namespace Sys2Proof

/-! ## The fields of a word (30_encoding.md R91 to R94) -/

@[simp] theorem opField_commandWord (len arg op : Byte) : opField (commandWord len arg op) = op :=
  BitVec.extractLsb'_append_eq_right

@[simp] theorem argField_commandWord (len arg op : Byte) : argField (commandWord len arg op) = arg :=
  (BitVec.extractLsb'_append_eq_of_le (by decide)).trans BitVec.extractLsb'_append_eq_right

@[simp] theorem lenField_commandWord (len arg op : Byte) : lenField (commandWord len arg op) = len :=
  (BitVec.extractLsb'_append_eq_of_le (by decide)).trans
    ((BitVec.extractLsb'_append_eq_of_le (by decide)).trans BitVec.extractLsb'_append_eq_right)

/-- A word with RSVD = 0 is made of its other three fields. -/
theorem commandWord_fields {w : Word} (h : rsvdField w = 0) :
    commandWord (lenField w) (argField w) (opField w) = w := by
  have joined : rsvdField w ++ lenField w ++ argField w ++ opField w = w := by
    unfold rsvdField lenField argField opField
    rw [BitVec.extractLsb'_append_extractLsb'_eq_extractLsb' (by rfl : 24 = 16 + 8),
      BitVec.extractLsb'_append_extractLsb'_eq_extractLsb' (by rfl : 16 = 8 + 8),
      BitVec.extractLsb'_append_extractLsb'_eq_extractLsb' (by rfl : 8 = 0 + 8)]
    exact BitVec.extractLsb'_eq_self
  rw [h] at joined
  exact joined

/-! ## Matching a row (30_encoding.md R97) -/

/-- Under its mask a word gives the match of a row: `(w & mask_r) = match_r`. -/
def Matches (row : Opcode) (w : Word) : Prop := w &&& opcodeMask row = opcodeMatch row

namespace Matches

variable {row : Opcode} {w : Word}

/-- A field of a word that matches a row is the match's, as far as the mask keeps it. -/
theorem field (h : Matches row w) (start : Nat) :
    w.extractLsb' start 8 &&& (opcodeMask row).extractLsb' start 8 = (opcodeMatch row).extractLsb' start 8 :=
  BitVec.extractLsb'_and.symm.trans (congrArg (BitVec.extractLsb' start 8) h)

/-- Every mask keeps all of OP, and the match has the row's number there. -/
theorem opField_eq (h : Matches row w) : opField w = opcodeByte row := by
  have masked := h.field 0
  cases row <;> exact (BitVec.and_allOnes (x := opField w)).symm.trans masked

/-- Every mask keeps all of RSVD, and the match is 0 there. -/
theorem rsvdField_eq (h : Matches row w) : rsvdField w = 0 := by
  have masked := h.field 24
  cases row <;> exact (BitVec.and_allOnes (x := rsvdField w)).symm.trans masked

/-- The bits of ARG that the mask keeps are 0 in the match. -/
theorem argField_and (h : Matches row w) : argField w &&& argField (opcodeMask row) = 0 := by
  have masked := h.field 8
  cases row <;> exact masked

/-- The bits of LEN that the mask keeps are 0 in the match. -/
theorem lenField_and (h : Matches row w) : lenField w &&& lenField (opcodeMask row) = 0 := by
  have masked := h.field 16
  cases row <;> exact masked

end Matches

/-- A row is found by its number (30_encoding.md R96). -/
theorem opcodeOf_opcodeByte (row : Opcode) : opcodeOf (opcodeByte row) = some row := by
  cases row <;> rfl

/-- No two rows have one number (30_encoding.md R96). -/
theorem opcodeByte_injective : Function.Injective opcodeByte := by
  intro r q h
  have found : some r = some q := by rw [← opcodeOf_opcodeByte r, h, opcodeOf_opcodeByte]
  exact Option.some.inj found

/-- Settles O3: the mask keeps all of OP, and rows have different numbers there. -/
theorem noWordMatchesTwoRows : Obligations.NoWordMatchesTwoRows := by
  intro w r q hr hq
  have hop : opcodeByte r = opcodeByte q := (Matches.opField_eq hr).symm.trans (Matches.opField_eq hq)
  exact opcodeByte_injective hop

/-! ## The row's command and its word -/

/-- The word of every command matches its row. -/
theorem matches_encode (i : Instr) : Matches (opcodeOfInstr i) (encode i) := by
  cases i with
  | nop => exact Laws.MatchesRow.nop
  | softReset => exact Laws.MatchesRow.softReset
  | pReset => exact Laws.MatchesRow.pReset
  | pPackCode len => exact Laws.MatchesRow.pPackCode len
  | pPackSym sym => exact Laws.MatchesRow.pPackSym sym
  | pFlush => exact Laws.MatchesRow.pFlush
  | ctWrite sym len => exact Laws.MatchesRow.ctWrite sym len
  | ctClear => exact Laws.MatchesRow.ctClear
  | dReset => exact Laws.MatchesRow.dReset
  | dInsert sym len => exact Laws.MatchesRow.dInsert sym len
  | dStart => exact Laws.MatchesRow.dStart
  | dFeedBit b => exact Laws.MatchesRow.dFeedBit b
  | dFeedByte byte => exact Laws.MatchesRow.dFeedByte byte

/-- The operands a row takes from the word of its command are the command's. -/
theorem commandOf_encode (i : Instr) : commandOf (opcodeOfInstr i) (encode i) = i := by
  cases i with
  | dFeedBit b => cases b <;> rfl
  | _ => simp [commandOf, opcodeOfInstr, encode]

/-- An ARG of 0 and 1 only is that of its lowest bit. -/
theorem bitArg_getLsbD {arg : Byte} (h : arg &&& 0xFE#8 = 0) : bitArg (arg.getLsbD 0) = arg := by
  revert arg
  decide

/-- The lowest bit of ARG is CMD[8]. -/
theorem getLsbD_argField (w : Word) : (argField w).getLsbD 0 = w.getLsbD 8 := by
  rw [argField, BitVec.getLsbD_extractLsb']
  rfl

/-- Every field of a word that matches a row is the row's number, an operand of its command, or 0. -/
theorem encode_commandOf {row : Opcode} {w : Word} (h : Matches row w) : encode (commandOf row w) = w := by
  have noLen : lenField (opcodeMask row) = BitVec.allOnes 8 → lenField w = 0 := fun e =>
    BitVec.and_allOnes.symm.trans (e ▸ h.lenField_and)
  have noArg : argField (opcodeMask row) = BitVec.allOnes 8 → argField w = 0 := fun e =>
    BitVec.and_allOnes.symm.trans (e ▸ h.argField_and)
  have argBit : argField (opcodeMask row) = 0xFE#8 → bitArg (w.getLsbD 8) = argField w := fun e =>
    getLsbD_argField w ▸ bitArg_getLsbD (e ▸ h.argField_and)
  refine Eq.trans ?_ (commandWord_fields h.rsvdField_eq)
  rw [h.opField_eq]
  cases row with
  | ctWrite => rfl
  | dInsert => rfl
  | pPackCode => rw [noArg rfl]; rfl
  | pPackSym => rw [noLen rfl]; rfl
  | dFeedByte => rw [noLen rfl]; rfl
  | dFeedBit => rw [noLen rfl, ← argBit rfl]; rfl
  | _ => rw [noLen rfl, noArg rfl]; rfl

/-- The code length a row's command takes from a word. -/
theorem codeLength?_commandOf (row : Opcode) (w : Word) :
    (commandOf row w).codeLength? = if takesLength row = true then some (lenField w) else none := by
  cases row <;> rfl

/-- A row's command is well formed unless its code length is 0 (30_encoding.md R93). -/
theorem wellFormed_commandOf (row : Opcode) (w : Word) :
    (commandOf row w).wellFormed = true ↔ ¬ (takesLength row = true ∧ lenField w = 0) := by
  rw [Instr.wellFormed, codeLength?_commandOf]
  split <;> simp_all

/-! ## The branches of `decode` (30_encoding.md R102) -/

/-- RSVD is checked before OP (30_encoding.md R99). -/
theorem decode_rsvd {w : Word} (h : rsvdField w ≠ 0) : decode w = .error .rsvdNonzero := if_pos h

/-- An OP that has a row is that row's number. -/
theorem opcodeByte_of_opcodeOf {op : Byte} {row : Opcode} (h : opcodeOf op = some row) : opcodeByte row = op := by
  simpa using List.find?_some h

/-- An OP of no row (30_encoding.md R98). -/
theorem decode_noRow {w : Word} (h : rsvdField w = 0) (hop : ∀ row, opcodeByte row ≠ opField w) :
    decode w = .error .badOpcode := by
  have none : opcodeOf (opField w) = none := by
    cases e : opcodeOf (opField w) with
    | none => rfl
    | some row => exact absurd (opcodeByte_of_opcodeOf e) (hop row)
  simp [decode, h, none]

/-- An OP of a row: the checks that follow (30_encoding.md R99, R100). -/
theorem decode_row {w : Word} {row : Opcode} (h : rsvdField w = 0) (hop : opcodeByte row = opField w) :
    decode w =
      if w &&& opcodeMask row ≠ opcodeMatch row then .error .rsvdNonzero
      else if takesLength row = true ∧ lenField w = 0 then .error .badLen
      else .ok (commandOf row w) := by
  have row_found : opcodeOf (opField w) = some row := hop ▸ opcodeOf_opcodeByte row
  rw [decode, if_neg (not_not.2 h), row_found]

/-- An OP of a row, with a must-be-zero bit set (30_encoding.md R99). -/
theorem decode_mismatch {w : Word} {row : Opcode} (h : rsvdField w = 0) (hop : opcodeByte row = opField w)
    (hm : ¬ Matches row w) : decode w = .error .rsvdNonzero :=
  (decode_row h hop).trans (if_pos hm)

/-- A word that matches a row which takes a code length, with L = 0 (30_encoding.md R100). -/
theorem decode_badLen {w : Word} {row : Opcode} (hm : Matches row w) (ht : takesLength row = true)
    (hl : lenField w = 0) : decode w = .error .badLen :=
  (decode_row hm.rsvdField_eq hm.opField_eq.symm).trans ((if_neg (not_not.2 hm)).trans (if_pos ⟨ht, hl⟩))

/-- A word that matches a row decodes to the row's command, if that is one. -/
theorem decode_match {w : Word} {row : Opcode} (hm : Matches row w) (hw : (commandOf row w).wellFormed = true) :
    decode w = .ok (commandOf row w) :=
  (decode_row hm.rsvdField_eq hm.opField_eq.symm).trans
    ((if_neg (not_not.2 hm)).trans (if_neg ((wellFormed_commandOf row w).1 hw)))

/-- A word that decodes matches the row whose well-formed command it decodes to. -/
theorem decode_ok {w : Word} {i : Instr} (h : decode w = .ok i) :
    ∃ row, Matches row w ∧ (commandOf row w).wellFormed = true ∧ i = commandOf row w := by
  unfold decode at h
  split at h
  · cases h
  · split at h
    · cases h
    · rename_i row _
      split at h
      · cases h
      · rename_i hm
        split at h
        · cases h
        · rename_i hlen
          cases h
          exact ⟨row, not_not.1 hm, (wellFormed_commandOf row w).2 hlen, rfl⟩

/-- Settles O1: the word of a command matches its row, and the row takes the command's operands from it. -/
theorem decodeOfEncodeIsTheCommand : Obligations.DecodeOfEncodeIsTheCommand := by
  intro i hi
  have decodes := decode_match (matches_encode i)
  rw [commandOf_encode] at decodes
  exact decodes hi

/-- Settles O2: the word matches the row of its command, and every field the row does not read is 0. -/
theorem encodeOfDecodeIsTheWord : Obligations.EncodeOfDecodeIsTheWord := by
  intro w i h
  obtain ⟨row, hm, hi, rfl⟩ := decode_ok h
  exact ⟨hi, encode_commandOf hm⟩

/-- Settles O4: each word matches its row and carries a code length where the row takes one. -/
theorem listedWordsDecode : Obligations.ListedWordsDecode := by
  unfold Obligations.ListedWordsDecode
  decide

end Sys2Proof

/-! ## Acceptance (30_encoding.md R102) -/

namespace Sys2Proof.Machine

/-- The rows that take a code length (30_encoding.md R97). -/
theorem takesLength_iff (row : Opcode) :
    takesLength row = true ↔ row = .pPackCode ∨ row = .ctWrite ∨ row = .dInsert := by
  cases row <;> decide

/-- Settles O5: the clauses are the branches of `decode`, and acceptance raises the cause of each. -/
theorem illegalWordsRaiseTheirCause : Obligations.IllegalWordsRaiseTheirCause := by
  intro w s hf
  refine ⟨fun h => ?rsvd, fun h hop => ?noRow, fun row h hop => ⟨fun hm => ?mismatch, fun hm ht hl => ?badLen,
    fun hm hl => ?command⟩⟩
  case rsvd => exact accept_error hf (decode_rsvd h)
  case noRow => exact accept_error hf (decode_noRow h hop)
  case mismatch => exact accept_error hf (decode_mismatch h hop hm)
  case badLen => exact accept_error hf (decode_badLen hm ((takesLength_iff row).2 ht) hl)
  case command =>
    have hw : (commandOf row w).wellFormed = true :=
      (wellFormed_commandOf row w).2 (fun ⟨ht, h0⟩ => hl ((takesLength_iff row).1 ht) h0)
    exact accept_ok hf (decode_match hm hw)

/-- Settles O6: the write reaches CMD, where the BUSY check comes first. -/
theorem commandWriteWhileBusyIsDropped : Obligations.CommandWriteWhileBusyIsDropped := by
  intro w s hf
  have busy : s.busy = true := Option.isSome_iff_ne_none.2 hf
  exact (busAccess_writeRegister .cmd w s).trans (if_pos busy)

end Sys2Proof.Machine
end

section
/-! Every command, and with it every step, answers a next state (60_exceptions.md R180). -/

namespace Sys2Proof.Machine

open Sys2Proof.Safety

/-- A packer command answers a next state whether its unit's fault blocks it or not (40_packer.md R110). -/
theorem unlessPackerFault_next {s : State} {k : Host.Outcome State Fault Refusal} (h : ∃ t, k = .next t) :
    ∃ t, unlessPackerFault s k = .next t := by
  by_cases hp : s.packer.pf = .none
  · rwa [unlessPackerFault_ready hp]
  · exact ⟨_, unlessPackerFault_blocked hp k⟩

/-- A decoder command answers a next state whether its unit's fault blocks it or not (41_decoder.md R140). -/
theorem unlessDecoderFault_next {s : State} {k : Host.Outcome State Fault Refusal} (h : ∃ t, k = .next t) :
    ∃ t, unlessDecoderFault s k = .next t := by
  by_cases hd : s.decoder.df = .none
  · rwa [unlessDecoderFault_ready hd]
  · exact ⟨_, unlessDecoderFault_blocked hd k⟩

/-- The end of a packing command answers a next state. -/
theorem settlePack_next (i : Instr) (s : State) (p : Progress PackRun PfCause) : ∃ t, settlePack i s p = .next t := by
  rcases settlePack_cases i s p with ⟨_, -, e⟩ | ⟨_, _, -, e⟩ | ⟨_, -, e⟩ <;> exact ⟨_, e⟩

/-- The end of a feed answers a next state. -/
theorem settleWalk_next (i : Instr) (s : State) (p : Progress WalkRun DfCause) : ∃ t, settleWalk i s p = .next t := by
  rcases settleWalk_cases i s p with ⟨_, -, e⟩ | ⟨_, _, -, e⟩ | ⟨_, -, e⟩ <;> exact ⟨_, e⟩

/-- Every command answers a next state, in every state. -/
theorem exec_next (i : Instr) (s : State) : ∃ t, exec i s = .next t := by
  cases i with
  | nop => exact ⟨_, rfl⟩
  | softReset => exact ⟨_, rfl⟩
  | pReset => exact ⟨_, rfl⟩
  | pPackCode len => exact unlessPackerFault_next (settlePack_next _ _ _)
  | pPackSym sym => exact unlessPackerFault_next (settlePack_next _ _ _)
  | pFlush => exact unlessPackerFault_next (settlePack_next _ _ _)
  | ctWrite sym len => exact unlessPackerFault_next ⟨_, rfl⟩
  | ctClear => exact unlessPackerFault_next ⟨_, rfl⟩
  | dReset => exact ⟨_, rfl⟩
  | dInsert sym len =>
    refine unlessDecoderFault_next ?_
    split <;> exact ⟨_, rfl⟩
  | dStart => exact unlessDecoderFault_next ⟨_, rfl⟩
  | dFeedBit b => exact unlessDecoderFault_next (settleWalk_next _ _ _)
  | dFeedByte byte => exact unlessDecoderFault_next (settleWalk_next _ _ _)

/-- An access of the host latches nothing but a command (30_encoding.md R102). -/
theorem latchInv_access {s t : State} (h : LatchInv s) (a : AccessResult s t) : LatchInv t := by
  cases a with
  | latches w i _ hd =>
    rintro l ⟨rfl⟩
    exact ⟨i, hd⟩
  | _ => exact h

/-- An access of the host, recorded, latches nothing but a command, whatever is left in the host's list. -/
theorem latchInv_hostAccess {s : State} (h : LatchInv s) (a : Access) (ops : List HostOp) :
    LatchInv (hostAccess a { s with script := ops }) :=
  have before : LatchInv { s with script := ops } := h
  have after : LatchInv (busAccess a { s with script := ops }) := latchInv_access before (busAccess_result a _)
  after

/-- The host's turn latches nothing but a command. -/
theorem latchInv_hostTurn {s : State} (h : LatchInv s) : LatchInv (hostTurn s) := by
  rcases hostTurn_cases s with ⟨-, e⟩ | ⟨a, rest, -, e⟩ | ⟨rest, more, -, -, e⟩ <;> rw [e]
  · exact h
  · exact latchInv_hostAccess h a rest
  · exact latchInv_hostAccess h _ more

/-- The block's turn answers a next state: what is latched is a command. -/
theorem blockTurn_next {s : State} (h : LatchInv s) : ∃ t, blockTurn s = .next t := by
  cases hf : s.flight with
  | none => exact ⟨_, blockTurn_idle hf⟩
  | some l =>
    cases ho : l.outstanding with
    | some w => exact ⟨_, blockTurn_waits hf ho⟩
    | none =>
      obtain ⟨i, hd⟩ := h l hf
      rw [blockTurn_runs hf ho hd]
      exact exec_next i s

/-- The synchronous turn answers a next state (log entry 3). -/
theorem syncTurn_next {s : State} (h : LatchInv s) : ∃ t, syncTurn s = .next t := by
  unfold syncTurn
  split
  · exact blockTurn_next (latchInv_hostTurn h)
  · split
    · exact blockTurn_next h
    · exact ⟨_, rfl⟩
    · exact ⟨_, rfl⟩

/-- The move of every agent answers a next state. -/
theorem takeTurn_next (turn : Turn) {s : State} (h : LatchInv s) : ∃ t, takeTurn turn s = .next t := by
  cases turn with
  | sync => exact syncTurn_next h
  | block => exact blockTurn_next h
  | _ => exact ⟨_, rfl⟩

/-- Settles O53: every agent's move answers a next state, since only a command is latched and every command does. -/
theorem everyStepHasANextState : Obligations.EveryStepHasANextState := by
  intro s h
  cases hs : s.turns with
  | nil =>
    rw [step_sync hs]
    exact syncTurn_next h
  | cons turn rest =>
    rw [step_turn hs]
    exact takeTurn_next turn h

end Sys2Proof.Machine
end

section
/-! Packing within the buffer (40_packer.md R111, R114): bits assigned one after another from OFF on, when none of them
fills the buffer. -/

namespace Sys2Proof.Machine

/-- Assigning the bits of BUF one after another from stream position `p` on. -/
def setBufBits : List Host.Cell → Nat → List Bool → List Host.Cell
  | buf, _, [] => buf
  | buf, p, b :: bs => setBufBits (setBufBit buf p b) (p + 1) bs

/-- Bits that do not fill the buffer are only placed. -/
theorem packBits_within {cap : Nat} {bits : List Bool} {r : PackRun} (h : r.off + bits.length < 8 * cap) :
    packBits cap bits r = .running { r with buf := setBufBits r.buf r.off bits, off := r.off + bits.length } := by
  induction bits generalizing r with
  | nil => rfl
  | cons b bs ih =>
    rw [List.length_cons] at h
    have placed : (placeBit b r).off + bs.length < 8 * cap := by
      show r.off + 1 + bs.length < 8 * cap
      omega
    refine Progress.andThen_running.2 ⟨placeBit b r, packBit_place b (by omega), (ih placed).trans ?_⟩
    simp only [placeBit, setBufBits, List.length_cons]
    rw [Nat.add_assoc, Nat.add_comm 1]

/-- The assigned bits are those of the list, and every other bit stays. -/
theorem bufBit_setBufBits {buf : List Host.Cell} (h : Memory.wf (0 : Byte) buf) (p q : Nat) (bits : List Bool) :
    bufBit (setBufBits buf p bits) q =
      if p ≤ q ∧ q < p + bits.length then bits.getD (q - p) false else bufBit buf q := by
  induction bits generalizing buf p with
  | nil => rw [if_neg (by simp)]; rfl
  | cons b bs ih =>
    rw [setBufBits, ih (wf_setBufBit h p b), List.length_cons]
    by_cases hq : q = p
    · subst hq
      rw [if_neg (by omega), if_pos (by omega), bufBit_setBufBit_same h, Nat.sub_self, List.getD_cons_zero]
    · rw [bufBit_setBufBit_other h hq]
      by_cases hin : p + 1 ≤ q ∧ q < p + 1 + bs.length
      · rw [if_pos hin, if_pos (by omega), show q - p = q - (p + 1) + 1 by omega, List.getD_cons_succ]
      · rw [if_neg hin, if_neg (by omega)]

/-- A byte that holds none of the assigned bits stays. -/
theorem bufByte_setBufBits (buf : List Host.Cell) (p : Nat) (bits : List Bool) {k : Nat}
    (h : k < p / 8 ∨ (p + bits.length + 7) / 8 ≤ k) : bufByte (setBufBits buf p bits) k = bufByte buf k := by
  induction bits generalizing buf p with
  | nil => rfl
  | cons b bs ih =>
    rw [List.length_cons] at h
    rw [setBufBits, ih _ _ (by omega)]
    exact Memory.read_write_other _ (by omega) _

/-- The bit of a code at a place below its length. -/
theorem codeBits_getD (c : CodeWords) {n i : Nat} (h : i < n) : (codeBits c n).getD i false = codebit c i := by
  simp [codeBits, List.getD, h]

/-- Settles O20: the bits are placed from OFF on, and no SinkWrite is made. -/
theorem packCodeWithinTheBuffer : Obligations.PackCodeWithinTheBuffer := by
  intro s len hp hw hfit
  have hlen : (codeBits (latchedCode s) len.toNat).length = len.toNat := codeBits_length _ _
  have packs := packBits_within (bits := codeBits (latchedCode s) len.toNat) (r := startPack s) (hlen.symm ▸ hfit)
  rw [hlen] at packs
  refine ⟨setBufBits s.packer.buf s.packer.off (codeBits (latchedCode s) len.toNat), ?next, fun p => ?bits,
    fun k hk => bufByte_setBufBits _ _ _ (hlen.symm ▸ hk)⟩
  case next =>
    show unlessPackerFault s (settlePack _ s _) = _
    rw [unlessPackerFault_ready hp, packs]
    simp [settlePack, complete, storePack, startPack]
  case bits =>
    rw [bufBit_setBufBits hw, hlen]
    split
    · exact codeBits_getD _ (by omega)
    · rfl

end Sys2Proof.Machine
end

section
/-! LDCODE (30_encoding.md R104): the words it computes hold the code's bits, and its writes set CODE0..7 to them. -/

namespace Sys2Proof.Machine

open Sys2Proof.Safety

/-! ## The words of LDCODE -/

/-- A word with bit 31 − j set for each j below `n` for which `g j` holds, as LDCODE builds it. -/
def gatherBits (g : Nat → Bool) (n : Nat) : Word :=
  (List.range n).foldl (fun v j => if g j then v ||| (1#32 <<< (31 - j)) else v) 0

/-- The word v_k of LDCODE gathers bits 32k to 32k + 31 of the code. -/
theorem loadWord_eq_gatherBits (bits : List Bool) (k : Nat) :
    loadWord bits k = gatherBits (fun j => bits.getD (32 * k + j) false) 32 := rfl

/-- One more bit gathered. -/
theorem gatherBits_succ (g : Nat → Bool) (n : Nat) :
    gatherBits g (n + 1) = if g n then gatherBits g n ||| (1#32 <<< (31 - n)) else gatherBits g n := by
  rw [gatherBits, List.range_succ, List.foldl_append]
  rfl

/-- The bits gathered, and 0 elsewhere. -/
theorem getLsbD_gatherBits (g : Nat → Bool) {n j : Nat} (hn : n ≤ 32) (hj : j < 32) :
    (gatherBits g n).getLsbD (31 - j) = (decide (j < n) && g j) := by
  induction n with
  | zero => simp [gatherBits]
  | succ n ih =>
    have before := ih (by omega)
    have added : (1#32 <<< (31 - n)).getLsbD (31 - j) = decide (j = n) := by
      rw [← BitVec.twoPow_eq, BitVec.getLsbD_twoPow, decide_eq_true (by omega : 31 - n < 32), Bool.true_and,
        decide_eq_decide]
      omega
    rw [gatherBits_succ]
    by_cases hjn : j = n
    · subst hjn
      cases hg : g j <;> simp [before, added, hg]
    · have same : j < n + 1 ↔ j < n := by omega
      cases g n <;> simp [before, added, hjn, same]

/-- v_k[31 − j] = c_(32k + j) where 32k + j < L, and 0 elsewhere (30_encoding.md R104). -/
theorem getLsbD_loadWord (bits : List Bool) (k : Nat) {j : Nat} (hj : j < 32) :
    (loadWord bits k).getLsbD (31 - j) = bits.getD (32 * k + j) false := by
  rw [loadWord_eq_gatherBits, getLsbD_gatherBits _ le_rfl hj, decide_eq_true hj, Bool.true_and]

/-! ## The writes of LDCODE -/

/-- CODEk <- f k for each k of a list in turn. -/
def setCodeWords (f : Fin 8 → Word) (ks : List (Fin 8)) (c : CodeWords) : CodeWords :=
  ks.foldl (fun c k => setCodeWord c k (f k)) c

/-- A word of CODE after several were set. -/
theorem codeWord_setCodeWords (f : Fin 8 → Word) (ks : List (Fin 8)) (c : CodeWords) (j : Fin 8) :
    codeWord (setCodeWords f ks c) j.val = if j ∈ ks then f j else codeWord c j.val := by
  induction ks generalizing c with
  | nil => rfl
  | cons k ks ih =>
    rw [show setCodeWords f (k :: ks) c = setCodeWords f ks (setCodeWord c k (f k)) from rfl, ih, codeWord_setCodeWord]
    by_cases hj : j ∈ ks
    · simp [hj]
    · by_cases hk : k = j
      · simp [hk]
      · simp [hj, hk, Ne.symm hk]

/-- Writes to CODE set its words and change nothing else (42_global.md R172). -/
theorem doAccesses_writeCode (f : Fin 8 → Word) (ks : List (Fin 8)) (s : State) :
    doAccesses (ks.map (fun k => scriptWr s.params (.code k) (f k))) s = { s with code := setCodeWords f ks s.code } := by
  induction ks generalizing s with
  | nil => rfl
  | cons k ks ih =>
    have write : busAccess (.write (s.params.base + regOffset (.code k)) 4 (f k)) s =
        { s with code := setCodeWord s.code k (f k) } := busAccess_writeRegister (.code k) (f k) s
    exact (congrArg (doAccesses (ks.map (fun k => scriptWr s.params (.code k) (f k)))) write).trans
      (ih { s with code := setCodeWord s.code k (f k) })

/-- Settles O13: bit i of the code is in word i div 32, which is among the words written. -/
theorem ldcodeLoadsTheCode : Obligations.LdcodeLoadsTheCode := by
  intro bits s hlen
  refine ⟨_, doAccesses_writeCode (fun k => loadWord bits k.val) _ s, List.ext_getElem (codeBits_length _ _) ?_⟩
  intro i _ hi
  have word : i / 32 < 8 := by omega
  have written : (⟨i / 32, word⟩ : Fin 8) ∈ (List.finRange 8).filter (fun k => 32 * k.val < bits.length) :=
    List.mem_filter.2 ⟨List.mem_finRange _, decide_eq_true (by show 32 * (i / 32) < bits.length; omega)⟩
  have loaded := (codeWord_setCodeWords (fun k => loadWord bits k.val) _ s.code ⟨i / 32, word⟩).trans (if_pos written)
  simp only [codeBits, List.getElem_map, List.getElem_range, codebit]
  rw [loaded, getLsbD_loadWord _ _ (Nat.mod_lt _ (by decide)), Nat.div_add_mod]
  exact List.getD_eq_getElem _ _ hi

end Sys2Proof.Machine
end

section
/-! The packer commands by PF and by the answers they meet (40_packer.md R110 to R118): what each does when no fault blocks
it, and what packing a list of bits does when the fill flushes it needs are answered. -/

namespace Sys2Proof.Machine

open Sys2Proof.Safety

/-! ## The commands while PF = 0 -/

section

variable {s : State} {l : Latch}

/-- P_PACK_CODE with PF = 0 settles its run (40_packer.md R114). -/
theorem exec_pPackCode_ready (hp : s.packer.pf = .none) (len : Byte) :
    exec (.pPackCode len) s = settlePack (.pPackCode len) s
      (packBits s.params.cap (codeBits (latchedCode s) len.toNat) (startPack s)) :=
  unlessPackerFault_ready hp _

/-- P_PACK_SYM with PF = 0 settles its run (40_packer.md R115). -/
theorem exec_pPackSym_ready (hp : s.packer.pf = .none) (sym : Byte) :
    exec (.pPackSym sym) s = settlePack (.pPackSym sym) s
      (packEntry s.params.cap (ctEntry s.packer.ct sym) (startPack s)) :=
  unlessPackerFault_ready hp _

/-- P_FLUSH with PF = 0 settles its run (40_packer.md R116). -/
theorem exec_pFlush_ready (hp : s.packer.pf = .none) :
    exec .pFlush s = settlePack .pFlush s (finalFlush (startPack s)) :=
  unlessPackerFault_ready hp _

/-- An entry with no code raises NO_CODE before any bit is packed (40_packer.md R115). -/
theorem packEntry_noCode {e : CtEntry} (h : e.len = 0) (cap : Nat) (r : PackRun) :
    packEntry cap e r = .raised r .noCode := if_pos h

/-- An entry with a code packs the code's bits (40_packer.md R115). -/
theorem packEntry_code {e : CtEntry} (h : e.len ≠ 0) (cap : Nat) :
    packEntry cap e = packBits cap (codeBits e.bits e.len.toNat) := funext fun _ => if_neg h

/-- A command in flight works from its latched code (30_encoding.md R95). -/
theorem latchedCode_inFlight (hf : s.flight = some l) : latchedCode s = l.code := by simp [latchedCode, hf]

/-- A command in flight meets the answers its latch holds. -/
theorem givenAnswers_inFlight (hf : s.flight = some l) : givenAnswers s = l.answered.map (fun x => x.2) := by
  simp [givenAnswers, hf]

/-- With PF = 0, a command that raises a fault completes with its effects written and the cause recorded
(60_exceptions.md R184). -/
theorem settlePack_raised (hp : s.packer.pf = .none) (i : Instr) (r : PackRun) (c : PfCause) :
    settlePack i s (.raised r c) = .next { s with
      flight := none
      sinkLog := s.sinkLog ++ r.log
      packer := { s.packer with buf := r.buf, off := r.off, pf := c } } := by
  simp [settlePack, raisePf, complete, storePack, hp]

end

/-- Settles O19: P_RESET is no command that PF blocks. -/
theorem pResetClearsTheBuffer : Obligations.PResetClearsTheBuffer :=
  fun _ => ⟨[], fun _ => rfl, rfl⟩

/-- Settles O18: the blocked commands are the packer's but P_RESET, which clears in every state. -/
theorem packerFaultBlocksItsUnit : Obligations.PackerFaultBlocksItsUnit := by
  intro s sym len hp
  have blocked : ∀ i, IsPackerCommand i → i ≠ .pReset → exec i s = .next { s with flight := none } :=
    fun _ hi hne => exec_packerCommand_blocked hi hne hp
  obtain ⟨buf, clear, reset⟩ := pResetClearsTheBuffer s
  exact ⟨blocked _ (by simp [IsPackerCommand]) nofun, blocked _ (by simp [IsPackerCommand]) nofun,
    blocked _ (by simp [IsPackerCommand]) nofun, blocked _ (by simp [IsPackerCommand]) nofun,
    blocked _ (by simp [IsPackerCommand]) nofun, _, reset, rfl, rfl, clear⟩

/-- Settles O23: the raise comes before any bit, with BUF, OFF and SINKLOG as they were. -/
theorem packSymWithoutCodeRaisesNoCode : Obligations.PackSymWithoutCodeRaisesNoCode := by
  intro s sym hp hlen
  rw [exec_pPackSym_ready hp, packEntry_noCode hlen, settlePack_raised hp]
  simp [startPack]

/-- Settles O28: a write to CT, read back at its own symbol and at another. -/
theorem ctWriteReplacesTheEntry : Obligations.CtWriteReplacesTheEntry := by
  intro s sym len hp hw
  refine ⟨_, unlessPackerFault_ready hp _, Memory.read_write_same hw _ _, fun x hx => ?other⟩
  case other => exact Memory.read_write_other _ (fun e => hx (BitVec.eq_of_toNat_eq e)) _

/-- Settles O29: an empty list is a table in which every entry has no code. -/
theorem ctClearEmptiesTheTable : Obligations.CtClearEmptiesTheTable :=
  fun _ hp => ⟨[], unlessPackerFault_ready hp _, fun _ => rfl⟩

/-! ## A symbol's code -/

/-- Of two commands with one run, from states that differ in BUSY and the latch only, both complete in a state or none. -/
theorem settlePack_completes_iff {i j : Instr} {s t : State} {p : Progress PackRun PfCause} (f : Option Latch)
    (ht : t.flight = none) : settlePack i s p = .next t ↔ settlePack j { s with flight := f } p = .next t := by
  cases p with
  | running r => exact Iff.rfl
  | raised r c => exact Iff.rfl
  | waiting w =>
    constructor
    · rintro ⟨⟩
      cases ht
    · rintro ⟨⟩
      cases ht

/-- Settles O24: the two commands have one run, and BUSY and the latch are all that tells their states apart. -/
theorem packSymIsPackCodeOfTheEntry : Obligations.PackSymIsPackCodeOfTheEntry := by
  intro s t l sym hf hlen ht
  by_cases hp : s.packer.pf = .none
  · have start : startPack { s with flight := some { l with code := (ctEntry s.packer.ct sym).bits } } = startPack s := by
      simp [startPack, givenAnswers, hf]
    rw [exec_pPackSym_ready hp, packEntry_code hlen, exec_pPackCode_ready (by exact hp), start]
    exact settlePack_completes_iff _ ht
  · rw [exec_packerCommand_blocked (i := .pPackSym sym) (by simp [IsPackerCommand]) nofun hp,
      exec_packerCommand_blocked (i := .pPackCode _) (by simp [IsPackerCommand]) nofun (by exact hp)]
    rfl

/-! ## Packing with the fill flushes answered `ok` -/

/-- The bits of two histories joined. -/
theorem takenBits_append (log log' : List SinkEntry) (buf : List Host.Cell) (off : Nat) :
    takenBits (log ++ log') buf off = streamBits (sunkBytes log) ++ takenBits log' buf off := by
  simp only [takenBits, sunkBytes_append, streamBits_append, List.append_assoc]

/-- With nothing sent, the bits taken are the bits held. -/
@[simp] theorem takenBits_nil (buf : List Host.Cell) (off : Nat) : takenBits [] buf off = heldBits buf off := rfl

/-- `r'` is `r` with `bits` packed and every fill flush answered `ok` (40_packer.md R112, R114): the flushes are `log`, of
CAP bytes each, and each met one answer. -/
structure Flushed (cap : Nat) (bits : List Bool) (log : List SinkEntry) (r r' : PackRun) : Prop where
  recorded : r'.log = r.log ++ log
  count : log.length = (r.off + bits.length) / (8 * cap)
  whole : ∀ e ∈ log, e.bytes.length = cap ∧ e.answer = .given .ok
  off : r'.off = (r.off + bits.length) % (8 * cap)
  taken : takenBits log r'.buf r'.off = heldBits r.buf r.off ++ bits
  met : r.answers = List.replicate log.length .ok ++ r'.answers
  bufWf : Memory.wf (0 : Byte) r'.buf

section

variable {cap : Nat} {r r₁ r₂ : PackRun} {bits xs ys : List Bool} {log₁ log₂ : List SinkEntry}

/-- No bits packed. -/
theorem Flushed.refl (hw : Memory.wf (0 : Byte) r.buf) (hoff : r.off < 8 * cap) : Flushed cap [] [] r r where
  recorded := by simp
  count := (Nat.div_eq_of_lt hoff).symm
  whole := nofun
  off := (Nat.mod_eq_of_lt hoff).symm
  taken := by simp
  met := rfl
  bufWf := hw

/-- The quotient of a sum, the whole part of the first number counted apart. -/
theorem add_div_split (a b : Nat) {m : Nat} (hm : 0 < m) : (a + b) / m = a / m + (a % m + b) / m := by
  have split : a + b = a % m + b + m * (a / m) := by
    have := Nat.mod_add_div a m
    omega
  rw [split, Nat.add_mul_div_left _ _ hm, Nat.add_comm]

/-- Bits packed one list after another. -/
theorem Flushed.trans (hcap : 0 < 8 * cap) (h : Flushed cap xs log₁ r r₁) (k : Flushed cap ys log₂ r₁ r₂) :
    Flushed cap (xs ++ ys) (log₁ ++ log₂) r r₂ where
  recorded := by rw [k.recorded, h.recorded, List.append_assoc]
  count := by
    rw [List.length_append, List.length_append, h.count, k.count, h.off, ← Nat.add_assoc,
      add_div_split (r.off + xs.length) _ hcap]
  whole e he := (List.mem_append.1 he).elim (h.whole e) (k.whole e)
  off := by rw [k.off, h.off, Nat.mod_add_mod, List.length_append, Nat.add_assoc]
  taken := by
    rw [takenBits_append, k.taken, ← List.append_assoc, ← List.append_assoc, ← h.taken]
    rfl
  met := by rw [h.met, k.met, List.length_append, ← List.replicate_append_replicate, List.append_assoc]
  bufWf := k.bufWf

/-- PackBit when the fill flush it may need is answered `ok` (40_packer.md R111, R112). -/
theorem packBit_flushed (b : Bool) (hw : Memory.wf (0 : Byte) r.buf) (hoff : r.off < 8 * cap)
    (hok : List.replicate ((r.off + 1) / (8 * cap)) .ok <+: r.answers) :
    ∃ r' log, packBit cap b r = .running r' ∧ Flushed cap [b] log r r' := by
  have placed := heldBits_setBufBit hw r.off b
  by_cases hfull : r.off + 1 = 8 * cap
  · have one : (r.off + 1) / (8 * cap) = 1 := by rw [hfull, Nat.div_self (by omega)]
    rw [one] at hok
    obtain ⟨rest, ha⟩ := hok
    exact ⟨_, _, packBit_fill_ok b hfull ha.symm, {
      recorded := rfl
      count := one.symm
      whole := by simp [bufBytes]
      off := by rw [List.length_singleton, hfull, Nat.mod_self]
      taken := by
        rw [← placed, hfull, ← streamBits_bufBytes]
        simp [takenBits, heldBits, sunkBytes]
      met := ha.symm
      bufWf := Memory.wf_nil }⟩
  · have room : r.off + 1 < 8 * cap := by omega
    exact ⟨_, [], packBit_place b hfull, {
      recorded := by simp [placeBit]
      count := (Nat.div_eq_of_lt room).symm
      whole := nofun
      off := (Nat.mod_eq_of_lt room).symm
      taken := placed
      met := rfl
      bufWf := wf_setBufBit hw _ _ }⟩

/-- PackBit of each bit in turn when the fill flushes they need are answered `ok` (40_packer.md R114). -/
theorem packBits_flushed (hw : Memory.wf (0 : Byte) r.buf) (hoff : r.off < 8 * cap)
    (hok : List.replicate ((r.off + bits.length) / (8 * cap)) .ok <+: r.answers) :
    ∃ r' log, packBits cap bits r = .running r' ∧ Flushed cap bits log r r' := by
  induction bits generalizing r with
  | nil => exact ⟨r, [], rfl, .refl hw hoff⟩
  | cons b bs ih =>
    have hcap : 0 < 8 * cap := by omega
    rw [List.length_cons, Nat.add_comm bs.length, ← Nat.add_assoc, add_div_split _ _ hcap,
      ← List.replicate_append_replicate] at hok
    obtain ⟨r₁, log₁, h₁, k₁⟩ := packBit_flushed b hw hoff ((List.prefix_append _ _).trans hok)
    have left : List.replicate ((r₁.off + bs.length) / (8 * cap)) .ok <+: r₁.answers := by
      rw [k₁.met, k₁.count, List.length_singleton, List.prefix_append_right_inj] at hok
      rwa [k₁.off]
    obtain ⟨r₂, log₂, h₂, k₂⟩ := ih k₁.bufWf (k₁.off ▸ Nat.mod_lt _ hcap) left
    exact ⟨r₂, _, Progress.andThen_running.2 ⟨r₁, h₁, h₂⟩, k₁.trans hcap k₂⟩

/-- PackBit of the filling bit when the fill flush is answered `err`: the buffer is held full (40_packer.md R112). -/
theorem packBit_fill_err {rest : List Answer} (b : Bool) (hfull : r.off + 1 = 8 * cap) (ha : r.answers = .err :: rest) :
    packBit cap b r = .raised
      { buf := setBufBit r.buf r.off b, off := r.off + 1, answers := rest,
        log := r.log ++ [{ bytes := bufBytes (setBufBit r.buf r.off b) cap, answer := .given .err }] } .sinkError := by
  rw [packBit_fill b hfull]
  rcases fillFlush_cases cap (placeBit b r) with ⟨e, -⟩ | ⟨rest', e, -⟩ | ⟨rest', e, h⟩ <;>
    simp only [placeBit, ha] at e <;> cases e
  exact h

/-- The run stops at a refused fill flush with the full buffer held (40_packer.md R112): started as `r`, it has made `n`
flushes answered `ok`, packed the bits `packed`, and left the answers `rest`. -/
def StopsFull (cap n : Nat) (packed : List Bool) (rest : List Answer) (r : PackRun) (p : Progress PackRun PfCause) :
    Prop :=
  ∃ buf log, p = .raised
      { buf := buf, off := 8 * cap, answers := rest,
        log := r.log ++ log ++ [{ bytes := bufBytes buf cap, answer := .given .err }] } .sinkError ∧
    log.length = n ∧ (∀ e ∈ log, e.bytes.length = cap ∧ e.answer = .given .ok) ∧
    takenBits log buf (8 * cap) = heldBits r.buf r.off ++ packed

/-- Bits the last of which fills the buffer once more than the leading `ok` answers allow: they are packed, and later ones
dropped (40_packer.md R112, R114). -/
theorem packBits_refused_at {n : Nat} {rest : List Answer} {b : Bool} (hw : Memory.wf (0 : Byte) r.buf)
    (hoff : r.off < 8 * cap) (ha : r.answers = List.replicate n .ok ++ .err :: rest)
    (hfill : r.off + xs.length + 1 = 8 * cap * n + 8 * cap) :
    StopsFull cap n (xs ++ [b]) rest r (packBits cap (xs ++ b :: ys) r) := by
  have before : r.off + xs.length = (8 * cap - 1) + 8 * cap * n := by omega
  have fills : (r.off + xs.length) / (8 * cap) = n := by
    rw [before, Nat.add_mul_div_left _ _ (by omega), Nat.div_eq_of_lt (by omega), Nat.zero_add]
  obtain ⟨r₁, log, packs, h⟩ := packBits_flushed (bits := xs) hw hoff (by rw [fills, ha]; exact List.prefix_append _ _)
  have full : r₁.off + 1 = 8 * cap := by
    rw [h.off, before, Nat.add_mul_mod_self_left, Nat.mod_eq_of_lt (by omega)]
    omega
  have next : r₁.answers = .err :: rest := by
    have met := h.met
    rw [ha, h.count, fills] at met
    exact (List.append_cancel_left met).symm
  refine ⟨setBufBit r₁.buf r₁.off b, log, ?raises, h.count.trans fills, h.whole, ?taken⟩
  case raises =>
    rw [packBits_append, packs]
    show (packBit cap b r₁).andThen _ = _
    rw [packBit_fill_err b full next, full, h.recorded]
    rfl
  case taken =>
    rw [← full, takenBits, heldBits_setBufBit h.bufWf, ← List.append_assoc, ← List.append_assoc, ← h.taken]
    rfl

/-- Bits that fill the buffer at least once more than the leading `ok` answers allow are packed up to the one that fills it
for the refused flush (40_packer.md R112, R114). -/
theorem packBits_refused {n : Nat} {rest : List Answer} (hw : Memory.wf (0 : Byte) r.buf) (hoff : r.off < 8 * cap)
    (ha : r.answers = List.replicate n .ok ++ .err :: rest) (hlen : 8 * cap * (n + 1) ≤ r.off + bits.length) :
    StopsFull cap n (bits.take (8 * cap * (n + 1) - r.off)) rest r (packBits cap bits r) := by
  rw [Nat.mul_succ] at hlen ⊢
  obtain ⟨xs, b, ys, rfl, hfill⟩ : ∃ xs b ys, bits = xs ++ b :: ys ∧ r.off + xs.length + 1 = 8 * cap * n + 8 * cap := by
    have hk : 8 * cap * n + (8 * cap - 1 - r.off) < bits.length := by omega
    refine ⟨_, _, _, ((List.drop_eq_getElem_cons hk) ▸ (List.take_append_drop _ bits).symm :), ?_⟩
    rw [List.length_take, min_eq_left hk.le]
    omega
  have kept : (xs ++ b :: ys).take (8 * cap * n + 8 * cap - r.off) = xs ++ [b] := by
    rw [List.append_cons]
    exact List.take_left' (by rw [List.length_append, List.length_singleton]; omega)
  exact kept ▸ packBits_refused_at hw hoff ha hfill

end

/-- Answers that are all `ok` begin with as many of them as asked for. -/
theorem replicate_ok_prefix {answers : List Answer} {n : Nat} (hok : ∀ a ∈ answers, a = .ok) (hn : n ≤ answers.length) :
    List.replicate n .ok <+: answers := by
  have all : answers = List.replicate answers.length .ok := List.eq_replicate_iff.2 ⟨rfl, hok⟩
  rw [all]
  exact ⟨_, List.replicate_append_replicate.trans (congrArg (List.replicate · _) (Nat.add_sub_of_le hn))⟩

/-- A command in flight whose writes were all answered `ok` has as many of them at hand as were answered. -/
theorem givenAnswers_ok_prefix {s : State} {l : Latch} {n : Nat} (hf : s.flight = some l)
    (hok : ∀ x ∈ l.answered, x.2 = .ok) (hn : n ≤ l.answered.length) : List.replicate n .ok <+: givenAnswers s := by
  rw [givenAnswers_inFlight hf]
  exact replicate_ok_prefix (List.forall_mem_map.2 hok) (by rwa [List.length_map])

/-- A command whose run packs `bits`, with the fill flushes it needs answered `ok` (40_packer.md R112, R114). -/
theorem settlePack_packsBits (i : Instr) {s : State} {bits : List Bool} (hw : Memory.wf (0 : Byte) s.packer.buf)
    (hoff : s.packer.off < 8 * s.params.cap)
    (hok : List.replicate ((s.packer.off + bits.length) / (8 * s.params.cap)) .ok <+: givenAnswers s) :
    ∃ t, settlePack i s (packBits s.params.cap bits (startPack s)) = .next t ∧ PacksBits bits s t := by
  obtain ⟨r, log, packs, h⟩ := packBits_flushed (r := startPack s) hw hoff hok
  obtain rfl : r.log = log := h.recorded
  refine ⟨complete (storePack r s), by rw [packs]; rfl, ?_⟩
  exact {
    off := h.off
    writes := ⟨r.log, rfl, h.count, h.whole⟩
    taken := by
      show takenBits (s.sinkLog ++ r.log) r.buf r.off =
        streamBits (sunkBytes s.sinkLog) ++ heldBits s.packer.buf s.packer.off ++ bits
      rw [takenBits_append, h.taken, List.append_assoc]
      rfl
    frame := rfl }

/-- Settles O21: the code's bits are packed by the command's run. -/
theorem packCodePacksItsBits : Obligations.PackCodePacksItsBits := by
  intro s l len hf hp hw hoff hlen hok
  rw [exec_pPackCode_ready hp, latchedCode_inFlight hf]
  exact settlePack_packsBits _ hw hoff (by rw [codeBits_length]; exact givenAnswers_ok_prefix hf hok hlen)

/-- Settles O22: a symbol's entry is packed by the run that packs its code. -/
theorem packSymPacksItsEntry : Obligations.PackSymPacksItsEntry := by
  intro s l sym hf hp hw hoff hcode hlen hok
  rw [exec_pPackSym_ready hp, packEntry_code hcode]
  exact settlePack_packsBits _ hw hoff (by rw [codeBits_length]; exact givenAnswers_ok_prefix hf hok hlen)

/-- Settles O25: the run is cut at the bit that fills the buffer for the refused flush. -/
theorem packCodeSinkErrorIsPrecise : Obligations.PackCodeSinkErrorIsPrecise := by
  intro s l len oks rest w hf hp hw hoff ha hok hlen
  have answers : (startPack s).answers = List.replicate oks.length .ok ++ .err :: rest.map (fun x => x.2) := by
    have oks_ok : oks.map (fun x => x.2) = List.replicate oks.length .ok :=
      List.eq_replicate_iff.2 ⟨List.length_map _, List.forall_mem_map.2 hok⟩
    show givenAnswers s = _
    rw [givenAnswers_inFlight hf, ha, List.map_append, oks_ok, List.map_cons]
  obtain ⟨buf, log, raises, count, whole, taken⟩ :=
    packBits_refused (bits := codeBits l.code len.toNat) hw hoff answers (by rwa [codeBits_length])
  refine ⟨buf, log, bufBytes buf s.params.cap, ?next, count, whole, by simp [bufBytes], streamBits_bufBytes _ _, ?taken⟩
  case next =>
    rw [exec_pPackCode_ready hp, latchedCode_inFlight hf, raises, settlePack_raised hp]
    simp [startPack]
  case taken =>
    rw [takenBits_append, taken, ← List.append_assoc]
    rfl

/-! ## The final flush -/

/-- Settles O26: the cases of the final flush, by OFF and by the answer at hand. -/
theorem flushWritesThePaddedBits : Obligations.FlushWritesThePaddedBits := by
  intro s hp
  rw [exec_pFlush_ready hp]
  refine ⟨fun h0 => ⟨[], fun _ => rfl, ?empty⟩, fun hne => ⟨flushBytes (startPack s), isPackOf_flushBytes _, fun l hf => ?_⟩⟩
  case empty =>
    have clears : finalFlush (startPack s) = clearBuf (startPack s) := if_pos (by simp [startPack, h0])
    rw [clears]
    simp [settlePack, clearBuf, complete, storePack, startPack]
  have some_byte : ((startPack s).off + 7) / 8 ≠ 0 := by
    show (s.packer.off + 7) / 8 ≠ 0
    omega
  have hgiven : (startPack s).answers = l.answered.map (fun x => x.2) := givenAnswers_inFlight hf
  rcases finalFlush_cases some_byte with ⟨ha, e⟩ | ⟨more, ha, e⟩ | ⟨more, ha, e⟩ <;> rw [hgiven] at ha <;> rw [e]
  · refine ⟨fun w rest hl => ?_, fun w rest hl => ?_, fun _ => ?waits⟩
    case waits => simp [settlePack, awaitAnswer, latchOf, hf]
    all_goals simp [hl] at ha
  · refine ⟨fun w rest hl => ⟨[], fun _ => rfl, ?sent⟩, fun w rest hl => ?_, fun hl => ?_⟩
    case sent => rfl
    all_goals simp [hl] at ha
  · refine ⟨fun w rest hl => ?_, fun w rest hl => ?refused, fun hl => ?_⟩
    case refused => rw [settlePack_raised hp]; rfl
    all_goals simp [hl] at ha

end Sys2Proof.Machine
end

section
/-! A command completes once its output writes are answered (70_reset_and_hazards.md R221): it issues at most one for each
bit it packs or feeds, and one for a flush. -/

namespace Sys2Proof.Machine

/-- A part of a command's run, started with `given` answers at hand, issues at most `n` output writes: going on it has met
at most `n` answers, and it waits only if it was given fewer. -/
def WritesAtMost {ρ ε κ : Type} (V : RunView ρ ε) (n given : Nat) : Progress ρ κ → Prop
  | .running r => given ≤ (V.answers r).length + n
  | .raised _ _ => True
  | .waiting _ => given < n

section

variable {ρ ε κ : Type} {V : RunView ρ ε} {n m given : Nat} {p : Progress ρ κ}

/-- One part after another. -/
theorem WritesAtMost.andThen {f : ρ → Progress ρ κ} (hp : WritesAtMost V n given p)
    (hf : ∀ r, WritesAtMost V m (V.answers r).length (f r)) : WritesAtMost V (n + m) given (p.andThen f) := by
  cases p with
  | raised r c => trivial
  | waiting w => exact Nat.lt_add_right m hp
  | running r =>
    have met : given ≤ (V.answers r).length + n := hp
    have rest := hf r
    show WritesAtMost V (n + m) given (f r)
    cases h : f r with
    | running r' =>
      rw [h] at rest
      have : (V.answers r).length ≤ (V.answers r').length + m := rest
      show given ≤ (V.answers r').length + (n + m)
      omega
    | raised r' c => trivial
    | waiting w =>
      rw [h] at rest
      have : (V.answers r).length < m := rest
      show given < n + m
      omega

end

/-! ## The packer's runs -/

/-- A SinkWrite and what follows it (20_memory.md R66). -/
theorem sinkWrite_writesAtMost (bytes : List Byte) (r : PackRun) :
    WritesAtMost sinkView 1 r.answers.length (sinkWrite bytes r) := by
  rcases sinkWrite_cases bytes r with ⟨ha, e⟩ | ⟨rest, ha, e⟩ | ⟨rest, ha, e⟩ <;> rw [ha, e]
  · exact Nat.zero_lt_one
  · exact le_rfl
  · trivial

/-- Clearing the buffer issues none. -/
theorem clearBuf_writesAtMost (r : PackRun) : WritesAtMost sinkView 0 r.answers.length (clearBuf r) :=
  le_refl r.answers.length

/-- PackBit: one for the filling bit (40_packer.md R111, R112). -/
theorem packBit_writesAtMost (cap : Nat) (b : Bool) (r : PackRun) :
    WritesAtMost sinkView 1 r.answers.length (packBit cap b r) := by
  by_cases hfull : r.off + 1 = 8 * cap
  · rw [packBit_fill b hfull]
    exact (sinkWrite_writesAtMost _ (placeBit b r)).andThen clearBuf_writesAtMost
  · rw [packBit_place b hfull]
    exact Nat.le_succ r.answers.length

/-- PackBit of each bit in turn: one for each bit (40_packer.md R114). -/
theorem packBits_writesAtMost (cap : Nat) (bits : List Bool) (r : PackRun) :
    WritesAtMost sinkView bits.length r.answers.length (packBits cap bits r) := by
  induction bits generalizing r with
  | nil => exact le_refl r.answers.length
  | cons b bs ih =>
    rw [List.length_cons, Nat.add_comm]
    exact (packBit_writesAtMost cap b r).andThen ih

/-- The run of P_PACK_SYM: one for each bit of the entry's code (40_packer.md R115). -/
theorem packEntry_writesAtMost (cap : Nat) (x : CtEntry) (r : PackRun) :
    WritesAtMost sinkView x.len.toNat r.answers.length (packEntry cap x r) := by
  by_cases h : x.len = 0
  · rw [packEntry_noCode h]
    trivial
  · have packs := packBits_writesAtMost cap (codeBits x.bits x.len.toNat) r
    rwa [codeBits_length, ← packEntry_code h] at packs

/-- The final flush: one (40_packer.md R116). -/
theorem finalFlush_writesAtMost (r : PackRun) : WritesAtMost sinkView 1 r.answers.length (finalFlush r) := by
  by_cases h0 : (r.off + 7) / 8 = 0
  · rw [finalFlush, if_pos h0]
    exact Nat.le_succ r.answers.length
  · rw [finalFlush, if_neg h0]
    exact (sinkWrite_writesAtMost _ r).andThen clearBuf_writesAtMost

/-! ## The decoder's runs -/

/-- StepBit: one for the bit that reaches a leaf (41_decoder.md R148). -/
theorem stepBit_writesAtMost (node : List (Nat × Node)) (b : Bool) (r : WalkRun) :
    WritesAtMost outView 1 r.answers.length (stepBit node b r) := by
  rcases stepBit_cases node b r with ⟨-, e⟩ | ⟨-, -, e⟩ | ⟨-, -, -, e⟩ | ⟨-, -, -, e⟩ <;> rw [e]
  · exact Nat.le_succ r.answers.length
  · trivial
  · rcases emit_cases (nodeAt node (childOf (nodeAt node r.cur) b)).sym r with
      ⟨ha, e⟩ | ⟨rest, ha, e⟩ | ⟨rest, ha, e⟩ <;> rw [ha, e]
    · exact Nat.zero_lt_one
    · exact le_rfl
    · trivial
  · exact Nat.le_succ r.answers.length

/-- StepBit of each bit in turn: one for each bit (41_decoder.md R150). -/
theorem feedBits_writesAtMost (node : List (Nat × Node)) (bits : List Bool) (r : WalkRun) :
    WritesAtMost outView bits.length r.answers.length (feedBits node bits r) := by
  induction bits generalizing r with
  | nil => exact le_refl r.answers.length
  | cons b bs ih =>
    by_cases h0 : r.remain = 0
    · rw [feedBits_done h0]
      exact Nat.le_add_right r.answers.length _
    · rw [feedBits, if_neg h0, List.length_cons, Nat.add_comm]
      exact (stepBit_writesAtMost node b r).andThen ih

/-! ## The commands -/

section

variable {s t : State} {l : Latch} {w : OutputWrite} {i : Instr}

/-- A packing command that waits was given fewer answers than the writes it issues at most. -/
theorem given_lt_of_settlePack {n : Nat} {p : Progress PackRun PfCause}
    (hp : WritesAtMost sinkView n (givenAnswers s).length p) (e : unlessPackerFault s (settlePack i s p) = .next t)
    (ht : t.flight = some l) (hw : l.outstanding = some w) : (givenAnswers s).length < n := by
  obtain ⟨-, rfl⟩ := settlePack_waiting e ht hw
  exact hp

/-- A feed that waits was given fewer answers than the writes it issues at most. -/
theorem given_lt_of_settleWalk {n : Nat} {p : Progress WalkRun DfCause}
    (hp : WritesAtMost outView n (givenAnswers s).length p) (e : unlessDecoderFault s (settleWalk i s p) = .next t)
    (ht : t.flight = some l) (hw : l.outstanding = some w) : (givenAnswers s).length < n := by
  obtain ⟨-, rfl⟩ := settleWalk_waiting e ht hw
  exact hp

/-- A command that waits was given fewer than 255 answers (70_reset_and_hazards.md R221): a code has at most 255 bits, a
byte eight, and a flush is one write. -/
theorem given_lt_of_waiting (e : exec i s = .next t) (ht : t.flight = some l) (hw : l.outstanding = some w) :
    (givenAnswers s).length < 255 := by
  have code_le : ∀ len : Byte, len.toNat ≤ 255 := fun len => by omega
  rcases exec_waiting_command e (by simp [ht]) with ⟨len, rfl⟩ | ⟨sym, rfl⟩ | rfl | ⟨b, rfl⟩ | ⟨byte, rfl⟩
  · have few := given_lt_of_settlePack (packBits_writesAtMost _ _ (startPack s)) e ht hw
    rw [codeBits_length] at few
    exact few.trans_le (code_le len)
  · exact (given_lt_of_settlePack (packEntry_writesAtMost _ _ (startPack s)) e ht hw).trans_le (code_le _)
  · exact (given_lt_of_settlePack (finalFlush_writesAtMost (startPack s)) e ht hw).trans_le (by decide)
  · exact (given_lt_of_settleWalk (stepBit_writesAtMost _ b (startWalk s)) e ht hw).trans_le (by decide)
  · exact (given_lt_of_settleWalk (feedBits_writesAtMost _ (byteBits byte) (startWalk s)) e ht hw).trans_le
      (by simp [byteBits])

end

/-- Settles O46: a command that has not completed waits, and so was given fewer than 255 answers. -/
theorem answeredCommandsComplete : Obligations.AnsweredCommandsComplete := by
  intro i s l hf hmany
  obtain ⟨t, e⟩ := exec_next i s
  refine ⟨t, e, by_contra fun ht => ?_⟩
  obtain ⟨w, rfl⟩ := waitingChangesOnlyTheLatch i s t e ht
  have few := given_lt_of_waiting e rfl rfl
  rw [givenAnswers_inFlight hf, List.length_map] at few
  omega

end Sys2Proof.Machine
end

section
/-! The walk along a code (41_decoder.md R148, R153): from the root to its leaf, and from there the next code; and the round
trip of the block. -/

namespace Sys2Proof.Safety

open Sys2Proof.Machine

section

variable {nodeCap : Nat} {d : Decoder}

/-- A path of one bit and more leads through the child of that bit. -/
theorem followPath_cons_some {node : List (Nat × Node)} {n m : Nat} {b : Bool} {bs : List Bool}
    (h : followPath node n (b :: bs) = some m) :
    childOf (nodeAt node n) b ≠ 0 ∧ followPath node (childOf (nodeAt node n) b) bs = some m := by
  rw [followPath] at h
  split at h
  · cases h
  · exact ⟨‹_›, h⟩

/-- A path that goes on from a leaf is empty: a leaf has no children (41_decoder.md R142 (c)). -/
theorem TrieInv.followPath_leaf (h : TrieInv nodeCap d) {n m : Nat} {bits : List Bool} (hpos : 1 ≤ n) (hn : n < d.nNodes)
    (hl : (nodeAt d.node n).leaf = true) (hp : followPath d.node n bits = some m) : bits = [] ∧ n = m := by
  cases bits with
  | nil => exact ⟨rfl, Option.some.inj hp⟩
  | cons b bs =>
    have childless := (childOf_eq_zero_iff _).2 ((h.leafIff n hpos hn).1 hl)
    exact absurd (childless b) (followPath_cons_some hp).1

/-- Feeding the bits of a path from an inner node to a leaf emits the leaf's symbol, with an `ok` at hand (41_decoder.md
R148). -/
theorem TrieInv.feedBits_path (h : TrieInv nodeCap d) {m : Nat} {bits : List Bool} {r : WalkRun} {rest : List Answer}
    (hcur : r.cur < d.nNodes) (hinner : (nodeAt d.node r.cur).leaf = false)
    (hp : followPath d.node r.cur bits = some m) (hleaf : (nodeAt d.node m).leaf = true) (hr : r.remain ≠ 0)
    (ha : r.answers = .ok :: rest) :
    feedBits d.node bits r = .running
      { cur := 0, remain := r.remain - 1, answers := rest,
        log := r.log ++ [{ byte := (nodeAt d.node m).sym, answer := .given .ok }] } := by
  induction bits generalizing r with
  | nil =>
    obtain rfl : r.cur = m := Option.some.inj hp
    rw [hinner] at hleaf
    cases hleaf
  | cons b bs ih =>
    obtain ⟨hchild, hpath⟩ := followPath_cons_some hp
    obtain ⟨habove, hrange⟩ := h.childRange r.cur b hcur hchild
    rw [feedBits, if_neg hr]
    rcases stepBit_cases d.node b r with ⟨h0, -⟩ | ⟨-, h0, -⟩ | ⟨-, -, hl, e⟩ | ⟨-, -, hl, e⟩
    · exact absurd h0 hr
    · exact absurd h0 hchild
    · obtain ⟨rfl, rfl⟩ := h.followPath_leaf (by omega) hrange hl hpath
      rw [e, emit, ha]
      rfl
    · rw [e]
      exact ih hrange hl hpath hr ha

/-- Feeding the bits of a code of the trie from the root emits its symbol, with an `ok` at hand (41_decoder.md R148). -/
theorem TrieInv.feedBits_code (h : TrieInv nodeCap d) {x : Byte} {bits : List Bool} {r : WalkRun} {rest : List Answer}
    (hcode : codeSymbol d.node bits = some x) (hcur : r.cur = 0) (hr : r.remain ≠ 0) (ha : r.answers = .ok :: rest) :
    feedBits d.node bits r = .running
      { cur := 0, remain := r.remain - 1, answers := rest,
        log := r.log ++ [{ byte := x, answer := .given .ok }] } := by
  have root : 0 < d.nNodes := h.nodesPos
  unfold codeSymbol at hcode
  split at hcode
  · cases hcode
  · next m hp =>
    split at hcode
    · next hleaf =>
      cases hcode
      exact h.feedBits_path (hcur ▸ root) (hcur ▸ h.rootInner) (hcur ▸ hp) hleaf hr ha
    · cases hcode

/-- REMAIN counts down from a number of 64 bits that is not 0. -/
theorem ofNat_succ_remain {n : Nat} (h : n + 1 < 2 ^ 64) :
    BitVec.ofNat 64 (n + 1) ≠ 0 ∧ BitVec.ofNat 64 (n + 1) - 1 = BitVec.ofNat 64 n := by
  constructor
  · intro e
    have := congrArg BitVec.toNat e
    simp at this
    omega
  · exact BitVec.eq_of_toNat_eq (by simp; omega)

/-- Feeding the codes of symbols one after another from the root, and any bits after them, with an `ok` at hand for each
symbol of REMAIN, emits the symbols and no more (41_decoder.md R153). -/
theorem TrieInv.feedBits_codes (h : TrieInv nodeCap d) {code : Byte → List Bool} {syms : List Byte} (pad : List Bool)
    {r : WalkRun} {rest : List Answer} (hcode : ∀ x ∈ syms, codeSymbol d.node (code x) = some x)
    (hlen : syms.length < 2 ^ 64) (hcur : r.cur = 0) (hr : r.remain = BitVec.ofNat 64 syms.length)
    (ha : r.answers = List.replicate syms.length .ok ++ rest) :
    feedBits d.node (syms.flatMap code ++ pad) r = .running
      { cur := 0, remain := 0, answers := rest,
        log := r.log ++ syms.map (fun x => { byte := x, answer := .given .ok }) } := by
  induction syms generalizing r with
  | nil =>
    rw [feedBits_done hr]
    obtain ⟨cur, remain, log, answers⟩ := r
    cases hcur
    cases hr
    cases ha
    simp
  | cons x xs ih =>
    rw [List.length_cons] at hlen hr
    obtain ⟨hne, hpred⟩ := ofNat_succ_remain hlen
    have first := h.feedBits_code (hcode x (by simp)) hcur (hr ▸ hne) ha
    rw [List.flatMap_cons, List.append_assoc, feedBits_append, first]
    refine (ih (fun y hy => hcode y (List.mem_cons_of_mem _ hy)) (by omega) rfl ?_ rfl).trans ?_
    · rw [hr, hpred]
    · simp

end

/-! ## The round trip -/

/-- The code of a symbol in the code table (10_state.md R38). -/
def tableCode (ct : List (Nat × CtEntry)) (x : Byte) : List Bool :=
  codeBits (ctEntry ct x).bits (ctEntry ct x).len.toNat

/-- Symbols that have codes are packed as a stream of these codes (40_packer.md R115, R121). -/
theorem packSymbols_eq_packStream {ct : List (Nat × CtEntry)} {syms : List Byte}
    (hcode : ∀ x ∈ syms, (ctEntry ct x).len ≠ 0) (cap : Nat) (answers : List Answer) :
    packSymbols cap ct syms answers = packStream cap (syms.map (tableCode ct)) answers := by
  rw [packSymbols, packStream, List.foldl_map]
  congr 1
  exact List.foldl_ext _ _ _ fun p x hx => congrArg p.andThen (packEntry_code (hcode x hx) cap)

/-- The codes of symbols have at most 255 bits each (10_state.md R38). -/
theorem length_flatMap_tableCode_le (ct : List (Nat × CtEntry)) (syms : List Byte) :
    (syms.flatMap (tableCode ct)).length ≤ 255 * syms.length := by
  induction syms with
  | nil => exact le_rfl
  | cons x xs ih =>
    have : (tableCode ct x).length ≤ 255 := by
      rw [tableCode, codeBits_length]
      omega
    rw [List.flatMap_cons, List.length_append, List.length_cons]
    omega

/-- The bytes of OutWrites that were all answered `ok`. -/
theorem emittedBytes_map_ok (syms : List Byte) :
    emittedBytes (syms.map (fun x => { byte := x, answer := .given .ok })) = syms := by
  induction syms with
  | nil => rfl
  | cons x xs ih => exact congrArg (x :: ·) ih

/-- Settles O56: the stream of the symbols' codes is packed with zeros after it, and the walk emits a symbol for each code
and discards the zeros. -/
theorem packThenDecodeGivesTheSymbols : Obligations.PackThenDecodeGivesTheSymbols := by
  intro cap nodeCap ct d syms sinkOks outOks hcap trie hcode hlen hsink hout hsinkLen houtLen
  obtain ⟨r, packs, ⟨-, packed⟩, -, -⟩ := streamLaw cap (syms.map (tableCode ct)) sinkOks hcap hsink
    ((length_flatMap_tableCode_le ct syms).trans_lt hsinkLen)
  obtain ⟨pad, stream⟩ : ∃ pad, streamBits (sunkBytes r.log) = syms.flatMap (tableCode ct) ++ pad := ⟨_, packed⟩
  obtain ⟨rest, hrest⟩ := replicate_ok_prefix hout houtLen
  have walks := trie.feedBits_codes (r := startedWalk syms.length outOks) (code := tableCode ct) pad
    (fun x hx => (hcode x hx).2) hlen rfl rfl hrest.symm
  rw [← stream] at walks
  exact ⟨r, _, (packSymbols_eq_packStream (fun x hx => (hcode x hx).1) cap sinkOks).trans packs, walks,
    emittedBytes_map_ok syms, rfl, rfl⟩

end Sys2Proof.Safety
end

section
/-! The paths of the trie (41_decoder.md R144, R145) and what D_INSERT adds to them (R146): the paths along the new code,
from where it leaves the existing nodes, and no other. -/

namespace Sys2Proof.Safety

open Sys2Proof.Machine

section

variable {node node' : List (Nat × Node)} {n : Nat}

/-- A path that goes on, node by node (41_decoder.md R145). -/
theorem followPath_append (p q : List Bool) :
    followPath node n (p ++ q) = (followPath node n p).bind fun k => followPath node k q := by
  induction p generalizing n with
  | nil => rfl
  | cons x xs ih =>
    simp only [List.cons_append, followPath]
    split
    · rfl
    · exact ih

/-- A path of one bit more goes on to the child of that bit (41_decoder.md R145). -/
theorem followPath_concat (p : List Bool) (b : Bool) :
    followPath node n (p ++ [b]) = (followPath node n p).bind fun k =>
      if childOf (nodeAt node k) b = 0 then none else some (childOf (nodeAt node k) b) :=
  followPath_append p [b]

/-- Paths depend on the children only. -/
theorem followPath_congr (h : ∀ m b, childOf (nodeAt node' m) b = childOf (nodeAt node m) b) (p : List Bool) :
    followPath node' n p = followPath node n p := by
  induction p generalizing n with
  | nil => rfl
  | cons x xs ih => simp only [followPath, h, ih]

/-- No path goes through an absent child (41_decoder.md R141). -/
theorem followPath_absent {p q : List Bool} {k : Nat} {b : Bool} (hp : followPath node n p = some k)
    (hb : childOf (nodeAt node k) b = 0) (hq : p ++ [b] <+: q) : followPath node n q = none := by
  obtain ⟨rest, rfl⟩ := hq
  rw [followPath_append, followPath_concat, hp]
  simp [hb]

end

section

variable {d : Decoder} {n nodeCap : Nat}

/-- A trie under its invariant may grow at its root. -/
theorem TrieInv.growingRoot (h : TrieInv nodeCap d) : GrowingTrie d 0 := h.growing h.nodesPos h.rootInner

/-- A path leads upwards, to an allocated node (41_decoder.md R142 (a), R146). -/
theorem GrowingTrie.followPath_range (h : GrowingTrie d n) {k m : Nat} {p : List Bool} (hk : k < d.nNodes)
    (hp : followPath d.node k p = some m) : k + p.length ≤ m ∧ m < d.nNodes := by
  induction p generalizing k with
  | nil => cases hp; exact ⟨le_rfl, hk⟩
  | cons b bs ih =>
    obtain ⟨hc, hbs⟩ := followPath_cons_some hp
    obtain ⟨above, below⟩ := h.childRange k b hk hc
    have := ih below hbs
    rw [List.length_cons]
    omega

/-- The last step of a path is from the node's parent (41_decoder.md R142 (b)). -/
theorem GrowingTrie.followPath_parent (h : GrowingTrie d n) {m : Nat} {p : List Bool} {b : Bool}
    (hp : followPath d.node 0 (p ++ [b]) = some m) :
    ∃ k, followPath d.node 0 p = some k ∧ k < d.nNodes ∧ childOf (nodeAt d.node k) b = m := by
  rw [followPath_concat] at hp
  obtain ⟨k, hk, e⟩ := Option.bind_eq_some_iff.1 hp
  split at e
  · cases e
  · exact ⟨k, hk, (h.followPath_range (Nat.zero_lt_of_lt h.allocated) hk).2, Option.some.inj e⟩

/-- Only one path leads from the root to a node, since a node has one parent (41_decoder.md R142 (b)). -/
theorem GrowingTrie.followPath_unique (h : GrowingTrie d n) {m : Nat} {p q : List Bool}
    (hp : followPath d.node 0 p = some m) (hq : followPath d.node 0 q = some m) : p = q := by
  have root : 0 < d.nNodes := Nat.zero_lt_of_lt h.allocated
  induction p using List.reverseRecOn generalizing m q with
  | nil =>
    cases hp
    have := h.followPath_range root hq
    exact (List.eq_nil_of_length_eq_zero (by omega)).symm
  | append_singleton p b ih =>
    obtain ⟨hlen, hm⟩ := h.followPath_range root hp
    rw [List.length_append, List.length_singleton] at hlen
    rcases List.eq_nil_or_concat q with rfl | ⟨q, c, rfl⟩
    · cases hq
      omega
    · rw [List.concat_eq_append] at hq ⊢
      obtain ⟨k, hk, hkn, hkm⟩ := h.followPath_parent hp
      obtain ⟨j, hj, hjn, hjm⟩ := h.followPath_parent hq
      have one : (k, b) = (j, c) := (h.parent m (by omega) hm).unique ⟨hkn, hkm⟩ ⟨hjn, hjm⟩
      cases one
      rw [ih hk hj]

/-- One turn of the allocating loop adds one path, the one to the new node (41_decoder.md R146). -/
theorem GrowingTrie.followPath_allocChild (h : GrowingTrie d n) {b : Bool} (hb : childOf (nodeAt d.node n) b = 0)
    {p : List Bool} (hp : followPath d.node 0 p = some n) (c : List Bool) :
    followPath (Machine.allocChild n b d).node 0 c =
      if c = p ++ [b] then some d.nNodes else followPath d.node 0 c := by
  have children := childOf_allocChild h.nodeWf h.nodeRange (n := n) b
  have hn := h.allocated
  induction c using List.reverseRecOn with
  | nil => simp [followPath]
  | append_singleton c x ih =>
    rw [followPath_concat, ih]
    by_cases hc : c = p ++ [b]
    · have old : followPath d.node 0 (c ++ [x]) = none := followPath_absent hp hb ⟨[x], by rw [hc]⟩
      rw [if_pos hc, old, if_neg (by simp [hc])]
      simp [children, hn.ne', nodeAt_unallocated h.nodeRange le_rfl]
    · rw [if_neg hc, followPath_concat]
      cases hk : followPath d.node 0 c with
      | none =>
        have : c ≠ p := by rintro rfl; rw [hp] at hk; cases hk
        simp [this]
      | some k =>
        have at_n : k = n ↔ c = p :=
          ⟨fun e => h.followPath_unique (e ▸ hk) hp, fun e => by rw [e, hp] at hk; exact (Option.some.inj hk).symm⟩
        simp only [Option.bind_some, children, at_n, List.append_singleton_inj]
        by_cases new : c = p ∧ x = b
        · have : d.nNodes ≠ 0 := by omega
          simp [new, this]
        · simp [new]

/-- A list longer than `p` that begins `p ++ b :: bs` either ends with the bit `b` or goes on after it. -/
theorem longer_prefix_iff {p c bs : List Bool} {b : Bool} :
    p.length < c.length ∧ c <+: p ++ b :: bs ↔
      c = p ++ [b] ∨ (p ++ [b]).length < c.length ∧ c <+: p ++ [b] ++ bs := by
  rw [List.append_cons p b bs]
  have begins : p ++ [b] <+: p ++ [b] ++ bs := List.prefix_append _ _
  have len : (p ++ [b]).length = p.length + 1 := by simp
  constructor
  · rintro ⟨hlen, hc⟩
    rcases Nat.eq_or_lt_of_le (Nat.succ_le_of_lt hlen) with e | hlt
    · exact .inl ((List.prefix_of_prefix_length_le hc begins (by omega)).eq_of_length (by omega))
    · exact .inr ⟨by omega, hc⟩
  · rintro (rfl | ⟨hlen, hc⟩)
    · exact ⟨by omega, begins⟩
    · exact ⟨by omega, hc⟩

/-- The allocating loop adds the paths along the new code that are longer than `p`, and no other (41_decoder.md R146). -/
theorem GrowingTrie.followPath_allocPath (h : GrowingTrie d n) {b : Bool} (hb : childOf (nodeAt d.node n) b = 0)
    {p : List Bool} (hp : followPath d.node 0 p = some n) (bs c : List Bool) :
    followPath (Machine.allocPath n (b :: bs) d).1.node 0 c =
      if p.length < c.length ∧ c <+: p ++ b :: bs then some (d.nNodes + (c.length - p.length - 1))
      else followPath d.node 0 c := by
  induction bs generalizing d n b p with
  | nil =>
    refine (h.followPath_allocChild hb hp c).trans ?_
    simp only [longer_prefix_iff, List.append_nil]
    by_cases hc : c = p ++ [b]
    · simp [hc]
    · have longer : ¬ ((p ++ [b]).length < c.length ∧ c <+: p ++ [b]) :=
        fun ⟨hlen, hpre⟩ => absurd hpre.length_le (by omega)
      simp only [hc, longer, or_self, if_false]
  | cons b' bs ih =>
    have tip := h.allocChild hb
    have step := h.followPath_allocChild hb hp
    refine (ih tip.toGrowingTrie (by rw [tip.blank, childOf_blank]) (by rw [step, if_pos rfl])).trans ?_
    rw [step, show (Machine.allocChild n b d).nNodes = d.nNodes + 1 from rfl]
    simp only [longer_prefix_iff (p := p)]
    by_cases hc : c = p ++ [b]
    · simp [hc]
    · simp only [hc, if_false, false_or]
      split
      · next longer =>
        rw [List.length_append, List.length_singleton] at longer ⊢
        congr 1
        omega
      · rfl

/-! ## Where a new code leaves the trie -/

/-- The code `bits` follows existing nodes along `p`, to the inner node `n`, and its next bit `b` finds no child there;
`b :: bs` is what D_INSERT has to place (41_decoder.md R146). -/
structure LeavesTrie (d : Decoder) (bits p : List Bool) (n : Nat) (b : Bool) (bs : List Bool) : Prop where
  split : bits = p ++ b :: bs
  path : followPath d.node 0 p = some n
  growing : GrowingTrie d n
  absent : childOf (nodeAt d.node n) b = 0
  shared : sharedLength d.node 0 bits = p.length

/-- The walk along existing nodes ends after the bits they share with the code (41_decoder.md R146). -/
theorem walkPath_absent_path {node : List (Nat × Node)} {k : Nat} {bits rest : List Bool}
    (e : walkPath node k bits = .absent n rest) :
    ∃ p, bits = p ++ rest ∧ followPath node k p = some n ∧ sharedLength node k bits = p.length := by
  induction bits generalizing k with
  | nil => cases e
  | cons b bs ih =>
    rw [walkPath] at e
    split at e
    · next hc =>
      cases e
      exact ⟨[], rfl, rfl, by simp [sharedLength, hc]⟩
    · next hc =>
      split at e
      · cases e
      · obtain ⟨p, rfl, hp, hs⟩ := ih e
        exact ⟨b :: p, rfl, by rw [followPath, if_neg hc, hp], by simp [sharedLength, hc, hs]⟩

/-- A walk of D_INSERT that meets no conflict shows where the code leaves the trie (41_decoder.md R146). -/
theorem TrieInv.leavesTrie (h : TrieInv nodeCap d) {bits rest : List Bool}
    (e : walkPath d.node 0 bits = .absent n rest) : ∃ p b bs, rest = b :: bs ∧ LeavesTrie d bits p n b bs := by
  obtain ⟨p, hsplit, hp, hs⟩ := walkPath_absent_path e
  obtain ⟨hn, hl, b, bs, rfl, hb⟩ := h.walkPath_absent h.nodesPos h.rootInner e
  exact ⟨p, b, bs, rfl, hsplit, hp, h.growing hn hl, hb, hs⟩

/-- The trie after the two writing parts of D_INSERT, from the node where the code leaves the trie (41_decoder.md
R146). -/
def insertedAt (sym : Byte) (n : Nat) (rest : List Bool) (d : Decoder) : Decoder :=
  placeLeaf sym (allocPath n rest d).2 (allocPath n rest d).1

/-- D_INSERT succeeds exactly when the three checks pass, and then it writes (41_decoder.md R146). -/
theorem insertCode_ok_iff {sym : Byte} {bits : List Bool} {d' : Decoder} :
    insertCode nodeCap sym bits d = .ok d' ↔
      d.nCodes ≠ 256 ∧ ∃ n rest, walkPath d.node 0 bits = .absent n rest ∧ d.nNodes + rest.length ≤ nodeCap ∧
        d' = insertedAt sym n rest d := by
  rw [insertCode]
  by_cases hcodes : d.nCodes = 256
  · simp [hcodes]
  · cases hw : walkPath d.node 0 bits with
    | conflict => simp [hcodes]
    | absent n rest =>
      by_cases hroom : d.nNodes + rest.length ≤ nodeCap
      · simp [hcodes, hroom, Nat.not_lt.2 hroom, eq_comm, insertedAt]
      · simp [hcodes, hroom, Nat.lt_of_not_le hroom]

section

variable {bits p bs : List Bool} {b : Bool} (sym : Byte)

/-- The paths after an insertion: those along the new code past the bits it shares with the trie, and the old ones
(41_decoder.md R146). -/
theorem LeavesTrie.followPath_insertedAt (h : LeavesTrie d bits p n b bs) (c : List Bool) :
    followPath (insertedAt sym n (b :: bs) d).node 0 c =
      if p.length < c.length ∧ c <+: bits then some (d.nNodes + (c.length - p.length - 1))
      else followPath d.node 0 c := by
  obtain ⟨tip, -⟩ := h.growing.allocPath h.absent bs
  rw [h.split, ← h.growing.followPath_allocPath h.absent h.path]
  exact followPath_congr (fun m x => childOf_placeLeaf tip.nodeWf sym _ m x) c

end

/-! ## The depth bound -/

/-- The empty trie has one path, of no bits (41_decoder.md R143). -/
theorem depthInv_reset : DepthInv Decoder.reset.node := by
  intro bits m h
  cases bits with
  | nil => exact Nat.zero_le _
  | cons b bs => exact absurd (childOf_blank b) (followPath_cons_some h).1

/-- An insertion of a code of at most 255 bits keeps the depth bound (41_decoder.md R144, R146). -/
theorem TrieInv.depthInv_insertCode (h : TrieInv nodeCap d) {sym : Byte} {bits : List Bool} {d' : Decoder}
    (e : Machine.insertCode nodeCap sym bits d = .ok d') (hlen : bits.length ≤ 255) (hd : DepthInv d.node) :
    DepthInv d'.node := by
  obtain ⟨-, n, rest, hw, -, rfl⟩ := insertCode_ok_iff.1 e
  obtain ⟨p, b, bs, rfl, leaves⟩ := h.leavesTrie hw
  intro c m hc
  rw [leaves.followPath_insertedAt] at hc
  split at hc
  · next new => exact new.2.length_le.trans hlen
  · exact hd c m hc

/-- Every command keeps the depth bound: only D_INSERT adds paths, along a code of at most 255 bits (41_decoder.md
R144). -/
theorem DepthInv.exec {i : Instr} {s t : State} (hd : DepthInv s.decoder.node)
    (trie : TrieInv s.params.nodeCap s.decoder) (e : exec i s = .next t) : DepthInv t.decoder.node := by
  cases exec_result e with
  | reset _ e' => exact e' ▸ depthInv_reset
  | packer _ k log e' => exact e' ▸ hd
  | nop _ e' => exact e' ▸ hd
  | waits w e' => exact e' ▸ hd
  | decoder hi =>
    rcases hi with rfl | ⟨sym, len, rfl⟩ | rfl | ⟨b, rfl⟩ | ⟨byte, rfl⟩
    · cases e; exact depthInv_reset
    · rcases unlessDecoderFault_cases e with ⟨-, e⟩ | ⟨-, rfl⟩
      · split at e <;> cases e
        · exact trie.depthInv_insertCode ‹_› (by rw [codeBits_length]; omega) hd
        · exact hd
      · exact hd
    · obtain ⟨hnode, -, -⟩ := trie_of_dStart e
      exact hnode ▸ hd
    · obtain ⟨hnode, -, -⟩ := trie_of_settleWalk e
      exact hnode ▸ hd
    · obtain ⟨hnode, -, -⟩ := trie_of_settleWalk e
      exact hnode ▸ hd

/-- The machine's invariant with the depth bound. -/
def BoundedInv (s : State) : Prop := Inv s ∧ DepthInv s.decoder.node

/-- A host access leaves the decoder. -/
theorem hostAccess_decoder (a : Access) (s : State) : (hostAccess a s).decoder = s.decoder := by
  obtain ⟨-, -, hdecoder⟩ := (busAccess_result a s).keeps_causes
  exact hdecoder

/-- Every move of an agent keeps the invariant and the depth bound. -/
theorem boundedInv_keptByMoves : KeptByMoves BoundedInv where
  schedule s rest h := ⟨inv_keptByMoves.schedule s rest h.1, h.2⟩
  access s ops a h := ⟨inv_keptByMoves.access s ops a h.1, by rw [hostAccess_decoder]; exact h.2⟩
  exec s t l i hf e h := ⟨h.1.exec hf e, h.2.exec h.1.trie e⟩
  sinkAnswer s l w a more hf h := ⟨inv_keptByMoves.sinkAnswer s l w a more hf h.1, h.2⟩
  outAnswer s l w a more hf h := ⟨inv_keptByMoves.outAnswer s l w a more hf h.1, h.2⟩
  rst s h := ⟨h.1.rst, depthInv_reset⟩

/-- Settles O52: every agent's move keeps the depth bound along with the invariant. -/
theorem stepKeepsTheDepthBound : Obligations.StepKeepsTheDepthBound := by
  intro s t inv hd e
  obtain ⟨-, bound⟩ := boundedInv_keptByMoves.step e ⟨inv, hd⟩
  exact bound

end

end Sys2Proof.Safety
end

section
/-! D_INSERT (41_decoder.md R146): which codes conflict with those of the trie, which codes the trie holds afterwards, and
the command by the outcome of its checks. -/

namespace Sys2Proof.Safety

open Sys2Proof.Machine

section

variable {d : Decoder} {nodeCap n : Nat} {bits p bs c : List Bool} {b : Bool}

/-! ## The codes of a trie -/

/-- The symbol of a code whose path exists (41_decoder.md R142 (e)). -/
theorem codeSymbol_of_path {node : List (Nat × Node)} {m : Nat} (hp : followPath node 0 c = some m) :
    codeSymbol node c = if (nodeAt node m).leaf = true then some (nodeAt node m).sym else none := by
  simp only [codeSymbol, hp]

/-- No code without a path. -/
theorem codeSymbol_of_no_path {node : List (Nat × Node)} (hp : followPath node 0 c = none) :
    codeSymbol node c = none := by
  simp only [codeSymbol, hp]

/-- The trie holds a code when its path ends at a leaf (41_decoder.md R142 (e)). -/
theorem codeSymbol_isSome_iff {node : List (Nat × Node)} :
    (codeSymbol node c).isSome = true ↔ ∃ m, followPath node 0 c = some m ∧ (nodeAt node m).leaf = true := by
  cases hp : followPath node 0 c with
  | none => simp [codeSymbol_of_no_path hp]
  | some m => simp [codeSymbol_of_path hp]

/-! ## Conflicts -/

/-- Below every node but the root there is a leaf, since an inner node has a child (41_decoder.md R142 (c)). -/
theorem TrieInv.exists_leaf_below (h : TrieInv nodeCap d) {k : Nat} (hpos : 1 ≤ k) (hk : k < d.nNodes) :
    ∃ q m, followPath d.node k q = some m ∧ (nodeAt d.node m).leaf = true := by
  induction hleft : d.nNodes - k using Nat.strong_induction_on generalizing k with
  | _ left ih =>
    by_cases hl : (nodeAt d.node k).leaf = true
    · exact ⟨[], k, rfl, hl⟩
    · obtain ⟨x, hx⟩ : ∃ x, childOf (nodeAt d.node k) x ≠ 0 := by
        by_contra! childless
        exact hl ((h.leafIff k hpos hk).2 ((childOf_eq_zero_iff _).1 childless))
      obtain ⟨above, below⟩ := h.childRange k x hk hx
      obtain ⟨q, m, hq, hm⟩ := ih _ (by omega) (by omega) below rfl
      exact ⟨x :: q, m, by rw [followPath, if_neg hx, hq], hm⟩

/-- Where the walk of D_INSERT meets a conflict there is a code that begins the bits or goes on from
them (41_decoder.md R146). -/
theorem TrieInv.exists_leaf_of_conflict (h : TrieInv nodeCap d) {k : Nat} (hk : k < d.nNodes) (hne : 1 ≤ k ∨ bits ≠ [])
    (e : walkPath d.node k bits = .conflict) :
    ∃ c m, followPath d.node k c = some m ∧ (nodeAt d.node m).leaf = true ∧ (c <+: bits ∨ bits <+: c) := by
  induction bits generalizing k with
  | nil =>
    obtain ⟨q, m, hq, hm⟩ := h.exists_leaf_below (by simpa using hne) hk
    exact ⟨q, m, hq, hm, .inr List.nil_prefix⟩
  | cons x xs ih =>
    rw [walkPath] at e
    split at e
    · cases e
    · next hc =>
      obtain ⟨above, below⟩ := h.childRange k x hk hc
      split at e
      · next hl => exact ⟨[x], _, by rw [followPath, if_neg hc]; rfl, hl, .inl ⟨xs, rfl⟩⟩
      · obtain ⟨c, m, hp, hm, hpre⟩ := ih below (.inl (by omega)) e
        exact ⟨x :: c, m, by rw [followPath, if_neg hc, hp], hm,
          hpre.imp (List.prefix_cons_inj x).2 (List.prefix_cons_inj x).2⟩

/-- A code that leaves the trie neither begins nor extends one of its codes (41_decoder.md R146). -/
theorem LeavesTrie.not_conflicts (h : LeavesTrie d bits p n b bs) (trie : TrieInv nodeCap d) :
    ¬ Conflicts d.node bits := by
  rintro ⟨c, hc, hpre⟩
  obtain ⟨m, hp, hl⟩ := codeSymbol_isSome_iff.1 hc
  have begins : p ++ [b] <+: bits := ⟨bs, by rw [h.split, List.append_assoc]; rfl⟩
  have off : ¬ p ++ [b] <+: c := fun hpre => by
    rw [followPath_absent h.path h.absent hpre] at hp
    cases hp
  have on : c <+: p := by
    rcases hpre with hpre | hpre
    · rcases List.prefix_or_prefix_of_prefix hpre begins with hpre | hpre
      · exact (List.prefix_concat_iff.1 hpre).resolve_left (fun e => off (e ▸ List.prefix_rfl))
      · exact absurd hpre off
    · exact absurd (begins.trans hpre) off
  obtain ⟨q, rfl⟩ := on
  have hq : followPath d.node m q = some n := by
    have := h.path
    rwa [followPath_append, hp] at this
  have hpos : 1 ≤ m := Nat.one_le_iff_ne_zero.2 fun e => by rw [e, trie.rootInner] at hl; cases hl
  obtain ⟨-, rfl⟩ := trie.followPath_leaf hpos (trie.growingRoot.followPath_range trie.nodesPos hp).2 hl hq
  rw [h.growing.inner] at hl
  cases hl

/-- D_INSERT's walk ends in a conflict for a code that conflicts (41_decoder.md R146). -/
theorem TrieInv.walkPath_of_conflicts (h : TrieInv nodeCap d) (hc : Conflicts d.node bits) :
    walkPath d.node 0 bits = .conflict := by
  cases e : walkPath d.node 0 bits with
  | conflict => rfl
  | absent n rest =>
    obtain ⟨p, b, bs, -, leaves⟩ := h.leavesTrie e
    exact absurd hc (leaves.not_conflicts h)

/-- A code of one bit and more that does not conflict leaves the trie (41_decoder.md R146). -/
theorem TrieInv.leavesTrie_of_not_conflicts (h : TrieInv nodeCap d) (hne : bits ≠ []) (hc : ¬ Conflicts d.node bits) :
    ∃ p n b bs, walkPath d.node 0 bits = .absent n (b :: bs) ∧ LeavesTrie d bits p n b bs := by
  cases e : walkPath d.node 0 bits with
  | conflict =>
    obtain ⟨c, m, hp, hm, hpre⟩ := h.exists_leaf_of_conflict h.nodesPos (.inr hne) e
    exact absurd ⟨c, codeSymbol_isSome_iff.2 ⟨m, hp, hm⟩, hpre⟩ hc
  | absent n rest =>
    obtain ⟨p, b, bs, rfl, leaves⟩ := h.leavesTrie e
    exact ⟨p, n, b, bs, rfl, leaves⟩

/-! ## What an insertion writes -/

/-- D_INSERT places the bits that the code does not share with the trie (41_decoder.md R146). -/
theorem LeavesTrie.length_rest (h : LeavesTrie d bits p n b bs) :
    (b :: bs).length = bits.length - sharedLength d.node 0 bits := by
  rw [h.shared, h.split, List.length_append, Nat.add_sub_cancel_left]

/-- An insertion writes NODE, NNODES and NCODES (41_decoder.md R146). -/
theorem insertedAt_frame (sym : Byte) (n : Nat) (rest : List Bool) (d : Decoder) :
    insertedAt sym n rest d = { d with
      node := (insertedAt sym n rest d).node
      nNodes := d.nNodes + rest.length
      nCodes := d.nCodes + 1 } := by
  rw [insertedAt, placeLeaf, allocPath_frame]

/-- Allocating from a blank tip leaves the nodes below the tip. -/
theorem FreshTip.nodeAt_allocPath (h : FreshTip d n) (bits : List Bool) {m : Nat} (hm : m < n) :
    nodeAt (Machine.allocPath n bits d).1.node m = nodeAt d.node m := by
  induction bits generalizing d n with
  | nil => rfl
  | cons b bs ih =>
    have tip := h.toGrowingTrie.allocChild (b := b) (by rw [h.blank, childOf_blank])
    refine (ih tip (hm.trans h.allocated)).trans ?_
    rw [nodeAt_allocChild h.nodeWf h.nodeRange, if_neg hm.ne]

section

variable (h : LeavesTrie d bits p n b bs) (sym : Byte)
include h

/-- The end of the new path is the last slot of the new trie. -/
theorem LeavesTrie.tip_eq : (allocPath n (b :: bs) d).2 = d.nNodes + bs.length := by
  obtain ⟨tip, -⟩ := h.growing.allocPath h.absent bs
  have := tip.last
  rw [allocPath_nNodes, List.length_cons] at this
  omega

/-- Of the allocated nodes an insertion changes one, which gets its absent child (41_decoder.md R146). -/
theorem LeavesTrie.nodeAt_insertedAt {m : Nat} (hm : m < d.nNodes) :
    nodeAt (insertedAt sym n (b :: bs) d).node m =
      if m = n then setChild (nodeAt d.node n) b d.nNodes else nodeAt d.node m := by
  obtain ⟨tip, -⟩ := h.growing.allocPath h.absent bs
  rw [insertedAt, nodeAt_placeLeaf tip.nodeWf, h.tip_eq, if_neg (by omega)]
  exact ((h.growing.allocChild h.absent).nodeAt_allocPath bs hm).trans
    (nodeAt_allocChild h.growing.nodeWf h.growing.nodeRange b m)

/-- The last slot of the new trie is the leaf of the symbol, and no other new slot is a leaf (41_decoder.md R146). -/
theorem LeavesTrie.new_leaf : (nodeAt (insertedAt sym n (b :: bs) d).node (d.nNodes + bs.length)).leaf = true ∧
    (nodeAt (insertedAt sym n (b :: bs) d).node (d.nNodes + bs.length)).sym = sym ∧
    ∀ m, d.nNodes ≤ m → m ≠ d.nNodes + bs.length → (nodeAt (insertedAt sym n (b :: bs) d).node m).leaf = false := by
  obtain ⟨tip, leaves⟩ := h.growing.allocPath h.absent bs
  simp only [insertedAt, nodeAt_placeLeaf tip.nodeWf, h.tip_eq, if_true, true_and]
  intro m hm hne
  rw [if_neg hne, leaves, nodeAt_unallocated h.growing.nodeRange hm, blank_leaf]

/-- The codes after an insertion: the new one with its symbol, and every earlier one with its symbol (41_decoder.md
R146). -/
theorem LeavesTrie.codeSymbol_insertedAt (c : List Bool) :
    codeSymbol (insertedAt sym n (b :: bs) d).node c = if c = bits then some sym else codeSymbol d.node c := by
  obtain ⟨leaf, leafSym, inner⟩ := h.new_leaf sym
  have path := h.followPath_insertedAt sym c
  have len : bits.length = p.length + (bs.length + 1) := by rw [h.split, List.length_append, List.length_cons]
  by_cases new : p.length < c.length ∧ c <+: bits
  · rw [if_pos new] at path
    rw [codeSymbol_of_path path]
    by_cases hc : c = bits
    · rw [if_pos hc, show d.nNodes + (c.length - p.length - 1) = d.nNodes + bs.length by rw [hc]; omega, if_pos leaf,
        leafSym]
    · have shorter : c.length < bits.length := lt_of_le_of_ne new.2.length_le fun e => hc (new.2.eq_of_length e)
      have begins : p ++ [b] <+: c :=
        List.prefix_of_prefix_length_le ⟨bs, by rw [h.split, List.append_assoc]; rfl⟩ new.2 (by simp; omega)
      rw [if_neg hc, inner _ (by omega) (by omega), codeSymbol_of_no_path (followPath_absent h.path h.absent begins)]
      rfl
  · rw [if_neg new] at path
    have hc : c ≠ bits := fun e => new ⟨by rw [e]; omega, by rw [e]⟩
    rw [if_neg hc]
    cases old : followPath d.node 0 c with
    | none => rw [codeSymbol_of_no_path old, codeSymbol_of_no_path (path.trans old)]
    | some m =>
      obtain ⟨-, hm⟩ := h.growing.followPath_range (Nat.zero_lt_of_lt h.growing.allocated) old
      rw [codeSymbol_of_path old, codeSymbol_of_path (path.trans old), h.nodeAt_insertedAt sym hm]
      by_cases hmn : m = n
      · simp [hmn]
      · rw [if_neg hmn]

end

end

end Sys2Proof.Safety

namespace Sys2Proof.Machine

open Sys2Proof.Safety

/-! ## The command -/

section

variable {s : State} {d : Decoder} {nodeCap : Nat} {sym len : Byte} {bits : List Bool}

/-- D_INSERT of a code that passes its checks (41_decoder.md R146). -/
theorem exec_dInsert_ok (hd : s.decoder.df = .none)
    (e : insertCode s.params.nodeCap sym (codeBits (latchedCode s) len.toNat) s.decoder = .ok d) :
    exec (.dInsert sym len) s = .next { s with flight := none, decoder := d } := by
  refine (unlessDecoderFault_ready hd _).trans ?_
  rw [e]
  rfl

/-- D_INSERT of a code that a check refuses records the cause and leaves the trie (41_decoder.md R146). -/
theorem exec_dInsert_error {cause : DfCause} (hd : s.decoder.df = .none)
    (e : insertCode s.params.nodeCap sym (codeBits (latchedCode s) len.toNat) s.decoder = .error cause) :
    exec (.dInsert sym len) s = .next { s with flight := none, decoder := { s.decoder with df := cause } } := by
  refine (unlessDecoderFault_ready hd _).trans ?_
  rw [e]
  simp [complete, raiseDf, hd]

/-- The first check: 256 codes (41_decoder.md R146, 60_exceptions.md R187). -/
theorem insertCode_tooManyCodes (h : d.nCodes = 256) : insertCode nodeCap sym bits d = .error .tooManyCodes := if_pos h

/-- The second check: a conflict (41_decoder.md R146, 60_exceptions.md R187). -/
theorem insertCode_conflict (h : d.nCodes ≠ 256) (hw : walkPath d.node 0 bits = .conflict) :
    insertCode nodeCap sym bits d = .error .trieConflict := by
  rw [insertCode, if_neg h, hw]

/-- The third check: the slots (41_decoder.md R146, 60_exceptions.md R187). -/
theorem insertCode_full {n : Nat} {rest : List Bool} (h : d.nCodes ≠ 256) (hw : walkPath d.node 0 bits = .absent n rest)
    (hroom : nodeCap < d.nNodes + rest.length) : insertCode nodeCap sym bits d = .error .trieFull := by
  rw [insertCode, if_neg h, hw]
  exact if_pos hroom

/-- A code length other than 0 is a code of one bit and more. -/
theorem codeBits_ne_nil (w : CodeWords) (h : len ≠ 0) : codeBits w len.toNat ≠ [] := by
  intro e
  have := congrArg List.length e
  rw [codeBits_length] at this
  exact h (BitVec.eq_of_toNat_eq this)

end

/-- Settles O34: each check's outcome, in the order of the checks. -/
theorem insertFaultsInOrder : Obligations.InsertFaultsInOrder := by
  intro s sym len hd
  refine ⟨fun many => ?tooMany, fun few trie conflict => ?conflict, fun few trie hlen free full => ?full⟩
  case tooMany => exact exec_dInsert_error hd (insertCode_tooManyCodes many)
  case conflict => exact exec_dInsert_error hd (insertCode_conflict few (trie.walkPath_of_conflicts conflict))
  case full =>
    obtain ⟨p, n, b, bs, hw, leaves⟩ := trie.leavesTrie_of_not_conflicts (codeBits_ne_nil _ hlen) free
    have room := leaves.length_rest
    rw [codeBits_length] at room
    exact exec_dInsert_error hd (insertCode_full few hw (by rwa [room]))

/-- Settles O33: the code leaves the trie at a node, and the insertion from there on adds its path and no other. -/
theorem insertAddsTheCode : Obligations.InsertAddsTheCode := by
  intro s sym len hd trie few hlen free fits
  obtain ⟨p, n, b, bs, hw, leaves⟩ := trie.leavesTrie_of_not_conflicts (codeBits_ne_nil _ hlen) free
  have room := leaves.length_rest
  rw [codeBits_length] at room
  rw [← room] at fits ⊢
  have ok := insertCode_ok_iff.2 ⟨few, n, b :: bs, hw, fits, (insertedAt_frame sym n (b :: bs) s.decoder).symm⟩
  exact ⟨_, exec_dInsert_ok hd ok, leaves.codeSymbol_insertedAt sym,
    n, b, leaves.growing.allocated, leaves.absent, fun m hm => leaves.nodeAt_insertedAt sym hm⟩

end Sys2Proof.Machine
end

section
/-! The decoder's other commands (41_decoder.md R140 to R150, R153): D_RESET, D_START, the two feeds, and the decode law. -/

namespace Sys2Proof.Machine

open Sys2Proof.Safety

/-! ## What DF blocks, and the commands that issue no output write -/

/-- Settles O31: an empty list is a trie whose root is blank. -/
theorem dResetEmptiesTheTrie : Obligations.DResetEmptiesTheTrie :=
  fun _ => ⟨_, [], rfl, rfl, rfl, rfl⟩

/-- Settles O30: the blocked commands are the decoder's but D_RESET, which clears in every state. -/
theorem decoderFaultBlocksItsUnit : Obligations.DecoderFaultBlocksItsUnit := by
  intro s sym len byte b hd
  have blocked : ∀ i, IsDecoderCommand i → i ≠ .dReset → exec i s = .next { s with flight := none } :=
    fun _ hi hne => exec_decoderCommand_blocked hi hne hd
  exact ⟨blocked _ (by simp [IsDecoderCommand]) nofun, blocked _ (by simp [IsDecoderCommand]) nofun,
    blocked _ (by simp [IsDecoderCommand]) nofun, blocked _ (by simp [IsDecoderCommand]) nofun,
    _, rfl, rfl, rfl, rfl, rfl, rfl⟩

/-- Settles O32: the length is the latched one, or with no command in flight the staged one. -/
theorem dStartLoadsTheLength : Obligations.DStartLoadsTheLength := by
  intro s hd
  have run : exec .dStart s = .next { s with
      flight := none
      decoder := { s.decoder with remain := latchedLen s, cur := 0 } } :=
    unlessDecoderFault_ready hd _
  refine ⟨fun l hf => ?inFlight, fun hf => ?idle⟩
  case inFlight => rw [run, latchedLen, hf]
  case idle =>
    rw [run]
    simp [latchedLen, hf]

/-! ## The feeds while DF = 0 -/

section

variable {s : State} {l : Latch} {node : List (Nat × Node)} {b : Bool} {r : WalkRun}

/-- D_FEED_BIT with DF = 0 settles its run (41_decoder.md R149). -/
theorem exec_dFeedBit_ready (hd : s.decoder.df = .none) (b : Bool) :
    exec (.dFeedBit b) s = settleWalk (.dFeedBit b) s (stepBit s.decoder.node b (startWalk s)) :=
  unlessDecoderFault_ready hd _

/-- D_FEED_BYTE with DF = 0 settles its run (41_decoder.md R150). -/
theorem exec_dFeedByte_ready (hd : s.decoder.df = .none) (byte : Byte) :
    exec (.dFeedByte byte) s = settleWalk (.dFeedByte byte) s (feedBits s.decoder.node (byteBits byte) (startWalk s)) :=
  unlessDecoderFault_ready hd _

/-- With REMAIN = 0 the bit is discarded (41_decoder.md R148). -/
theorem stepBit_discard (h : r.remain = 0) : stepBit node b r = .running r := if_pos h

/-- An absent child is WALK_OFF (41_decoder.md R148). -/
theorem stepBit_walkOff (h : r.remain ≠ 0) (hc : childOf (nodeAt node r.cur) b = 0) :
    stepBit node b r = .raised r .walkOff := by
  rw [stepBit, if_neg h, if_pos hc]

/-- An inner child becomes CUR (41_decoder.md R148). -/
theorem stepBit_inner (h : r.remain ≠ 0) (hc : childOf (nodeAt node r.cur) b ≠ 0)
    (hl : (nodeAt node (childOf (nodeAt node r.cur) b)).leaf = false) :
    stepBit node b r = .running { r with cur := childOf (nodeAt node r.cur) b } := by
  rw [stepBit, if_neg h, if_neg hc, if_neg (by simp [hl])]

/-- A leaf emits its symbol (41_decoder.md R148). -/
theorem stepBit_leaf (h : r.remain ≠ 0) (hc : childOf (nodeAt node r.cur) b ≠ 0)
    (hl : (nodeAt node (childOf (nodeAt node r.cur) b)).leaf = true) :
    stepBit node b r = emit (nodeAt node (childOf (nodeAt node r.cur) b)).sym r := by
  rw [stepBit, if_neg h, if_neg hc, if_pos hl]

/-- A feed that raises a fault with DF = 0 completes with its effects written and the cause recorded (60_exceptions.md
R184). -/
theorem settleWalk_raised (hd : s.decoder.df = .none) (i : Instr) (r : WalkRun) (c : DfCause) :
    settleWalk i s (.raised r c) = .next { s with
      flight := none
      outLog := s.outLog ++ r.log
      decoder := { s.decoder with cur := r.cur, remain := r.remain, df := c } } := by
  simp [settleWalk, raiseDf, complete, storeWalk, hd]

/-- A command in flight that waits keeps the rest of its latch (10_state.md R43). -/
theorem awaitAnswer_inFlight (hf : s.flight = some l) (i : Instr) (w : OutputWrite) :
    awaitAnswer i w s = { s with flight := some { l with outstanding := some w } } := by
  simp [awaitAnswer, latchOf, hf]

end

/-- Settles O35: each case of StepBit, and at a leaf each answer to the OutWrite. -/
theorem feedBitStepsTheWalk : Obligations.FeedBitStepsTheWalk := by
  intro s b hd
  have run := exec_dFeedBit_ready hd b
  refine ⟨fun h0 => ?discard, fun h0 hc => ?walkOff, fun h0 hc hl => ?inner, fun h0 hc hl l hf => ?leaf⟩
  case discard =>
    rw [run, stepBit_discard h0]
    simp [settleWalk, complete, storeWalk, startWalk]
  case walkOff =>
    rw [run, stepBit_walkOff h0 hc, settleWalk_raised hd]
    simp [startWalk]
  case inner =>
    rw [run, stepBit_inner h0 hc hl]
    simp [settleWalk, complete, storeWalk, startWalk]
  case leaf =>
    have given : (startWalk s).answers = l.answered.map (fun x => x.2) := givenAnswers_inFlight hf
    rw [run, stepBit_leaf h0 hc hl, emit, given]
    refine ⟨fun w rest ha => ?ok, fun w rest ha => ?err, fun ha => ?waits⟩
    case ok => rw [ha]; rfl
    case err =>
      rw [ha]
      exact settleWalk_raised hd _ _ _
    case waits =>
      rw [List.map_eq_nil_iff.2 ha]
      exact congrArg Host.Outcome.next (awaitAnswer_inFlight hf _ _)

/-- Settles O55: the codes are fed from the root with an `ok` at hand for each. -/
theorem decodeLaw : Obligations.DecodeLaw := by
  intro nodeCap d code syms pad answers trie hcode hlen hok hmany
  obtain ⟨rest, hrest⟩ := replicate_ok_prefix hok hmany
  have fed := trie.feedBits_codes (r := startedWalk syms.length answers) pad hcode hlen rfl rfl hrest.symm
  have left : answers.drop syms.length = rest := by
    rw [← hrest]
    exact List.drop_left' List.length_replicate
  rw [fed, left]
  rfl

/-! ## A byte fed bit by bit -/

section

variable {node : List (Nat × Node)} {b : Bool} {r r' : WalkRun}

/-- A progress with its run changed. -/
def Progress.mapRun {ρ κ : Type} (f : ρ → ρ) : Progress ρ κ → Progress ρ κ
  | .running r => .running (f r)
  | .raised r c => .raised (f r) c
  | .waiting w => .waiting w

/-- A run with OutWrites made before it. -/
def WalkRun.after (log : List OutEntry) (r : WalkRun) : WalkRun := { r with log := log ++ r.log }

/-- A byte's bits are fed like any others: also with REMAIN = 0, where StepBit discards (41_decoder.md R150). -/
theorem feedBits_cons (b : Bool) (bs : List Bool) (r : WalkRun) :
    feedBits node (b :: bs) r = (stepBit node b r).andThen (feedBits node bs) := by
  by_cases h0 : r.remain = 0
  · rw [feedBits_done h0, stepBit_discard h0]
    exact (feedBits_done h0).symm
  · exact if_neg h0

/-- StepBit does not look at the OutWrites made before it. -/
theorem stepBit_after (log : List OutEntry) (r : WalkRun) :
    stepBit node b (r.after log) = (stepBit node b r).mapRun (WalkRun.after log) := by
  rcases stepBit_cases node b r with ⟨h0, e⟩ | ⟨h0, hc, e⟩ | ⟨h0, hc, hl, e⟩ | ⟨h0, hc, hl, e⟩ <;> rw [e]
  · exact stepBit_discard h0
  · exact stepBit_walkOff h0 hc
  · refine (stepBit_leaf (r := r.after log) h0 hc hl).trans ?_
    rcases emit_cases (nodeAt node (childOf (nodeAt node r.cur) b)).sym r with ⟨ha, e⟩ | ⟨rest, ha, e⟩ | ⟨rest, ha, e⟩ <;>
      rw [e] <;> simp [emit, WalkRun.after, ha, Progress.mapRun]
  · exact stepBit_inner h0 hc hl

/-- A feed does not look at the OutWrites made before it. -/
theorem feedBits_after (log : List OutEntry) (bits : List Bool) (r : WalkRun) :
    feedBits node bits (r.after log) = (feedBits node bits r).mapRun (WalkRun.after log) := by
  induction bits generalizing r with
  | nil => rfl
  | cons b bs ih =>
    rw [feedBits_cons, feedBits_cons, stepBit_after]
    cases stepBit node b r with
    | running r' => exact ih r'
    | raised r' c => rfl
    | waiting w => rfl

/-- A StepBit that goes on leaves the answers after those it met (20_memory.md R67). -/
theorem stepBit_answers (hlog : r.log = []) (e : stepBit node b r = .running r') :
    r'.answers = r.answers.drop r'.log.length := by
  rcases stepBit_cases node b r with ⟨-, e'⟩ | ⟨-, -, e'⟩ | ⟨-, -, -, e'⟩ | ⟨-, -, -, e'⟩ <;> rw [e'] at e
  · cases e; rw [hlog]; rfl
  · cases e
  · rcases emit_cases (nodeAt node (childOf (nodeAt node r.cur) b)).sym r with ⟨-, e'⟩ | ⟨rest, ha, e'⟩ | ⟨rest, -, e'⟩ <;>
      rw [e'] at e <;> cases e
    rw [hlog, ha]
    rfl
  · cases e; rw [hlog]; rfl

/-- StepBit raises a cause (60_exceptions.md R183). -/
theorem stepBit_raised_ne_none {c : DfCause} (e : stepBit node b r = .raised r' c) : c ≠ .none := by
  rcases stepBit_cases node b r with ⟨-, e'⟩ | ⟨-, -, e'⟩ | ⟨-, -, -, e'⟩ | ⟨-, -, -, e'⟩ <;> rw [e'] at e
  · cases e
  · cases e; exact nofun
  · rcases emit_cases (nodeAt node (childOf (nodeAt node r.cur) b)).sym r with ⟨-, e'⟩ | ⟨rest, -, e'⟩ | ⟨rest, -, e'⟩ <;>
      rw [e'] at e <;> cases e
    exact nofun
  · cases e

end

section

variable {s t : State} {l : Latch}

/-- The state in which a feed that does not wait completes: `settleWalk` with the wait left out. -/
def settled (s : State) : Progress WalkRun DfCause → Option State
  | .running r => some (complete (storeWalk r s))
  | .raised r c => some (complete { storeWalk r s with decoder := raiseDf c (storeWalk r s).decoder })
  | .waiting _ => none

/-- A feed that does not wait ends in that state. -/
theorem settleWalk_of_settled {p : Progress WalkRun DfCause} (i : Instr) (h : settled s p = some t) :
    settleWalk i s p = .next t := by
  cases p with
  | running r => exact congrArg Host.Outcome.next (Option.some.inj h)
  | raised r c => exact congrArg Host.Outcome.next (Option.some.inj h)
  | waiting w => cases h

/-- A feed that has no such state waits. -/
theorem waiting_of_settled_none {p : Progress WalkRun DfCause} (h : settled s p = none) : ∃ w, p = .waiting w := by
  cases p with
  | running r => cases h
  | raised r c => cases h
  | waiting w => exact ⟨w, rfl⟩

/-- Writing the effects of one feed after those of another. -/
theorem storeWalk_storeWalk (r r' : WalkRun) (s : State) :
    complete (storeWalk r' (complete (storeWalk r s))) = complete (storeWalk (r'.after r.log) s) := by
  simp [complete, storeWalk, WalkRun.after]

/-- A feed goes on from the state that its first part completes in. -/
theorem settled_after (p : Progress WalkRun DfCause) (r : WalkRun) (s : State) :
    settled (complete (storeWalk r s)) p = settled s (p.mapRun (WalkRun.after r.log)) := by
  have stores := fun r' => storeWalk_storeWalk r r' s
  cases p with
  | running r' => exact congrArg some (stores r')
  | raised r' c => exact congrArg (fun t => some { t with decoder := raiseDf c t.decoder }) (stores r')
  | waiting w => rfl

/-- The walk that goes on after a run that met some of the answers is that run, with its OutWrites made before. -/
theorem startWalk_after {r : WalkRun} (ha : r.answers = (l.answered.map (fun x => x.2)).drop r.log.length) (s : State) :
    (startWalk { complete (storeWalk r s) with
      flight := some { l with answered := l.answered.drop ((storeWalk r s).outLog.length - s.outLog.length) } }).after
        r.log = r := by
  obtain ⟨cur, remain, log, answers⟩ := r
  simp only at ha
  simp [startWalk, givenAnswers, storeWalk, complete, WalkRun.after, ha, List.map_drop]

/-- While DF ≠ 0 the bits of a byte have no effect (41_decoder.md R140, R150). -/
theorem feedOneByOne_blocked (hd : s.decoder.df ≠ .none) (l : Latch) (bits : List Bool) :
    feedOneByOne l bits s = some (complete s) := by
  induction bits generalizing s l with
  | nil => rfl
  | cons b bs ih =>
    have run : exec (.dFeedBit b) { s with flight := some l } = .next (complete s) := unlessDecoderFault_blocked hd _
    simp only [feedOneByOne, run, complete_flight, if_true]
    exact ih (s := complete s) hd _

/-- Bits fed one by one with DF = 0 end as the feed of them all does (41_decoder.md R149, R150). -/
theorem feedOneByOne_ready (hd : s.decoder.df = .none) (l : Latch) (bits : List Bool) :
    feedOneByOne l bits s =
      settled s (feedBits s.decoder.node bits (startWalk { s with flight := some l })) := by
  induction bits generalizing s l with
  | nil => simp [feedOneByOne, feedBits, settled, startWalk, storeWalk, complete]
  | cons b bs ih =>
    have run := exec_dFeedBit_ready (s := { s with flight := some l }) hd b
    rw [feedBits_cons, feedOneByOne]
    cases hstep : stepBit s.decoder.node b (startWalk { s with flight := some l }) with
    | running r =>
      have completes : exec (.dFeedBit b) { s with flight := some l } = .next (complete (storeWalk r s)) :=
        run.trans (congrArg (settleWalk _ _) hstep)
      simp only [completes, complete_flight, if_true]
      refine (ih (s := complete (storeWalk r s)) hd _).trans ?_
      rw [settled_after, ← feedBits_after]
      exact congrArg (fun r' => settled s (feedBits s.decoder.node bs r')) (startWalk_after (stepBit_answers rfl hstep) s)
    | raised r c =>
      have completes : exec (.dFeedBit b) { s with flight := some l } =
          .next (complete { storeWalk r s with decoder := raiseDf c (storeWalk r s).decoder }) :=
        run.trans (congrArg (settleWalk _ _) hstep)
      have fault : (raiseDf c (storeWalk r s).decoder).df ≠ .none := by
        simpa [storeWalk, hd] using stepBit_raised_ne_none hstep
      simp only [completes, complete_flight, if_true]
      exact feedOneByOne_blocked fault _ bs
    | waiting w =>
      have waits : exec (.dFeedBit b) { s with flight := some l } = .next (awaitAnswer _ w _) :=
        run.trans (congrArg (settleWalk _ _) hstep)
      simp only [waits, awaitAnswer_flight, reduceCtorEq, if_false]
      rfl

end

/-- Settles O36: with DF = 0 both end as the feed of the byte's bits does, and with DF ≠ 0 neither has an effect. -/
theorem feedByteIsEightFeedBits : Obligations.FeedByteIsEightFeedBits := by
  intro s l byte hf oneByOne
  have bits : oneByOne = feedOneByOne l (byteBits byte) s := rfl
  by_cases hd : s.decoder.df = .none
  · have hs : { s with flight := some l } = s := by rw [← hf]
    have same : oneByOne = settled s (feedBits s.decoder.node (byteBits byte) (startWalk s)) := by
      rw [bits, feedOneByOne_ready hd, hs]
    rw [same, exec_dFeedByte_ready hd]
    refine ⟨fun t ht => settleWalk_of_settled _ ht, fun stuck => ?waits, fun many => ?completes⟩
    case waits =>
      obtain ⟨w, hw⟩ := waiting_of_settled_none stuck
      rw [hw]
      cases w with
      | sink bytes => exact absurd hw (feedBits_waitsForOut _ _ _ bytes)
      | out sym => exact ⟨sym, congrArg Host.Outcome.next (awaitAnswer_inFlight hf _ _)⟩
    case completes =>
      refine Option.ne_none_iff_exists'.1 fun stuck => ?_
      obtain ⟨w, hw⟩ := waiting_of_settled_none stuck
      have few := feedBits_writesAtMost s.decoder.node (byteBits byte) (startWalk s)
      rw [hw] at few
      have few : (givenAnswers s).length < 8 := few
      rw [givenAnswers_inFlight hf, List.length_map] at few
      omega
  · have run : exec (.dFeedByte byte) s = .next (complete s) := unlessDecoderFault_blocked hd _
    rw [bits, feedOneByOne_blocked hd, run]
    exact ⟨fun t ht => congrArg Host.Outcome.next (Option.some.inj ht), nofun, fun _ => ⟨_, rfl⟩⟩

end Sys2Proof.Machine
end

section
/-! What a write does, register by register (42_global.md R172), and NOP (42_global.md R170). -/

namespace Sys2Proof.Machine

/-! ## Writes -/

/-- The registers a host cannot write (42_global.md R172): all but CMD and the staging registers. -/
def IsReadOnly (r : Reg) : Prop := r ≠ .cmd ∧ ¬ IsStaging r

/-- A write to a read-only register raises BAD_ACCESS and writes nothing (42_global.md R172). -/
theorem IsReadOnly.write {r : Reg} (h : IsReadOnly r) (v : Word) (s : State) :
    writeRegister r v s = raiseCf .badAccess s := by
  obtain ⟨notCmd, notStaging⟩ := h
  cases r with
  | cmd => exact absurd rfl notCmd
  | code k => exact absurd (.inl ⟨k, rfl⟩) notStaging
  | lenLo => exact absurd (.inr (.inl rfl)) notStaging
  | lenHi => exact absurd (.inr (.inr rfl)) notStaging
  | _ => rfl

/-- The nine offsets are those of read-only registers. -/
theorem isReadOnly_of_offset {off : Nat} (h : off ∈ [0x04, 0x08, 0x0C, 0x38, 0x3C, 0x40, 0x44, 0x48, 0x4C]) :
    ∃ r, IsReadOnly r ∧ regOffset r = off := by
  simp only [List.mem_cons, List.not_mem_nil, or_false] at h
  rcases h with rfl | rfl | rfl | rfl | rfl | rfl | rfl | rfl | rfl
  · exact ⟨.status, by simp [IsReadOnly, IsStaging], rfl⟩
  · exact ⟨.bpOff, by simp [IsReadOnly, IsStaging], rfl⟩
  · exact ⟨.bpCap, by simp [IsReadOnly, IsStaging], rfl⟩
  · exact ⟨.remainLo, by simp [IsReadOnly, IsStaging], rfl⟩
  · exact ⟨.remainHi, by simp [IsReadOnly, IsStaging], rfl⟩
  · exact ⟨.dCur, by simp [IsReadOnly, IsStaging], rfl⟩
  · exact ⟨.dNodes, by simp [IsReadOnly, IsStaging], rfl⟩
  · exact ⟨.dCodes, by simp [IsReadOnly, IsStaging], rfl⟩
  · exact ⟨.dCap, by simp [IsReadOnly, IsStaging], rfl⟩

/-- Settles O10: each offset is a register's, and the register is CMD, a staging register or read-only. -/
theorem writesStoreOrAreRefused : Obligations.WritesStoreOrAreRefused := by
  intro s v wr
  have write : ∀ r, wr (regOffset r) = writeRegister r v s := fun r => busAccess_writeRegister r v s
  refine ⟨write .cmd, write (.code 0), write (.code 1), write (.code 2), write (.code 3), write (.code 4),
    write (.code 5), write (.code 6), write (.code 7), write .lenLo, write .lenHi, fun off hoff => ?readOnly⟩
  case readOnly =>
    obtain ⟨r, readOnly, rfl⟩ := isReadOnly_of_offset hoff
    exact (write r).trans (readOnly.write v s)

/-! ## NOP -/

/-- While BUSY = 1 every word is dropped, whatever it is (30_encoding.md R102). -/
theorem accept_busy {s : State} (h : s.flight ≠ none) (w : Word) : accept w s = raiseCf .busyViolation s :=
  if_pos (Option.isSome_iff_ne_none.2 h)

/-- The word 0 is NOP's (30_encoding.md R96). -/
theorem decode_zero : decode 0x00000000#32 = .ok .nop := listedWordsDecode.1

/-- Settles O14: NOP's word is dropped or latched as any command's, and its execution only completes it. -/
theorem nopHasNoEffect : Obligations.NopHasNoEffect := by
  intro s
  refine ⟨fun busy => ?dropped, fun idle => ?latched, ?executed⟩
  case dropped => exact accept_busy busy _
  case latched => exact ⟨newLatch 0x00000000#32 s, accept_ok idle decode_zero, decode_zero⟩
  case executed => rfl

end Sys2Proof.Machine
end

section
/-! The units across a command and the fault causes across a step (60_exceptions.md R180, R184, R189): each unit's
commands keep to their unit, and a move of an agent leaves the recorded causes, or keeps or clears each. -/

namespace Sys2Proof.Machine

/-! ## The two units -/

/-- SOFT_RESET is no packer command (30_encoding.md R96). -/
theorem IsPackerCommand.ne_softReset {i : Instr} (h : IsPackerCommand i) : i ≠ .softReset := by
  rintro rfl
  simp [IsPackerCommand] at h

/-- No packer command is a decoder command (30_encoding.md R96). -/
theorem IsPackerCommand.not_isDecoderCommand {i : Instr} (h : IsPackerCommand i) : ¬ IsDecoderCommand i := by
  rcases h with rfl | ⟨len, rfl⟩ | ⟨sym, rfl⟩ | rfl | ⟨sym, len, rfl⟩ | rfl <;> simp [IsDecoderCommand]

/-- SOFT_RESET is no decoder command (30_encoding.md R96). -/
theorem IsDecoderCommand.ne_softReset {i : Instr} (h : IsDecoderCommand i) : i ≠ .softReset := by
  rintro rfl
  simp [IsDecoderCommand] at h

/-- Settles O38: of the five ways a command can end, only the reset and the decoder's own touch the decoder unit, and
only the reset and the packer's own the packer unit. -/
theorem unitsAreIndependent : Obligations.UnitsAreIndependent := by
  intro i s t e
  refine ⟨fun (hi : IsPackerCommand i) => ?packer, fun (hi : IsDecoderCommand i) => ?decoder⟩
  case packer =>
    cases exec_result e with
    | reset h _ => exact absurd h hi.ne_softReset
    | decoder h _ _ _ => exact absurd h hi.not_isDecoderCommand
    | packer _ p log e => subst e; exact ⟨rfl, rfl⟩
    | nop _ e => subst e; exact ⟨rfl, rfl⟩
    | waits w e => subst e; exact ⟨rfl, rfl⟩
  case decoder =>
    cases exec_result e with
    | reset h _ => exact absurd h hi.ne_softReset
    | packer h _ _ _ => exact absurd hi h.not_isDecoderCommand
    | decoder _ d log e => subst e; exact ⟨rfl, rfl⟩
    | nop _ e => subst e; exact ⟨rfl, rfl⟩
    | waits w e => subst e; exact ⟨rfl, rfl⟩

/-! ## The first cause -/

/-- From `s` to `t` no recorded cause changes (60_exceptions.md R188). -/
structure CausesStay (s t : State) : Prop where
  cf : s.cf ≠ .none → t.cf = s.cf
  pf : s.packer.pf ≠ .none → t.packer.pf = s.packer.pf
  df : s.decoder.df ≠ .none → t.decoder.df = s.decoder.df

/-- From `s` to `t` a recorded cause stays or is cleared (60_exceptions.md R184). -/
structure FirstCausesKept (s t : State) : Prop where
  cf : s.cf ≠ .none → t.cf = s.cf ∨ t.cf = .none
  pf : s.packer.pf ≠ .none → t.packer.pf = s.packer.pf ∨ t.packer.pf = .none
  df : s.decoder.df ≠ .none → t.decoder.df = s.decoder.df ∨ t.decoder.df = .none

/-- A move that changes nothing leaves the causes. -/
theorem CausesStay.refl (s : State) : CausesStay s s :=
  ⟨fun _ => rfl, fun _ => rfl, fun _ => rfl⟩

/-- Causes that stay are not replaced. -/
theorem CausesStay.firstCausesKept {s t : State} (h : CausesStay s t) : FirstCausesKept s t :=
  ⟨fun c => .inl (h.cf c), fun c => .inl (h.pf c), fun c => .inl (h.df c)⟩

/-- What keeps or clears the causes still does so after something that leaves them. This order is the one that holds:
after a clearing move another cause could be raised. -/
theorem CausesStay.andThen {s u t : State} (h : CausesStay s u) (k : FirstCausesKept u t) : FirstCausesKept s t where
  cf c := by rw [← h.cf c]; exact k.cf (by rwa [h.cf c])
  pf c := by rw [← h.pf c]; exact k.pf (by rwa [h.pf c])
  df c := by rw [← h.df c]; exact k.df (by rwa [h.df c])

/-- A host access leaves the recorded causes. -/
theorem hostAccess_causesStay (a : Access) (s : State) : CausesStay s (hostAccess a s) := by
  obtain ⟨hcf, hpacker, hdecoder⟩ := (busAccess_result a s).keeps_causes
  exact ⟨hcf, fun _ => congrArg Packer.pf hpacker, fun _ => congrArg Decoder.df hdecoder⟩

/-- The host's turn leaves the recorded causes: it is at most one access. -/
theorem hostTurn_causesStay (s : State) : CausesStay s (hostTurn s) := by
  rcases hostTurn_cases s with ⟨-, e⟩ | ⟨a, rest, -, e⟩ | ⟨rest, more, -, -, e⟩ <;> rw [e]
  · exact .refl s
  · exact { hostAccess_causesStay a { s with script := rest } with }
  · exact { hostAccess_causesStay _ { s with script := more } with }

/-- The packer sink's turn leaves the causes: it changes the latch and its own answers only. -/
theorem packerSinkTurn_causesStay (s : State) : CausesStay s (packerSinkTurn s) := by
  rcases packerSinkTurn_cases s with e | ⟨l, w, a, more, -, -, e⟩ <;> rw [e]
  · exact .refl s
  · exact { CausesStay.refl s with }

/-- The output sink's turn leaves the causes: it changes the latch and its own answers only. -/
theorem outSinkTurn_causesStay (s : State) : CausesStay s (outSinkTurn s) := by
  rcases outSinkTurn_cases s with e | ⟨l, w, a, more, -, -, e⟩ <;> rw [e]
  · exact .refl s
  · exact { CausesStay.refl s with }

/-- `rst` clears every cause (70_reset_and_hazards.md R210, R211). -/
theorem rstTurn_firstCausesKept (s : State) : FirstCausesKept s (rstTurn s) :=
  ⟨fun _ => .inr rfl, fun _ => .inr rfl, fun _ => .inr rfl⟩

/-- A command keeps a recorded cause, or is a reset that clears it. -/
theorem exec_firstCausesKept {i : Instr} {s t : State} (e : exec i s = .next t) : FirstCausesKept s t := by
  obtain ⟨cf, pf, df⟩ := causesAreClearedOnlyByResets.1 i s t e
  refine ⟨fun c => (cf c).imp_right ?_, fun c => (pf c).imp_right ?_, fun c => (df c).imp_right ?_⟩
  · rintro rfl; cases e; rfl
  · rintro (rfl | rfl) <;> cases e <;> rfl
  · rintro (rfl | rfl) <;> cases e <;> rfl

/-- The block's turn does nothing or executes a command. -/
theorem blockTurn_firstCausesKept {s t : State} (e : blockTurn s = .next t) : FirstCausesKept s t := by
  rcases blockTurn_cases e with rfl | ⟨l, i, -, -, -, e⟩
  · exact (CausesStay.refl _).firstCausesKept
  · exact exec_firstCausesKept e

/-- What the synchronous turn can be (log entry 3): the host's turn and then the block's, or the turn of one agent. -/
theorem syncTurn_cases {s t : State} (e : syncTurn s = .next t) :
    blockTurn (hostTurn s) = .next t ∨ blockTurn s = .next t ∨ t = hostTurn s ∨ t = packerSinkTurn s ∨
      t = outSinkTurn s := by
  unfold syncTurn at e
  split at e
  · exact .inl e
  · split at e
    · exact .inr (.inl e)
    · cases e; split <;> simp
    · cases e; split <;> simp

/-- The synchronous turn keeps or clears the causes: the host moves first and only then the block. -/
theorem syncTurn_firstCausesKept {s t : State} (e : syncTurn s = .next t) : FirstCausesKept s t := by
  rcases syncTurn_cases e with e | e | rfl | rfl | rfl
  · exact (hostTurn_causesStay s).andThen (blockTurn_firstCausesKept e)
  · exact blockTurn_firstCausesKept e
  · exact (hostTurn_causesStay s).firstCausesKept
  · exact (packerSinkTurn_causesStay s).firstCausesKept
  · exact (outSinkTurn_causesStay s).firstCausesKept

/-- The move of one agent keeps or clears the causes. -/
theorem takeTurn_firstCausesKept {turn : Turn} {s t : State} (e : takeTurn turn s = .next t) : FirstCausesKept s t := by
  cases turn with
  | sync => exact syncTurn_firstCausesKept e
  | host => cases e; exact (hostTurn_causesStay s).firstCausesKept
  | block => exact blockTurn_firstCausesKept e
  | packerSink => cases e; exact (packerSinkTurn_causesStay s).firstCausesKept
  | outSink => cases e; exact (outSinkTurn_causesStay s).firstCausesKept
  | rst => cases e; exact rstTurn_firstCausesKept s

/-- A step keeps or clears the causes: it is the move of one agent, and the schedule holds no cause. -/
theorem step_firstCausesKept {s t : State} (e : step s = .next t) : FirstCausesKept s t := by
  cases hs : s.turns with
  | nil => exact syncTurn_firstCausesKept (step_sync hs ▸ e)
  | cons turn rest =>
    have move := takeTurn_firstCausesKept (step_turn hs ▸ e)
    exact { move with }

/-- Settles O41: each agent's move leaves the recorded causes, or keeps or clears each. -/
theorem firstCauseIsKept : Obligations.FirstCauseIsKept := by
  intro s t e
  obtain ⟨cf, pf, df⟩ := step_firstCausesKept e
  exact ⟨cf, pf, df⟩

end Sys2Proof.Machine
end

section
/-! The end of a run (70_reset_and_hazards.md R223): the one access a host operation makes in an idle block, what it
leaves of a run, and the statement on the read of STATUS that ends it. -/

namespace Sys2Proof.Safety

/-- A run has ended: no command is left, the block is idle, and STATUS is confirmed. -/
theorem runEnded_iff {t : Machine.State} :
    runEnded t = true ↔ noCommandLeft t.params t.script = true ∧ t.flight = none ∧ statusConfirmed t = true := by
  simp [runEnded, Machine.State.busy, and_assoc]

/-- A run has ended successfully: it ended, no cause is recorded, and a decode run was begun and is done. -/
theorem runSucceeded_iff {t : Machine.State} {decodeRun : Bool} :
    runSucceeded t decodeRun = true ↔ runEnded t = true ∧ t.cf = .none ∧ t.packer.pf = .none ∧ t.decoder.df = .none ∧
      (decodeRun = true → decodeStarted t = true ∧ t.decoder.remain = 0) := by
  cases decodeRun <;> simp [runSucceeded, Machine.State.done, and_assoc]

end Sys2Proof.Safety

namespace Sys2Proof.Machine

open Sys2Proof.Safety

/-- The access a host operation makes: a WAIT reads STATUS (30_encoding.md R103). -/
def HostOp.accessMade (p : Params) : HostOp → Access
  | .access a => a
  | .wait => .read (regAddress p .status) 4

/-- A host operation reads STATUS when it is such a read or a WAIT. -/
theorem HostOp.accessMade_eq_statusRead {p : Params} {op : HostOp} :
    op.accessMade p = .read (regAddress p .status) 4 ↔
      op = .wait ∨ op = .access (.read (regAddress p .status) 4) := by
  cases op <;> simp [HostOp.accessMade]

/-- A 4-byte write at BASE presents a command word (10_state.md R23). -/
theorem isCommandAccess_cmdWrite (p : Params) (w : Word) : isCommandAccess p (.write p.base 4 w) = true :=
  decide_eq_true ⟨rfl, rfl⟩

/-- A host operation that is no write to CMD makes an access that presents no command word. -/
theorem HostOp.accessMade_noCommand {p : Params} {op : HostOp} (h : ∀ w, op ≠ .access (.write p.base 4 w)) :
    isCommandAccess p (op.accessMade p) = false := by
  rcases op with (⟨addr, width⟩ | ⟨addr, width, w⟩) | -
  · rfl
  · refine decide_eq_false fun ⟨haddr, hwidth⟩ => h w ?_
    rw [haddr, hwidth]
    rfl
  · rfl

/-- An admitted read leaves the latch. -/
theorem readRegister_flight (r : Reg) (s : State) : (readRegister r s).flight = s.flight := by
  unfold readRegister
  split <;> rfl

/-- Only a write to CMD can latch a command (42_global.md R172). -/
theorem writeRegister_flight {r : Reg} (h : r ≠ .cmd) (v : Word) (s : State) :
    (writeRegister r v s).flight = s.flight := by
  cases r with
  | cmd => exact absurd rfl h
  | _ => rfl

/-- A write in the window that is admitted to CMD presents a command word. -/
theorem isCommandAccess_of_registerAt {p : Params} {addr width : Nat} {v : Word} (hw : inWindow p.base addr = true)
    (hr : registerAt (addr - p.base) width = some .cmd) : isCommandAccess p (.write addr width v) = true := by
  obtain ⟨hwidth, hoff⟩ := registerAt_some hr
  obtain ⟨hlow, -⟩ : p.base ≤ addr ∧ addr < p.base + 256 := by simpa [inWindow] using hw
  refine decide_eq_true ⟨?_, hwidth⟩
  rw [regAddress, hoff]
  omega

/-- An access that presents no command word latches none. -/
theorem busAccess_flight {a : Access} {s : State} (h : isCommandAccess s.params a = false) :
    (busAccess a s).flight = s.flight := by
  cases a with
  | read addr width =>
    simp only [busAccess, readWindow]
    split
    · split
      · exact readRegister_flight _ s
      · rfl
    · rfl
  | write addr width v =>
    simp only [busAccess, writeWindow]
    split
    next hw =>
      split
      next r hr =>
        have notCmd : r ≠ .cmd := by
          rintro rfl
          rw [isCommandAccess_of_registerAt hw hr] at h
          cases h
        exact writeRegister_flight notCmd v s
      next => rfl
    next => rfl

/-- A read of STATUS returns it, also while BUSY = 1 (42_global.md R173). -/
theorem busAccess_statusRead (s : State) :
    busAccess (.read (regAddress s.params .status) 4) s = returnValue (statusWord s) s :=
  busAccess_read_exact (.inr rfl)

/-- A read of STATUS is recorded with what it returned, and leaves CF. -/
theorem hostAccess_statusRead (s : State) :
    (hostAccess (.read (regAddress s.params .status) 4) s).inputLog =
        s.inputLog ++ [.access (.read (regAddress s.params .status) 4) (some (statusWord s))] ∧
      (hostAccess (.read (regAddress s.params .status) 4) s).cf = s.cf := by
  simp [hostAccess, busAccess_statusRead]

/-- In an idle block an access confirms STATUS exactly when it reads STATUS (10_state.md R43). -/
theorem readsIdle_iff_statusRead {s : State} (hf : s.flight = none) (a : Access) :
    readsIdle s.params (.access a (busAccess a s).readLog[s.readLog.length]?) = true ↔
      a = .read (regAddress s.params .status) 4 := by
  constructor
  · intro h
    cases a with
    | read addr width =>
      cases hr : (busAccess (.read addr width) s).readLog[s.readLog.length]? with
      | none => rw [hr] at h; cases h
      | some w =>
        rw [hr] at h
        obtain ⟨⟨rfl, rfl⟩, -⟩ : (addr = regAddress s.params .status ∧ width = 4) ∧ w.getLsbD 0 = false := by
          simpa [readsIdle] using h
        rfl
    | write addr width v => cases h
  · rintro rfl
    obtain ⟨busy, -⟩ := statusHoldsItsFields s
    have idle : (statusWord s)[0] = false := busy.trans (congrArg Option.isSome hf)
    simp [busAccess_statusRead, readsIdle, idle]

/-- What an access that presents no command word leaves of a run in an idle block: the block idle, the faults and the
walk; STATUS is confirmed after it if it was before, or by it. -/
theorem hostAccess_noCommand {a : Access} {s : State} (h : isCommandAccess s.params a = false) (hf : s.flight = none) :
    (hostAccess a s).flight = none ∧ (hostAccess a s).packer = s.packer ∧ (hostAccess a s).decoder = s.decoder ∧
      decodeStarted (hostAccess a s) = decodeStarted s ∧
      (statusConfirmed (hostAccess a s) = true ↔
        a = .read (regAddress s.params .status) 4 ∨ statusConfirmed s = true) := by
  obtain ⟨hlog, -, hparams⟩ := hostAccess_recorded a s
  obtain ⟨-, hpacker, hdecoder⟩ := (busAccess_result a s).keeps_causes
  refine ⟨(busAccess_flight h).trans hf, hpacker, hdecoder, decodeStarted_event hparams hlog nofun ?_, ?_⟩
  · cases a with
    | read addr width => rfl
    | write addr width v => simp [commandWritten, h]
  · rw [statusConfirmed_event hparams hlog]
    simp [needsStatus, h, readsIdle_iff_statusRead hf, or_comm]

/-- In an idle block the host's turn is one access, and its operation is done. -/
theorem hostTurn_idle {s : State} {op : HostOp} {rest : List HostOp} (hf : s.flight = none)
    (hs : s.script = op :: rest) :
    hostTurn s = hostAccess (op.accessMade s.params) { s with script := rest } := by
  unfold hostTurn
  rw [hs]
  cases op with
  | access a => rfl
  | wait => simp [HostOp.accessMade, State.busy, hf]

/-- The block's turn records no input and leaves the parameters. -/
theorem blockTurn_inputLog {s t : State} (e : blockTurn s = .next t) :
    t.params = s.params ∧ t.inputLog = s.inputLog := by
  rcases blockTurn_cases e with rfl | ⟨l, i, -, -, -, e⟩
  · exact ⟨rfl, rfl⟩
  · obtain ⟨-, hparams, -, hlog, -⟩ := commandsKeepTheSharedState i s t e
    exact ⟨hparams, hlog⟩

/-- After an access that presents a command word, and the block's turn, STATUS is to be read again (R223). -/
theorem statusConfirmed_command {a : Access} {s t : State} (h : isCommandAccess s.params a = true)
    (e : blockTurn (hostAccess a s) = .next t) : statusConfirmed t = false := by
  obtain ⟨hlog, -, hparams⟩ := hostAccess_recorded a s
  obtain ⟨hparams', hlog'⟩ := blockTurn_inputLog e
  rw [statusConfirmed_event (hparams'.trans hparams) (hlog'.trans hlog)]
  simp [needsStatus, h]

/-- Settles O57: the step is the operation's one access and the block's turn; a CMD write asks for a new read of STATUS,
and any other access leaves the block idle and the run as it was but for a read of STATUS, which confirms. -/
theorem statusReadEndsTheRun : Obligations.StatusReadEndsTheRun := by
  intro s op rest hf ht hs
  have step_eq : step s = blockTurn (hostAccess (op.accessMade s.params) { s with script := rest }) := by
    rw [step_sync ht, syncTurn_idle hf, hostTurn_idle hf hs]
  refine ⟨fun w t hop e => ?command, fun hop => ?other⟩
  case command =>
    subst hop
    have unconfirmed : statusConfirmed t = false :=
      statusConfirmed_command (s := { s with script := rest }) (isCommandAccess_cmdWrite s.params w) (step_eq ▸ e)
    simp [runEnded, unconfirmed]
  case other =>
    obtain ⟨flight, packer, decoder, started, confirmed⟩ := hostAccess_noCommand (s := { s with script := rest })
      (HostOp.accessMade_noCommand hop) hf
    obtain ⟨-, script, params⟩ := hostAccess_recorded (op.accessMade s.params) { s with script := rest }
    refine ⟨_, step_eq.trans (blockTurn_idle flight), fun hread => ?_, ?_, fun decodeRun => ?_⟩
    · rw [HostOp.accessMade_eq_statusRead.2 hread]
      exact hostAccess_statusRead { s with script := rest }
    · rw [runEnded_iff, script, params, confirmed, HostOp.accessMade_eq_statusRead, or_assoc]
      exact and_congr_right fun _ => and_iff_right flight
    · rw [runSucceeded_iff, packer, decoder, started]
      rfl

end Sys2Proof.Machine
end
